-- ==== Sys2Proof/Word.lean ====
section
/-! DEFINITION. The word types of the device: the 8-bit data byte of the host bus, the 32-bit words that
lie in DeviceRAM, the 16-bit host address and the 12-bit window offset (00_scope.md rule R11). -/

namespace Sys2Proof

/-- The unit of every host access and of both memories (rules R50 to R52). -/
abbrev Byte := BitVec 8

/-- A 32-bit word: a pointer, an address map, a waveform base, a counter, a frequency (rules R31, R35 to R38). -/
abbrev Word32 := BitVec 32

/-- The address the host presents to the AddressDecoder (rule R50). -/
abbrev Addr := BitVec 16

/-- `addr[11:0]`, an offset of the cartridge window (rule R70). -/
abbrev Offset := BitVec 12

end Sys2Proof
end

