-- ==== Sys2Proof/Config.lean ====
section
/-! DEFINITION. What a configuration of the device fixes (00_scope.md rules R8 to R10, 10_state.md rule R41)
and the FREE VALUES: constants without a body that stand for the spec's `draw(T)` (rule R14).

The OPEN parameters of rule R10 are the fields of `Config`. A machine holds its configuration in the
state, where no operation changes it, so that a statement about every state is a statement about every
configuration. `SERIALIZER` is a number there, and the serializer of that number an uninterpreted constant
(notes/assumptions/7.md). `IMAGE_INIT` is the argument of creation (Machine/Port.lean). -/

namespace Sys2Proof

/-! Fixed sizes and values (rules R8 and R9). -/

/-- `IMAGE_SIZE` (rule R8). -/
abbrev imageSize : Nat := 32768
/-- `BANK_SIZE` (rule R8). -/
abbrev bankSize : Nat := 4096
/-- `BANK_BASE` (rule R8). -/
abbrev bankBase : Nat := 4096
/-- `RAM_SIZE` (rule R8). -/
abbrev ramSize : Nat := 8192
/-- `DISPLAY_BASE` (rule R9). -/
abbrev displayBase : Nat := 0x800
/-- `DRIVER_COPY_SIZE` (rule R9). -/
abbrev driverCopySize : Nat := 0x800
/-- `PATCH_MIN_OFFSET` (rule R8). -/
abbrev patchMinOffset : Nat := 0x040
/-- `COMMSTREAM` (rule R8). -/
abbrev commStream : Nat := 16
/-- `JUMPSTREAM` (rule R8). -/
abbrev jumpStream : Nat := 17
/-- `OVERDRIVE_MAP_LIMIT` (rule R8). -/
abbrev overdriveMapLimit : Nat := 0x24
/-- `WSHIFT_DEFAULT` (rule R8). -/
abbrev wshiftDefault : Byte := 27
/-- `START_BANK` (rule R9). -/
abbrev startBank : Fin 7 := 6
/-- `MODE_RESET` (rule R9). -/
abbrev modeReset : Byte := 0xFF
/-- `WAVE_ENCODING_OFFSET` (rule R8). -/
abbrev waveEncodingOffset : Word32 := 0x40000800
/-- `COPROC_RAM_BASE` (rule R9). -/
abbrev coprocRamBase : Nat := 0x40000000
/-- The bound of a cycle delta (rules R167 and R185). -/
abbrev cycleDeltaLimit : Nat := 2 ^ 31

/-- `OVERDRIVE_COMBINE` (rules R10 and R152). -/
inductive OverdriveCombine where
  | replace
  | and
  deriving DecidableEq, Repr

/-- `OVERDRIVE_CHECK_SCOPE` (rules R10 and R120). -/
inductive OverdriveScope where
  | allPokes
  | lowPokes
  deriving DecidableEq, Repr

/-- The OPEN parameters (rule R10), one field each. -/
structure Config where
  /-- `PTR_OFF`: the pointer table, 18 slots of 4 bytes. -/
  ptrOff : Nat
  /-- `INC_OFF`: the increment table, 18 slots of 4 bytes. -/
  incOff : Nat
  /-- `MAP_OFF`: the address-map table, 37 slots of 4 bytes. -/
  mapOff : Nat
  /-- `WAVE_OFF`: the waveform-base table, 3 slots of 4 bytes. -/
  waveOff : Nat
  /-- `MODE_ZERO_IS_ON` (rule R25). -/
  modeZeroIsOn : Bool
  /-- `PERIPH_B_BIT9` (rule R100). -/
  periphBBit9 : Bool
  /-- `OVERDRIVE_COMBINE` (rule R152). -/
  overdriveCombine : OverdriveCombine
  /-- `OVERDRIVE_CHECK_SCOPE` (rule R120). -/
  overdriveScope : OverdriveScope
  /-- `DEVICE_NAME`, the name tag of a snapshot (rule R195). -/
  deviceName : String
  /-- `CARRY_SCALE`, the scale of the saved audio carry (rule R195). -/
  carryScale : Nat
  /-- `SERIALIZER`: which serializer the device writes snapshots through (rules R10, R195). -/
  serializer : Nat
  deriving DecidableEq, Repr

/-- The table constraint of rule R10, and a positive `CARRY_SCALE`. Rule R10 calls the scale a positive integer
without saying what becomes of 0. That a configuration with the scale 0 is refused as one with bad offsets is
the model's choice: DESIGN CHOICE, notes/assumptions/19.md. -/
def Config.wf (c : Config) : Bool :=
  decide (c.ptrOff % 4 = 0 ∧ c.incOff % 4 = 0 ∧ c.mapOff % 4 = 0 ∧ c.waveOff % 4 = 0) &&
  decide (c.ptrOff + 72 ≤ c.incOff ∧ c.incOff + 72 ≤ c.mapOff ∧ c.mapOff + 148 ≤ c.waveOff
    ∧ c.waveOff + 12 ≤ displayBase) &&
  decide (0 < c.carryScale)

/-- The configuration of `State.reset`: the defaults of rule R10 where it gives one; the table offsets
are the layout of 95_test_vectors.md section 0 and the name is the model's.
DESIGN CHOICE, unsafe: notes/assumptions/1.md. -/
def Config.default : Config where
  ptrOff := 0x6D0
  incOff := 0x718
  mapOff := 0x760
  waveOff := 0x7F4
  modeZeroIsOn := true
  periphBBit9 := false
  overdriveCombine := .replace
  overdriveScope := .allPokes
  deviceName := "BUS"
  carryScale := 100000000
  serializer := 0

/-! `SERIALIZER` (rules R10, R195): "total, injective". -/

/-- A byte encoding of the values of a type, total, and injective in that the value and what follows it can be
read back. -/
structure Codec (α : Type) where
  write : α → List Byte
  read : List Byte → Option (α × List Byte)
  read_write : ∀ v rest, read (write v ++ rest) = some (v, rest)

/-- A serializer: an encoding of each primitive of the snapshot format (rule R195). -/
structure Serializer where
  str : Codec String
  u8 : Codec Byte
  u16 : Codec (BitVec 16)
  u32 : Codec Word32
  u64 : Codec (BitVec 64)

/-- Read `n` values, one after the other. -/
def readTimes {α : Type} (r : List Byte → Option (α × List Byte)) : Nat → List Byte → Option (List α × List Byte)
  | 0, bs => some ([], bs)
  | n + 1, bs =>
    match r bs with
    | none => none
    | some (v, bs) =>
      match readTimes r n bs with
      | none => none
      | some (vs, bs) => some (v :: vs, bs)

/-- As many values as were written are read back. -/
theorem readTimes_write {α : Type} (c : Codec α) (vs : List α) (rest : List Byte) :
    readTimes c.read vs.length (vs.flatMap c.write ++ rest) = some (vs, rest) := by
  induction vs with
  | nil => rfl
  | cons v vs ih =>
    rw [List.length_cons, List.flatMap_cons, List.append_assoc, readTimes, c.read_write]
    simp only [ih]

/-! That a serializer exists: the unary one. Nothing says that it is the device's. -/

/-- `n` ones and a zero. -/
def unaryWrite : Nat → List Byte
  | 0 => [0]
  | n + 1 => 1 :: unaryWrite n

/-- How many bytes stand before the first zero. -/
def unaryRead : List Byte → Option (Nat × List Byte)
  | [] => none
  | b :: bs =>
    if b = 0 then some (0, bs)
    else match unaryRead bs with
      | none => none
      | some (n, bs) => some (n + 1, bs)

theorem unaryRead_write (n : Nat) (rest : List Byte) : unaryRead (unaryWrite n ++ rest) = some (n, rest) := by
  induction n with
  | zero => rfl
  | succ n ih =>
    show (if (1 : Byte) = 0 then _ else match unaryRead (unaryWrite n ++ rest) with
      | none => none
      | some (n, bs) => some (n + 1, bs)) = _
    rw [if_neg (by decide), ih]

/-- The unary encoding of a type whose values have numbers. -/
def Codec.unary {α : Type} (number : α → Nat) (value : Nat → α) (h : ∀ v, value (number v) = v) : Codec α where
  write v := unaryWrite (number v)
  read bs :=
    match unaryRead bs with
    | none => none
    | some (n, bs) => some (value n, bs)
  read_write v rest := by rw [unaryRead_write]; simp only [h]

/-- The unary encoding of words. -/
def Codec.bits (w : Nat) : Codec (BitVec w) :=
  .unary BitVec.toNat (BitVec.ofNat w) (fun v => BitVec.ofNat_toNat w v ▸ BitVec.setWidth_eq v)

/-- The unary encoding of characters. -/
def Codec.character : Codec Char :=
  .unary Char.toNat Char.ofNat Char.ofNat_toNat

/-- The unary encoding of strings: the length, then the characters. -/
def Codec.string : Codec String where
  write v := unaryWrite v.toList.length ++ v.toList.flatMap Codec.character.write
  read bs :=
    match unaryRead bs with
    | none => none
    | some (n, bs) =>
      match readTimes Codec.character.read n bs with
      | none => none
      | some (cs, bs) => some (String.ofList cs, bs)
  read_write v rest := by
    rw [List.append_assoc, unaryRead_write]
    simp only [readTimes_write, String.ofList_toList]

/-- The unary serializer. -/
def Serializer.unary : Serializer where
  str := .string
  u8 := .bits 8
  u16 := .bits 16
  u32 := .bits 32
  u64 := .bits 64

/-- The serializer of a number: any at all. It has no body, so that nothing can be proved of the bytes it writes
but what `Codec` says. -/
opaque Config.serializerNumbered [Inhabited Serializer] : Nat → Serializer

/-- The serializer of a configuration. -/
def Config.codecs (c : Config) : Serializer :=
  @Config.serializerNumbered ⟨Serializer.unary⟩ c.serializer

/-! FREE VALUES (`draw(T)`, rule R14). None has a body: nothing can be proved of a value of one. Each is
applied to the draw counter of the state (notes/assumptions/3.md). -/

/-- `draw(8 bits)`. -/
opaque Config.freeByte : Nat → Byte
/-- `draw(32 bits)`. -/
opaque Config.freeWord : Nat → Word32
/-- The free content of a byte of DeviceRAM: the draw's number, then the byte's offset. -/
opaque Config.freeCell : Nat → Nat → Byte
/-- A free bank in 0..6. -/
opaque Config.freeBank : Nat → Fin 7
/-- A free bit. -/
opaque Config.freeBool : Nat → Bool
/-- A free intercept count in 0..2. -/
opaque Config.freeCount : Nat → Fin 3
/-- A free natural number. -/
opaque Config.freeNat : Nat → Nat
/-- The significand of a free binary64 value. -/
opaque Config.freeSignificand : Nat → BitVec 53
/-- The exponent of a free binary64 value, counted from the least one. -/
opaque Config.freeExponent : Nat → Fin 2046

end Sys2Proof
end

