-- ==== Sys2Proof/Syntax.lean ====
section
/-! DEFINITION. The operations of the device: `Instr`, one constructor per row of spec/opcode_table.json
(30_encoding.md rule R78 for the host accesses, rule R72 for the callbacks, rule R73 for the port), and
`Request`, an operation as it arrives in one of the three formats BUS, CB and PORT (rules R70, R72, R73). -/

namespace Sys2Proof

/-- The operation names of format PORT (rule R73). -/
inductive PortName where
  | bank | patch | lock | unlock | queryBankChanged | save | load | reset | timingChanged
  deriving DecidableEq, Repr

/-- An argument of a port operation (rules R73 and R82). -/
inductive PortArg where
  | nat (n : Nat)
  | addr (a : Addr)
  | byte (b : Byte)
  | bytes (bs : List Byte)
  deriving DecidableEq, Repr

/-- An operation as it arrives.
`bus`: the 17-bit access word of rule R70 in three bytes, least significant first, then the data lane `D`.
`cb`: `fn` in one byte, then `channel` and `value` in four bytes each, least significant first (rule R72).
`port`: a name and its arguments (rule R73). -/
inductive Request where
  | bus (bytes : List Byte)
  | cb (bytes : List Byte)
  | port (name : PortName) (args : List PortArg)
  deriving DecidableEq, Repr

/-- Why a request is no operation. -/
inductive DecodeError where
  /-- A BUS or CB request that has not the length of its format. -/
  | frameLength
  /-- A BUS request with a bit above bit 16 of the access word set (rule R70: 17 bits). -/
  | accessWordBits
  /-- A callback with `fn` above 3 (rule R80). -/
  | unknownCallback
  /-- A PORT request whose arguments are not those of its name (rule R73). -/
  | portArguments
  deriving DecidableEq, Repr

/-- One constructor per row of spec/opcode_table.json. Address bits 15:13 of a window access are no
operand, because the decoder ignores them (rule R105); a peripheral receives the whole address. -/
inductive Instr where
  | readPeriphA (addr : Addr)
  | writePeriphA (addr : Addr) (d : Byte)
  | readPeriphB (addr : Addr)
  | writePeriphB (addr : Addr) (d : Byte)
  | readLowNone (addr : Addr)
  | writeLowNone (addr : Addr) (d : Byte)
  | readAmplitude
  | writeRoAmplitude (d : Byte)
  | readDsread
  | writeRoDsread (d : Byte)
  | readWoDswrite
  | writeDswrite (d : Byte)
  | readWoDsptr
  | writeDsptr (d : Byte)
  | readWoSetmode
  | writeSetmode (d : Byte)
  | readWoCallfn
  | writeCallfn (d : Byte)
  | readNopFf4
  | writeNopFf4 (d : Byte)
  | readBank0
  | writeBank0 (d : Byte)
  | readBank1
  | writeBank1 (d : Byte)
  | readBank2
  | writeBank2 (d : Byte)
  | readBank3
  | writeBank3 (d : Byte)
  | readBank4
  | writeBank4 (d : Byte)
  | readBank5
  | writeBank5 (d : Byte)
  | readBank6
  | writeBank6 (d : Byte)
  | readRom (a : Offset)
  | writeRom (a : Offset) (d : Byte)
  | cbSetFreq (channel value : Word32)
  | cbResetCounter (channel value : Word32)
  | cbGetCounter (channel value : Word32)
  | cbSetWshift (channel value : Word32)
  | portBank (n : Nat)
  | portPatch (addr : Addr) (v : Byte)
  | portLock
  | portUnlock
  | portQueryBankChanged
  | portSave
  | portLoad (snap : List Byte)
  | portReset
  | portTimingChanged
  deriving DecidableEq, Repr

end Sys2Proof
end

