-- ==== Sys2Proof/WellFormed.lean ====
section
/-! DEFINITION. Which terms of `Instr` are operations the encodings admit (30_encoding.md rule R78). -/

namespace Sys2Proof

/-- The offsets of rows 18: 0x000 to 0xFED and 0xFFC to 0xFFF (rules R78 and R111). -/
def isRomOffset (a : Offset) : Bool :=
  decide (a.toNat < 0xFEE) || decide (0xFFB < a.toNat)

/-- Each operand in the range that its row of rule R78 selects. -/
def Instr.wf (c : Config) : Instr → Bool
  | .readPeriphA addr | .writePeriphA addr _ => !addr.getLsbD 12 && addr.getLsbD 7
  | .readPeriphB addr | .writePeriphB addr _ =>
    !addr.getLsbD 12 && !addr.getLsbD 7 && addr.getLsbD 9 == c.periphBBit9
  | .readLowNone addr | .writeLowNone addr _ =>
    !addr.getLsbD 12 && !addr.getLsbD 7 && addr.getLsbD 9 != c.periphBBit9
  | .readRom a | .writeRom a _ => isRomOffset a
  | .readAmplitude | .writeRoAmplitude _ | .readDsread | .writeRoDsread _ => true
  | .readWoDswrite | .writeDswrite _ | .readWoDsptr | .writeDsptr _ => true
  | .readWoSetmode | .writeSetmode _ | .readWoCallfn | .writeCallfn _ => true
  | .readNopFf4 | .writeNopFf4 _ => true
  | .readBank0 | .writeBank0 _ | .readBank1 | .writeBank1 _ | .readBank2 | .writeBank2 _ => true
  | .readBank3 | .writeBank3 _ | .readBank4 | .writeBank4 _ | .readBank5 | .writeBank5 _ => true
  | .readBank6 | .writeBank6 _ => true
  | .cbSetFreq _ _ | .cbResetCounter _ _ | .cbGetCounter _ _ | .cbSetWshift _ _ => true
  | .portBank _ | .portPatch _ _ | .portLock | .portUnlock | .portQueryBankChanged => true
  | .portSave | .portLoad _ | .portReset | .portTimingChanged => true

end Sys2Proof
end

