-- ==== Sys2Proof/Decode.lean ====
section
/-! DEFINITION. The decoder and the encoder of the three formats (30_encoding.md rules R70 to R80,
40_address_decoder.md rule R100), and the host's view of an opcode-table word. -/

namespace Sys2Proof

/-- Where an access is routed (rule R100). -/
inductive Target where
  | periphA
  | periphB
  | none
  | cart (a : Offset)
  deriving DecidableEq, Repr

/-- The AddressDecoder: a pure function of address bits 12, 9, 7 and, in the window, 11:0 (rule R100). -/
def decodeTarget (c : Config) (addr : Addr) : Target :=
  if addr.getLsbD 12 then .cart (addr.setWidth 12)
  else if addr.getLsbD 7 then .periphA
  else if addr.getLsbD 9 = c.periphBBit9 then .periphB
  else .none

/-- Rows 4 to 18 of rule R78, read column. -/
def decodeCartRead (a : Offset) : Instr :=
  if a = 0xFEE then .readAmplitude
  else if a = 0xFEF then .readDsread
  else if a = 0xFF0 then .readWoDswrite
  else if a = 0xFF1 then .readWoDsptr
  else if a = 0xFF2 then .readWoSetmode
  else if a = 0xFF3 then .readWoCallfn
  else if a = 0xFF4 then .readNopFf4
  else if a = 0xFF5 then .readBank0
  else if a = 0xFF6 then .readBank1
  else if a = 0xFF7 then .readBank2
  else if a = 0xFF8 then .readBank3
  else if a = 0xFF9 then .readBank4
  else if a = 0xFFA then .readBank5
  else if a = 0xFFB then .readBank6
  else .readRom a

/-- Rows 4 to 18 of rule R78, write column. -/
def decodeCartWrite (a : Offset) (d : Byte) : Instr :=
  if a = 0xFEE then .writeRoAmplitude d
  else if a = 0xFEF then .writeRoDsread d
  else if a = 0xFF0 then .writeDswrite d
  else if a = 0xFF1 then .writeDsptr d
  else if a = 0xFF2 then .writeSetmode d
  else if a = 0xFF3 then .writeCallfn d
  else if a = 0xFF4 then .writeNopFf4 d
  else if a = 0xFF5 then .writeBank0 d
  else if a = 0xFF6 then .writeBank1 d
  else if a = 0xFF7 then .writeBank2 d
  else if a = 0xFF8 then .writeBank3 d
  else if a = 0xFF9 then .writeBank4 d
  else if a = 0xFFA then .writeBank5 d
  else if a = 0xFFB then .writeBank6 d
  else .writeRom a d

/-- A host read, `W = 0` (rule R78, read column). -/
def decodeRead (c : Config) (addr : Addr) : Instr :=
  match decodeTarget c addr with
  | .periphA => .readPeriphA addr
  | .periphB => .readPeriphB addr
  | .none => .readLowNone addr
  | .cart a => decodeCartRead a

/-- A host write, `W = 1` (rule R78, write column). -/
def decodeWrite (c : Config) (addr : Addr) (d : Byte) : Instr :=
  match decodeTarget c addr with
  | .periphA => .writePeriphA addr d
  | .periphB => .writePeriphB addr d
  | .none => .writeLowNone addr d
  | .cart a => decodeCartWrite a d

/-- Format BUS (rule R70): the access word in three bytes, least significant first, then the data lane.
Bit 16 is `W`; bits 23:17 do not exist and must be 0. The data lane of a read is not looked at. -/
def decodeBus (c : Config) : List Byte → Except DecodeError Instr
  | [w0, w1, w2, d] =>
    if w2 = 0 then .ok (decodeRead c (w1 ++ w0))
    else if w2 = 1 then .ok (decodeWrite c (w1 ++ w0) d)
    else .error .accessWordBits
  | _ => .error .frameLength

/-- The callback that `fn` numbers (rule R72); `fn` above 3 does not exist (rule R80). -/
def decodeCallback (fn : Byte) (channel value : Word32) : Except DecodeError Instr :=
  if fn = 0 then .ok (.cbSetFreq channel value)
  else if fn = 1 then .ok (.cbResetCounter channel value)
  else if fn = 2 then .ok (.cbGetCounter channel value)
  else if fn = 3 then .ok (.cbSetWshift channel value)
  else .error .unknownCallback

/-- Format CB (rule R72). -/
def decodeCb : List Byte → Except DecodeError Instr
  | [fn, c0, c1, c2, c3, v0, v1, v2, v3] =>
    decodeCallback fn (c3 ++ c2 ++ c1 ++ c0) (v3 ++ v2 ++ v1 ++ v0)
  | _ => .error .frameLength

/-- Format PORT (rule R73). -/
def decodePort (name : PortName) (args : List PortArg) : Except DecodeError Instr :=
  match name, args with
  | .bank, [.nat n] => .ok (.portBank n)
  | .patch, [.addr a, .byte v] => .ok (.portPatch a v)
  | .lock, [] => .ok .portLock
  | .unlock, [] => .ok .portUnlock
  | .queryBankChanged, [] => .ok .portQueryBankChanged
  | .save, [] => .ok .portSave
  | .load, [.bytes bs] => .ok (.portLoad bs)
  | .reset, [] => .ok .portReset
  | .timingChanged, [] => .ok .portTimingChanged
  | _, _ => .error .portArguments

/-- The decoder, total on every request. -/
def decode (c : Config) : Request → Except DecodeError Instr
  | .bus bytes => decodeBus c bytes
  | .cb bytes => decodeCb bytes
  | .port name args => decodePort name args

/-! The encoder, written from the same formats. -/

/-- The BUS request of a read at `addr`. -/
def busRead (addr : Addr) : Request :=
  .bus [addr.extractLsb' 0 8, addr.extractLsb' 8 8, 0, 0]

/-- The BUS request of a write of `d` at `addr`. -/
def busWrite (addr : Addr) (d : Byte) : Request :=
  .bus [addr.extractLsb' 0 8, addr.extractLsb' 8 8, 1, d]

/-- The host address of window offset `a` with bits 15:13 zero (rule R82 writes 0x1000 to 0x1FFF). -/
def windowAddr (a : Offset) : Addr :=
  (1#4) ++ a

/-- The CB request of callback `fn`. -/
def cbRequest (fn : Byte) (channel value : Word32) : Request :=
  .cb [fn,
    channel.extractLsb' 0 8, channel.extractLsb' 8 8, channel.extractLsb' 16 8, channel.extractLsb' 24 8,
    value.extractLsb' 0 8, value.extractLsb' 8 8, value.extractLsb' 16 8, value.extractLsb' 24 8]

/-- The request of an operation. -/
def encode : Instr → Request
  | .readPeriphA addr => busRead addr
  | .writePeriphA addr d => busWrite addr d
  | .readPeriphB addr => busRead addr
  | .writePeriphB addr d => busWrite addr d
  | .readLowNone addr => busRead addr
  | .writeLowNone addr d => busWrite addr d
  | .readAmplitude => busRead 0x1FEE
  | .writeRoAmplitude d => busWrite 0x1FEE d
  | .readDsread => busRead 0x1FEF
  | .writeRoDsread d => busWrite 0x1FEF d
  | .readWoDswrite => busRead 0x1FF0
  | .writeDswrite d => busWrite 0x1FF0 d
  | .readWoDsptr => busRead 0x1FF1
  | .writeDsptr d => busWrite 0x1FF1 d
  | .readWoSetmode => busRead 0x1FF2
  | .writeSetmode d => busWrite 0x1FF2 d
  | .readWoCallfn => busRead 0x1FF3
  | .writeCallfn d => busWrite 0x1FF3 d
  | .readNopFf4 => busRead 0x1FF4
  | .writeNopFf4 d => busWrite 0x1FF4 d
  | .readBank0 => busRead 0x1FF5
  | .writeBank0 d => busWrite 0x1FF5 d
  | .readBank1 => busRead 0x1FF6
  | .writeBank1 d => busWrite 0x1FF6 d
  | .readBank2 => busRead 0x1FF7
  | .writeBank2 d => busWrite 0x1FF7 d
  | .readBank3 => busRead 0x1FF8
  | .writeBank3 d => busWrite 0x1FF8 d
  | .readBank4 => busRead 0x1FF9
  | .writeBank4 d => busWrite 0x1FF9 d
  | .readBank5 => busRead 0x1FFA
  | .writeBank5 d => busWrite 0x1FFA d
  | .readBank6 => busRead 0x1FFB
  | .writeBank6 d => busWrite 0x1FFB d
  | .readRom a => busRead (windowAddr a)
  | .writeRom a d => busWrite (windowAddr a) d
  | .cbSetFreq ch v => cbRequest 0 ch v
  | .cbResetCounter ch v => cbRequest 1 ch v
  | .cbGetCounter ch v => cbRequest 2 ch v
  | .cbSetWshift ch v => cbRequest 3 ch v
  | .portBank n => .port .bank [.nat n]
  | .portPatch a v => .port .patch [.addr a, .byte v]
  | .portLock => .port .lock []
  | .portUnlock => .port .unlock []
  | .portQueryBankChanged => .port .queryBankChanged []
  | .portSave => .port .save []
  | .portLoad bs => .port .load [.bytes bs]
  | .portReset => .port .reset []
  | .portTimingChanged => .port .timingChanged []

/-! The opcode-table word. -/

/-- The first `n` bytes of `w`, least significant first: bit 0 of the table's numbering is bit 0 of the
first byte. -/
def wordBytes : Nat → Nat → List Byte
  | 0, _ => []
  | n + 1, w => BitVec.ofNat 8 w :: wordBytes n (w / 256)

/-- Does a table row of `nbits` bits belong to format CB? The table gives a BUS row the 17 bits of the
access word (24 in whole bytes), a CB row the 2 bits of `fn` (8 in whole bytes), and a PORT row none. -/
def isCallbackRow (nbits : Nat) : Bool :=
  decide (nbits ≤ 8)

/-- The request whose bits are `w`, every bit above `nbits` zero. -/
def tableRequest (nbits w : Nat) : Request :=
  if isCallbackRow nbits then .cb (wordBytes 9 (w % 2 ^ nbits))
  else .bus (wordBytes 4 (w % 2 ^ nbits))

/-- The instruction the decoder reads from an opcode-table word, under the default configuration. -/
def decodeTableWord (nbits w : Nat) : Option Instr :=
  if nbits = 0 then none
  else match decode Config.default (tableRequest nbits w) with
    | .ok i => some i
    | .error _ => none

end Sys2Proof
end

