-- ==== Sys2Proof/Machine/Binary64.lean ====
section
/-! DEFINITION. IEEE 754 binary64 arithmetic with round-to-nearest-even, as the clock conversion and the
snapshot carry use it (43_audio.md rule R161, 44_control.md rule R195). A value is the rational number it
denotes; each operation is the exact one followed by one rounding. Infinities, NaNs and the sign of zero
do not occur in the values the spec computes; notes/assumptions/10.md. -/

namespace Sys2Proof.Machine

/-- `n / d` to the nearest natural number, ties to even. -/
def halfEven (n d : Nat) : Nat :=
  if 2 * (n % d) < d then n / d
  else if d < 2 * (n % d) then n / d + 1
  else n / d + (n / d) % 2

/-- The exponent of the unit in the last place of the binary64 values next to `n / d`. -/
def ulpExp (n d : Nat) : Int :=
  let k : Int := (Nat.log2 n : Int) - (Nat.log2 d : Int)
  let reaches : Bool := if k < 0 then decide (d ≤ n * 2 ^ (-k).toNat) else decide (d * 2 ^ k.toNat ≤ n)
  max ((if reaches then k else k - 1) - 52) (-1074)

/-- `n / d` rounded to a multiple of `2 ^ e`. -/
def roundTo (n d : Nat) (e : Int) : Rat :=
  if e < 0 then mkRat (halfEven (n * 2 ^ (-e).toNat) d) (2 ^ (-e).toNat)
  else ((halfEven n (d * 2 ^ e.toNat) * 2 ^ e.toNat : Nat) : Rat)

/-- A rational number rounded to binary64. Irreducible, so that no unification computes it. -/
@[irreducible]
def round64 (q : Rat) : Rat :=
  let m := roundTo q.num.natAbs q.den (ulpExp q.num.natAbs q.den)
  if q.num < 0 then -m else m

/-- `x *f y`. -/
def mul64 (x y : Rat) : Rat := round64 (x * y)
/-- `x /f y`. -/
def div64 (x y : Rat) : Rat := round64 (x / y)
/-- `x +f y`. -/
def add64 (x y : Rat) : Rat := round64 (x + y)
/-- `x -f y`. -/
def sub64 (x y : Rat) : Rat := round64 (x - y)
/-- `toF64(n)`. -/
def toF64 (n : Nat) : Rat := round64 n

/-- `toF64(n)` where it is finite, which is below 2^1024: none stands for +infinity. -/
@[irreducible]
def toF64Finite (n : Nat) : Option Rat :=
  if (toF64 n).floor.toNat.log2 < 1024 then some (toF64 n) else none

/-- `trunc(x)`, toward zero. -/
def truncInt (x : Rat) : Int :=
  if x < 0 then -(-x).floor else x.floor

/-- `HOST_CLOCK_F64` = 0x1.234e7aaaaaab9p+20. -/
def hostClock64 : Rat := mkRat 0x1234E7AAAAAAB9 (2 ^ 32)

/-- `clocks` of the clock conversion (rule R161). -/
def audioClocks (delta : Nat) (carry : Rat) : Rat :=
  add64 (div64 (mul64 20000 (toF64 delta)) hostClock64) carry

end Sys2Proof.Machine
end

