-- ==== Sys2Proof/Machine/State.lean ====
section
/-! DEFINITION. The state of the device (10_state.md rules R20 to R42), the reasons a step can stop
(60_exceptions.md rules R212 and R213), and the state after reset.

Beside the spec's state the record holds fields that are the MODEL's own: the configuration, the inputs
of the operation in progress, the operations that have not been accepted yet, what the device has put
out, and the counter behind the free values. INVENTORY.md lists each. -/

namespace Sys2Proof.Machine

/-- A memory: (address, byte) pairs, addresses strictly rising. What an unlisted address reads as, and
the canonical form, are in Machine/Ops.lean. -/
abbrev Memory := List Host.Cell

/-- One audio channel (rule R31). -/
structure Channel where
  /-- `st.counter[c]`. -/
  counter : Word32
  /-- `st.freq[c]`. -/
  freq : Word32
  /-- `st.wshift[c]`. -/
  wshift : Byte
  deriving DecidableEq, Repr

/-- One thing the CoprocessorBridge does to the device during a run (44_control.md rule R186). -/
inductive BridgeAction where
  /-- It writes a byte of DeviceRAM. -/
  | ramWrite (offset : BitVec 13) (v : Byte)
  /-- It calls back, in format CB (rule R72). -/
  | call (fn : Byte) (channel value : Word32)
  deriving DecidableEq, Repr

/-- The outcome of the external relation `Bridge(cyc)` for one run: what the bridge does, in order, and
the message it faults with, if it does (rule R186). Every outcome the relation allows is such a value. -/
structure Bridge where
  actions : List BridgeAction
  fault : Option String
  deriving DecidableEq, Repr

/-- What the host and the external chips supply with one operation (rule R34; R101, R102 and R186 for
the last three). -/
structure Input where
  /-- `hostCycles`. -/
  hostCycles : Nat
  /-- `probe`. -/
  probe : Bool
  /-- The byte PERIPH_A returns to a read. -/
  periphA : Byte
  /-- The byte PERIPH_B returns to a read. -/
  periphB : Byte
  /-- What the bridge does if this operation runs it. -/
  bridge : Bridge
  deriving DecidableEq, Repr

/-- An operation waiting to be accepted, with its inputs. -/
structure Arrival where
  input : Input
  request : Request
  deriving DecidableEq, Repr

/-- The two external chips of the peripheral space (rule R100). -/
inductive Periph where
  | a
  | b
  deriving DecidableEq, Repr

/-- The result an operation returns to its caller. -/
inductive OpResult where
  /-- The operation returns nothing. -/
  | unit
  /-- The byte of a host read. -/
  | byte (v : Byte)
  /-- The Boolean of a poke, of `bank`, `patch`, `load` and of the bank-changed query. -/
  | flag (b : Bool)
  /-- The `optional uint32` of a callback (rule R72). -/
  | word (w : Option Word32)
  /-- The bytes of the snapshot of a save (rule R195). -/
  | snapshot (bytes : List Byte)
  deriving DecidableEq, Repr

/-- What the device puts out, beside results. -/
inductive Output where
  /-- `PeriphRead(p, addr)` (rules R101, R102). -/
  | periphRead (p : Periph) (addr : Addr)
  /-- `PeriphWrite(p, addr, v)` (rule R104). -/
  | periphWrite (p : Periph) (addr : Addr) (v : Byte)
  /-- The bridge is invoked for `cycles` cycles (rule R185). -/
  | bridgeRun (cycles : Nat)
  /-- A callback's result, returned to the bridge (rule R72). -/
  | callbackReturn (w : Option Word32)
  /-- `Event(FatalCoprocessorFault(msg))` (rule R211). -/
  | fatalCoprocessorFault (msg : String)
  deriving DecidableEq, Repr

/-- Why the machine stops: the spec's model faults (rule R212). -/
inductive Fault where
  /-- `hostCycles` lies before the stamp it is compared with, or 2^31 or more after it. Raised by the
  amplitude read and by a coprocessor run (rules R167, R185). Safe. -/
  | cycleDelta
  /-- A callback with channel index 3 or more. Raised by the four callbacks (rule R174). Safe. -/
  | badChannelIndex
  /-- A cycle stamp of 2^64 or more at a save. Raised by `PORT SAVE` (rule R193). Safe. -/
  | cycleRange
  deriving DecidableEq, Repr

/-- Why an operation is not admitted: the spec's refusals (rule R213) and requests that are no operation. -/
inductive Refusal where
  /-- Raised by an arm of `exec` whose instruction has no meaning yet. Safe. -/
  | notModelled (mnemonic : String)
  /-- `PORT BANK(n)` with n > 6 (rule R191). Safe. -/
  | bankOutOfRange
  /-- A callback with `fn` > 3, met by the decoder or in a coprocessor run (rule R80). Safe. -/
  | unknownCallback
  /-- A callback when no coprocessor run is in progress (rule R216). Safe. -/
  | callbackOutsideRun
  /-- `PORT RESET` while locked (rule R230). Safe. -/
  | resetWhileLocked
  /-- Creation with a bad layout or image size (rules R10, R231). Safe. -/
  | badLayout
  /-- The request is in none of the forms of rules R70, R72 and R73: raised by `step`. Safe. -/
  | malformedRequest (why : DecodeError)
  deriving DecidableEq, Repr

/-- The device. Fields marked MODEL are the model's own, not the spec's. -/
structure State where
  /-- MODEL. The configuration, which no operation changes (rule R41). -/
  cfg : Config
  /-- `st.Img` (rule R22). An unlisted byte is 0. -/
  img : Memory
  /-- `st.Ram` (rule R23). An unlisted byte below `ramFreeFrom` is 0; any other unlisted byte is free. -/
  ram : Memory
  /-- MODEL. The lowest offset of DeviceRAM at which an unlisted byte is a free value. -/
  ramFreeFrom : Nat
  /-- MODEL. The number of the draw that gave the free bytes of DeviceRAM. -/
  ramEpoch : Nat
  /-- `st.bank` (rule R24). -/
  bank : Fin 7
  /-- `st.mode` (rule R25). -/
  mode : Byte
  /-- `st.locked` (rule R26). -/
  locked : Bool
  /-- `st.bankChanged` (rule R27). -/
  bankChanged : Bool
  /-- `st.jmpAddr`: none, or a 13-bit window offset, 1 to 0x1000 (rule R28; the range: `State.Inv`). -/
  jmpAddr : Option (BitVec 13)
  /-- `st.jmpCount` (rule R28). -/
  jmpCount : Fin 3
  /-- `st.styAddr`: none, or a 13-bit window offset, 1 to 0x1000 (rule R29; the range: `State.Inv`). -/
  styAddr : Option (BitVec 13)
  /-- `st.odTarget` (rule R30). -/
  odTarget : Option Byte
  /-- `st.counter[0]`, `st.freq[0]`, `st.wshift[0]` (rule R31). -/
  ch0 : Channel
  /-- `st.counter[1]`, `st.freq[1]`, `st.wshift[1]` (rule R31). -/
  ch1 : Channel
  /-- `st.counter[2]`, `st.freq[2]`, `st.wshift[2]` (rule R31). -/
  ch2 : Channel
  /-- `st.audioCycles` (rule R32). -/
  audioCycles : Nat
  /-- `st.carry` (rule R32): the binary64 value as a rational number. -/
  carry : Rat
  /-- `st.armCycles` (rule R33). -/
  armCycles : Nat
  /-- A coprocessor run is in progress (rules R213, R216): true only inside a CALLFN write. -/
  inRun : Bool
  /-- MODEL. The inputs of the operation in progress (rule R34). -/
  input : Input
  /-- MODEL. The operations not yet accepted, the next one first (rule R60). -/
  inbox : List Arrival
  /-- MODEL. The result of the last operation. -/
  result : OpResult
  /-- MODEL. What the device has put out, the newest first. -/
  out : List Output
  /-- MODEL. How many free values have been drawn. -/
  draws : Nat
  deriving DecidableEq, Repr

/-- The inputs in `State.reset`: cycle 0, no probe, a silent bus, a bridge that does nothing. -/
def Input.idle : Input where
  hostCycles := 0
  probe := false
  periphA := 0
  periphB := 0
  bridge := { actions := [], fault := none }

/-- The device right after creation under `Config.default` with an image of zeros at host cycle 0
(rules R42, R230 and R231). The display bytes, counters and frequencies are free values, as the spec says
(rule R232). Image and configuration: notes/assumptions/1.md and 2.md. -/
def State.reset : State where
  cfg := Config.default
  img := []
  ram := []
  ramFreeFrom := driverCopySize
  ramEpoch := 0
  bank := startBank
  mode := modeReset
  locked := false
  bankChanged := true
  jmpAddr := none
  jmpCount := 0
  styAddr := none
  odTarget := none
  ch0 := { counter := Config.freeWord 0, freq := Config.freeWord 3, wshift := wshiftDefault }
  ch1 := { counter := Config.freeWord 1, freq := Config.freeWord 4, wshift := wshiftDefault }
  ch2 := { counter := Config.freeWord 2, freq := Config.freeWord 5, wshift := wshiftDefault }
  audioCycles := 0
  carry := 0
  armCycles := 0
  inRun := false
  input := Input.idle
  inbox := []
  result := .unit
  out := []
  draws := 6

end Sys2Proof.Machine
end

