-- ==== Sys2Proof/Machine/Ops.lean ====
section
/-! DEFINITION. The named operations over memory and registers (00_scope.md rules R13 and R14, 20_memory.md
rules R50 to R64): the two memories, results, outputs and draws, the bank-switch operation, and the handling of a
coprocessor fault, which is the nearest thing the device has to taking an exception (60_exceptions.md
rules R216 and R217: no trap entry saves state, and there is no return). -/

namespace Sys2Proof.Machine

/-- The outcome of an operation. -/
abbrev OpOutcome := Host.Outcome State Fault Refusal

/-! Memories as lists of cells. -/

/-- The listed byte at an address. -/
def Memory.find : Memory → Nat → Option Byte
  | [], _ => none
  | (b, w) :: m, a => if b = a then some w else Memory.find m a

/-- List `v` at `a`, in address order. -/
def Memory.put : Memory → Nat → Byte → Memory
  | [], a, v => [(a, v)]
  | (b, w) :: m, a, v =>
    if b < a then (b, w) :: Memory.put m a v
    else if b = a then (a, v) :: m
    else (a, v) :: (b, w) :: m

/-- List nothing at `a`. -/
def Memory.drop (m : Memory) (a : Nat) : Memory :=
  m.filter (fun c => c.1 ≠ a)

/-- Write `v` at `a` where an unlisted address below `zeroBelow` reads as 0: a 0 there is not listed. -/
def Memory.store (m : Memory) (zeroBelow a : Nat) (v : Byte) : Memory :=
  if a < zeroBelow ∧ v = 0 then Memory.drop m a else Memory.put m a v

/-- Write the four bytes of `v` from `a` on, least significant first (rules R13, R55). -/
def Memory.store4 (m : Memory) (zeroBelow a : Nat) (v : Word32) : Memory :=
  (((m.store zeroBelow a (v.extractLsb' 0 8)).store zeroBelow (a + 1) (v.extractLsb' 8 8)).store zeroBelow (a + 2)
    (v.extractLsb' 16 8)).store zeroBelow (a + 3) (v.extractLsb' 24 8)

/-- Addresses strictly rising from `lo`, all below `size`, and no 0 listed below `zeroBelow`. -/
def Memory.wfFrom (size zeroBelow : Nat) : Nat → Memory → Bool
  | _, [] => true
  | lo, (a, v) :: m =>
    decide (lo ≤ a) && decide (a < size) && !(decide (a < zeroBelow) && v == 0) &&
      Memory.wfFrom size zeroBelow (a + 1) m

/-- The canonical form of a memory of `size` bytes. -/
def Memory.wf (size zeroBelow : Nat) (m : Memory) : Bool :=
  Memory.wfFrom size zeroBelow 0 m

/-- The canonical memory that holds `bytes` from address `a` on. -/
def Memory.ofBytes (zeroBelow : Nat) : Nat → List Byte → Memory
  | _, [] => []
  | a, v :: bs =>
    if a < zeroBelow ∧ v = 0 then Memory.ofBytes zeroBelow (a + 1) bs
    else (a, v) :: Memory.ofBytes zeroBelow (a + 1) bs

/-- The cells at addresses below `n`. -/
def Memory.below (m : Memory) (n : Nat) : Memory :=
  m.filter (fun c => c.1 < n)

/-- Is the image in canonical form? -/
def State.imgWf (s : State) : Bool :=
  s.img.wf imageSize imageSize

/-- Is DeviceRAM in canonical form? -/
def State.ramWf (s : State) : Bool :=
  s.ram.wf ramSize s.ramFreeFrom

/-! CartridgeImage (rules R22, R51). -/

/-- `MemRead(Img, i, 1)`. -/
def State.imgByte (s : State) (i : Nat) : Byte :=
  (s.img.find i).getD 0

/-- `MemWrite(Img, i, 1, v)`. -/
def State.imgWrite (s : State) (i : Nat) (v : Byte) : State :=
  { s with img := s.img.store imageSize i v }

/-- The image index of window offset `a` in the current bank (rules R24, R51). -/
def State.romIndex (s : State) (a : Nat) : Nat :=
  bankBase + s.bank.val * bankSize + a

/-- `rom(a)`: the byte of the current bank at window offset `a` (41_cartridge_window.md). -/
def State.rom (s : State) (a : Offset) : Byte :=
  s.imgByte (s.romIndex a.toNat)

/-! DeviceRAM (rules R23, R52), little-endian (rule R55). -/

/-- What an unlisted byte of DeviceRAM reads as. -/
def State.ramUnlisted (s : State) (i : Nat) : Byte :=
  if i < s.ramFreeFrom then 0 else Config.freeCell s.ramEpoch i

/-- `MemRead(Ram, i, 1)`. -/
def State.ramByte (s : State) (i : Nat) : Byte :=
  (s.ram.find i).getD (s.ramUnlisted i)

/-- `MemWrite(Ram, i, 1, v)`. -/
def State.ramWrite (s : State) (i : Nat) (v : Byte) : State :=
  { s with ram := s.ram.store s.ramFreeFrom i v }

/-- `MemRead(Ram, i, 2)`. -/
def State.ramRead2 (s : State) (i : Nat) : BitVec 16 :=
  s.ramByte (i + 1) ++ s.ramByte i

/-- `MemRead(Ram, i, 4)`. -/
def State.ramRead4 (s : State) (i : Nat) : Word32 :=
  s.ramByte (i + 3) ++ s.ramByte (i + 2) ++ s.ramByte (i + 1) ++ s.ramByte i

/-- `MemWrite(Ram, i, 4, v)`. -/
def State.ramWrite4 (s : State) (i : Nat) (v : Word32) : State :=
  { s with ram := s.ram.store4 s.ramFreeFrom i v }

/-! Results, outputs and draws (rule R14). -/

/-- `return r`. -/
def State.ret (s : State) (r : OpResult) : State :=
  { s with result := r }

/-- Put something out. -/
def State.emit (s : State) (o : Output) : State :=
  { s with out := o :: s.out }

/-- Advance the draw counter by `n`. -/
def State.drew (s : State) (n : Nat) : State :=
  { s with draws := s.draws + n }

/-! Audio channels by number (rule R31). -/

/-- Channel `c`. -/
def State.channel (s : State) (c : Fin 3) : Channel :=
  if c = 0 then s.ch0 else if c = 1 then s.ch1 else s.ch2

/-- Set channel `c`. -/
def State.setChannel (s : State) (c : Fin 3) (x : Channel) : State :=
  { s with
    ch0 := if c = 0 then x else s.ch0
    ch1 := if c = 1 then x else s.ch1
    ch2 := if c = 2 then x else s.ch2 }

/-! The bank-switch operation (44_control.md rule R190). -/

/-- `bank(n)`: whether the switch took effect. -/
def State.bankTakes (s : State) : Bool :=
  !s.locked

/-- `bank(n)`: the state after it. -/
def State.bankSwitch (s : State) (n : Fin 7) : State :=
  { s with
    bank := if s.locked then s.bank else n
    bankChanged := if s.locked then s.bankChanged else true }

/-! Cycle deltas (43_audio.md rule R167, 44_control.md rule R185). -/

/-- `hostCycles - stamp` where it is not negative and below 2^31. -/
def cycleDelta (hostCycles stamp : Nat) : Option Nat :=
  if stamp ≤ hostCycles ∧ hostCycles - stamp < cycleDeltaLimit then some (hostCycles - stamp) else none

/-! Coprocessor faults (44_control.md rule R187, 60_exceptions.md rules R211 and R216). -/

/-- `HandleCoprocFault(msg)`: the event unless the host is probing; nothing else changes. -/
def State.handleCoprocFault (s : State) (msg : String) : State :=
  { s with out := if s.input.probe then s.out else .fatalCoprocessorFault msg :: s.out }

end Sys2Proof.Machine
end

