-- ==== Sys2Proof/Machine/Flags.lean ====
section
/-! DEFINITION. The two flags of the mode byte (10_state.md rule R25, 30_encoding.md rule R74). The device
has no condition codes. -/

namespace Sys2Proof.Machine

/-- Is a nibble of the mode byte on, under the polarity `MODE_ZERO_IS_ON`? -/
def nibbleOn (zeroIsOn : Bool) (n : BitVec 4) : Bool :=
  if zeroIsOn then n == 0 else n != 0

/-- `busStuffOn`, from `st.mode[3:0]`. -/
def State.busStuffOn (s : State) : Bool :=
  nibbleOn s.cfg.modeZeroIsOn (s.mode.extractLsb' 0 4)

/-- `digitalOn`, from `st.mode[7:4]`. -/
def State.digitalOn (s : State) : Bool :=
  nibbleOn s.cfg.modeZeroIsOn (s.mode.extractLsb' 4 4)

end Sys2Proof.Machine
end

