-- ==== Sys2Proof/Machine/Operands.lean ====
section
/-! DEFINITION. The RAM-resident registers (10_state.md rules R35 to R39): fields of DeviceRAM that the
DatastreamEngine and the AudioSynthesizer read at every use. -/

namespace Sys2Proof.Machine

/-- The offset of pointer slot `k`. -/
def State.ptrAt (s : State) (k : Nat) : Nat := s.cfg.ptrOff + 4 * k
/-- The offset of increment slot `k`. -/
def State.incAt (s : State) (k : Nat) : Nat := s.cfg.incOff + 4 * k
/-- The offset of address-map slot `m`. -/
def State.mapAt (s : State) (m : Nat) : Nat := s.cfg.mapOff + 4 * m
/-- The offset of waveform-base slot `c`. -/
def State.waveAt (s : State) (c : Nat) : Nat := s.cfg.waveOff + 4 * c

/-- `ptr(k)` (rule R35). -/
def State.ptr (s : State) (k : Nat) : Word32 := s.ramRead4 (s.ptrAt k)
/-- `setptr(k, v)` (rule R35). -/
def State.setPtr (s : State) (k : Nat) (v : Word32) : State := s.ramWrite4 (s.ptrAt k) v
/-- `inc(k)` (rule R36): the low two bytes of the slot. -/
def State.inc (s : State) (k : Nat) : BitVec 16 := s.ramRead2 (s.incAt k)
/-- `map(m)` (rule R37). -/
def State.map (s : State) (m : Nat) : Word32 := s.ramRead4 (s.mapAt m)
/-- `setmap(m, v)` (rule R37). -/
def State.setMap (s : State) (m : Nat) (v : Word32) : State := s.ramWrite4 (s.mapAt m) v
/-- `wave(c)` (rule R38). -/
def State.wave (s : State) (c : Nat) : Word32 := s.ramRead4 (s.waveAt c)

/-- `wbase(c)`: the display offset that `wave(c)` encodes, 0 where it is out of range (rule R38). -/
def State.wbase (s : State) (c : Nat) : Nat :=
  let w := (s.wave c - waveEncodingOffset).toNat
  if w < 4096 then w else 0

/-- `sampleBase` (rule R39). -/
def State.sampleBase (s : State) : Word32 := s.wave 0

/-- `ptr.int` (rule R35). -/
def ptrInt (p : Word32) : BitVec 12 := p.extractLsb' 20 12

/-- The offset in DeviceRAM of the display byte under pointer `p` (rules R35, R53). -/
def displayAt (p : Word32) : Nat := displayBase + (ptrInt p).toNat

/-- One whole byte in pointer units (rules R143, R145). -/
def oneByte : Word32 := 0x00100000

/-- An increment as it is added to a pointer: `zext_32(inc) << 12` (rule R36). -/
def incStep (i : BitVec 16) : Word32 := i.setWidth 32 <<< 12

end Sys2Proof.Machine
end

