-- ==== Sys2Proof/Machine/Streams.lean ====
section
/-! DEFINITION. The DatastreamEngine's primitives (42_datastream.md rules R140 to R153). -/

namespace Sys2Proof.Machine

/-- The byte under pointer `k`. -/
def State.streamByte (s : State) (k : Nat) : Byte :=
  s.ramByte (displayAt (s.ptr k))

/-- `DSReadStream(k)` after its byte is read: the pointer advances by the stream's increment (rule R140). -/
def State.streamAdvance (s : State) (k : Nat) : State :=
  s.setPtr k (s.ptr k + incStep (s.inc k))

/-- `JumpStreamRead()` after its byte is read: the pointer advances by one whole byte (rule R145). -/
def State.jumpStreamAdvance (s : State) : State :=
  s.setPtr jumpStream (s.ptr jumpStream + oneByte)

/-- `DSWrite(D)` (rule R143). -/
def State.dsWrite (s : State) (d : Byte) : State :=
  (s.ramWrite (displayAt (s.ptr commStream)) d).setPtr commStream (s.ptr commStream + oneByte)

/-- The pointer that a DSPTR write of `d` makes of `p` (rule R144). -/
def dsPtrMerge (p : Word32) (d : Byte) : Word32 :=
  ((p <<< 8) &&& 0xF0000000) ||| (d.setWidth 32 <<< 20)

/-- `DSPtr(D)` (rule R144). -/
def State.dsPtr (s : State) (d : Byte) : State :=
  s.setPtr commStream (dsPtrMerge (s.ptr commStream) d)

/-- The address-map rotation `rotr_32(word, 4)` (rule R151). -/
def rotateMap (w : Word32) : Word32 :=
  (w >>> 4) ||| (w <<< 28)

/-- The low seven bits of an overdrive target: its address-map slot. -/
def targetSlot (t : Byte) : Nat :=
  (t.extractLsb' 0 7).toNat

/-- The target of the overdrive that a peripheral-space write at `addr` meets, if it meets one (rule R150). -/
def State.overdriveHit (s : State) (addr : Addr) : Option Byte :=
  match s.odTarget with
  | some t => if addr = t.setWidth 16 ∧ targetSlot t ≤ overdriveMapLimit then some t else none
  | none => none

/-- The stream that the address map designates for target `t`: its low nibble (rules R37, R150). -/
def State.overdriveStream (s : State) (t : Byte) : Nat :=
  ((s.map (targetSlot t)).extractLsb' 0 4).toNat

/-- How an overdrive byte `b` meets the written byte `d` (rule R152). -/
def overdriveCombine (how : OverdriveCombine) (d b : Byte) : Byte :=
  match how with
  | .replace => b
  | .and => d &&& b

/-- `Overdrive(addr, D)`: the byte that goes on to the peripheral space (rule R150). -/
def State.overdriveByte (s : State) (addr : Addr) (d : Byte) : Byte :=
  match s.overdriveHit addr with
  | some t => overdriveCombine s.cfg.overdriveCombine d (s.streamByte (s.overdriveStream t))
  | none => d

/-- `Overdrive(addr, D)`: the state after it. The stream is read, then the map rotated, and the capture
is consumed, matched or not (rules R150, R153). -/
def State.overdriveState (s : State) (addr : Addr) : State :=
  match s.overdriveHit addr with
  | some t =>
    { (s.streamAdvance (s.overdriveStream t)).setMap (targetSlot t) (rotateMap (s.map (targetSlot t))) with
      odTarget := none }
  | none => { s with odTarget := none }

end Sys2Proof.Machine
end

