-- ==== Sys2Proof/Machine/Pipeline.lean ====
section
/-! DEFINITION. The read and the write pipeline of the cartridge window (41_cartridge_window.md rules R110 to
R120, R125 to R127). The hotspot effect of stage 5 is an argument; each instruction supplies its own. -/

namespace Sys2Proof.Machine

/-- Window offset `a + 1`, not reduced to 12 bits: it can be 0x1000 (rule R28). -/
def nextOffset (a : Offset) : BitVec 13 :=
  a.setWidth 13 + 1

/-- `look(k)`: an image byte of the current bank, or the `j`-th draw where the image has ended (rules R114, R127). -/
def State.look (s : State) (k j : Nat) : Byte :=
  if s.romIndex k < imageSize then s.imgByte (s.romIndex k) else Config.freeByte (s.draws + j)

/-- The condition under which stage 2 looks ahead. -/
def State.looksAhead (s : State) (a : Offset) : Bool :=
  s.busStuffOn && s.rom a == 0x4C

/-- Stage 2's condition: `JMP $0000` at `a` with bus-stuff on (rule R114). -/
def State.arms (s : State) (a : Offset) : Bool :=
  s.looksAhead a && s.look (a.toNat + 1) 0 == 0 && s.look (a.toNat + 2) 1 == 0

/-- The draws that stage 2's lookahead has used up. -/
def State.afterLook (s : State) (a : Offset) : State :=
  s.drew (if s.looksAhead a && decide (imageSize ≤ s.romIndex (a.toNat + 2)) then 2 else 0)

/-- Is an armed intercept expected at `a` (stage 1, rule R113)? -/
def State.intercepts (s : State) (a : Offset) : Bool :=
  decide (s.jmpCount ≠ 0) && s.jmpAddr == some (a.setWidth 13)

/-- The intercept after one more operand byte has been served (rule R113). -/
def State.countServed (s : State) (a : Offset) : State :=
  { s with
    jmpCount := if s.jmpCount = 2 then 1 else 0
    jmpAddr := if s.jmpCount = 2 then some (nextOffset a) else none }

/-- `ServeJump(a)` (rule R113). -/
def State.serveJump (s : State) (a : Offset) : State :=
  ((s.countServed a).jumpStreamAdvance).ret (.byte (s.streamByte jumpStream))

/-- Stage 2's effect: the intercept is armed (rule R114). -/
def State.armJump (s : State) (a : Offset) : State :=
  { s with jmpCount := 2, jmpAddr := some (nextOffset a) }

/-- Stage 3 (rule R115). -/
def State.disarm (s : State) : State :=
  { s with jmpAddr := none, jmpCount := 0 }

/-- Stage 4 (rule R116). -/
def State.latch (s : State) (a : Offset) : State :=
  { s with
    odTarget := if s.busStuffOn && s.styAddr == some (a.setWidth 13) then some (s.rom a) else s.odTarget
    styAddr := none }

/-- Stage 6 for returned byte `v` (rule R118). -/
def State.capture (s : State) (a : Offset) (v : Byte) : State :=
  { s with styAddr := if s.busStuffOn && v == 0x84 then some (nextOffset a) else s.styAddr }

/-- What stages 0 to 4 come to: the read has ended, or it goes on to stage 5. -/
inductive ReadFront where
  | ended (s : State)
  | goesOn (s : State)
  deriving DecidableEq, Repr

/-- Stages 0 to 4 of a read at `a` (rules R110, R112 to R116). -/
def readFront (a : Offset) (s : State) : ReadFront :=
  if s.locked then .ended (s.ret (.byte (s.rom a)))
  else if s.intercepts a then .ended (s.serveJump a)
  else if s.arms a then .ended (((s.afterLook a).armJump a).ret (.byte (s.rom a)))
  else .goesOn ((s.afterLook a).disarm.latch a)

/-- A read at `a`: stage 5 gives the byte `v` and the state `u`, and stage 6 sees `v` (rule R110). -/
def cartRead (a : Offset) (v : State → Byte) (u : State → State) (s : State) : OpOutcome :=
  match readFront a s with
  | .ended t => .next t
  | .goesOn t => .next (((u t).capture a (v t)).ret (.byte (v t)))

/-- A read whose stage 5 has no effect and gives the ROM byte (rules R111, R119). -/
def cartReadRom (a : Offset) (s : State) : OpOutcome :=
  cartRead a (fun t => t.rom a) (fun t => t) s

/-- A read of the hotspot of bank `n`: it gives the byte of the bank before the switch (rule R117). -/
def cartReadBank (a : Offset) (n : Fin 7) (s : State) : OpOutcome :=
  cartRead a (fun t => t.rom a) (fun t => t.bankSwitch n) s

/-- The capture as a window write leaves it (rule R120). -/
def State.consumeCapture (s : State) : State :=
  { s with
    odTarget := match s.cfg.overdriveScope with
      | .allPokes => none
      | .lowPokes => s.odTarget }

/-- A window write without effect but on the capture (rules R121 to R123). -/
def cartWriteNop (s : State) : OpOutcome :=
  .next (s.consumeCapture.ret (.flag false))

/-- A write of the hotspot of bank `n` (rule R124). -/
def cartWriteBank (n : Fin 7) (s : State) : OpOutcome :=
  .next ((s.consumeCapture.bankSwitch n).ret (.flag s.bankTakes))

end Sys2Proof.Machine
end

