-- ==== Sys2Proof/Machine/Audio.lean ====
section
/-! DEFINITION. The AudioSynthesizer (43_audio.md rules R160 to R167). -/

namespace Sys2Proof.Machine

/-- `whole`: the whole audio clocks that `delta` host cycles bring (rule R161). -/
def State.wholeClocks (s : State) (delta : Nat) : Int :=
  (audioClocks delta s.carry).floor

/-- `ClockUpdate` after its delta is known (rule R161). -/
def State.clockUpdate (s : State) (delta : Nat) : State :=
  { s with
    audioCycles := s.input.hostCycles
    carry := sub64 (audioClocks delta s.carry) (round64 (s.wholeClocks delta : Rat)) }

/-- One channel's advance by `whole` audio clocks (rule R162). -/
def Channel.advance (x : Channel) (whole : Int) : Channel :=
  { x with counter := if 0 < whole then x.counter + BitVec.ofInt 32 (x.freq.toNat * whole) else x.counter }

/-- `AdvanceCounters(whole)` (rule R162). -/
def State.advanceCounters (s : State) (whole : Int) : State :=
  { s with ch0 := s.ch0.advance whole, ch1 := s.ch1.advance whole, ch2 := s.ch2.advance whole }

/-- The audio update of an amplitude read (rules R160 to R162). -/
def State.audioUpdate (s : State) (delta : Nat) : State :=
  (s.clockUpdate delta).advanceCounters (s.wholeClocks delta)

/-- The waveform byte of channel `c`, where the spec defines one (rules R163, R166). -/
def State.voiceByte (s : State) (c : Fin 3) : Option Byte :=
  let x := s.channel c
  let i := displayBase + s.wbase c.val + (x.counter.toNat >>> x.wshift.toNat)
  if 32 ≤ x.wshift.toNat ∨ ramSize ≤ i then none else some (s.ramByte i)

/-- `VoiceAmp()` where the spec defines it: the sum of the three waveform bytes mod 256 (rule R163). -/
def State.voiceAmp (s : State) : Option Byte :=
  match s.voiceByte 0, s.voiceByte 1, s.voiceByte 2 with
  | some x, some y, some z => some (x + y + z)
  | _, _, _ => none

/-- `CoprocRead8(x)` (rule R165). -/
def State.coprocRead8 (s : State) (x : Word32) : Byte :=
  if x.toNat < imageSize then s.imgByte x.toNat
  else if coprocRamBase ≤ x.toNat ∧ x.toNat < coprocRamBase + ramSize then s.ramByte (x.toNat - coprocRamBase)
  else 0

/-- `SampleAmp()` (rule R164). -/
def State.sampleAmp (s : State) : Byte :=
  let b := s.coprocRead8 (s.sampleBase + (s.ch0.counter >>> 21))
  if s.ch0.counter.getLsbD 20 then (b.extractLsb' 0 4).setWidth 8 else (b.extractLsb' 4 4).setWidth 8

/-- The amplitude of the state after its audio update; none where it is a draw (rules R160, R166). -/
def State.amplitude (s : State) : Option Byte :=
  if s.digitalOn then some s.sampleAmp else s.voiceAmp

/-- Return the amplitude, a free byte where the spec defines none (rule R166). -/
def State.retAmplitude (s : State) : State :=
  (s.drew (if s.amplitude.isSome then 0 else 1)).ret (.byte (s.amplitude.getD (Config.freeByte s.draws)))

/-- READ_AMPLITUDE: it skips stage 6 and may raise `CycleDelta` (rules R160, R167). -/
def execReadAmplitude (s : State) : OpOutcome :=
  match readFront 0xFEE s with
  | .ended t => .next t
  | .goesOn t =>
    match cycleDelta t.input.hostCycles t.audioCycles with
    | some delta => .next (t.audioUpdate delta).retAmplitude
    | none => .fault .cycleDelta

end Sys2Proof.Machine
end

