-- ==== Sys2Proof/Machine/Callbacks.lean ====
section
/-! DEFINITION. The four callbacks of the CoprocessorBridge (43_audio.md rules R170 to R175), admitted only
while a coprocessor run is in progress (60_exceptions.md rules R213, R216). -/

namespace Sys2Proof.Machine

/-- A callback on channel index `channel`: refused outside a run, a fault from index 3 on (rule R174);
otherwise `f` gives the state, and `w` the result that goes back to the bridge. -/
def callback (channel : Word32) (s : State) (f : Fin 3 → State) (w : Fin 3 → Option Word32) : OpOutcome :=
  if s.inRun then
    if h : channel.toNat < 3 then
      .next (((f ⟨channel.toNat, h⟩).emit (.callbackReturn (w ⟨channel.toNat, h⟩))).ret
        (.word (w ⟨channel.toNat, h⟩)))
    else .fault .badChannelIndex
  else .refused .callbackOutsideRun

/-- CB_SET_FREQ (rule R170). -/
def execCbSetFreq (channel value : Word32) (s : State) : OpOutcome :=
  callback channel s (fun c => s.setChannel c { s.channel c with freq := value }) (fun _ => none)

/-- CB_RESET_COUNTER (rule R171): the value is ignored. -/
def execCbResetCounter (channel _value : Word32) (s : State) : OpOutcome :=
  callback channel s (fun c => s.setChannel c { s.channel c with counter := 0 }) (fun _ => none)

/-- CB_GET_COUNTER (rule R172): the value is ignored. -/
def execCbGetCounter (channel _value : Word32) (s : State) : OpOutcome :=
  callback channel s (fun _ => s) (fun c => some (s.channel c).counter)

/-- CB_SET_WSHIFT (rule R173): the low 8 bits of the value. -/
def execCbSetWshift (channel value : Word32) (s : State) : OpOutcome :=
  callback channel s (fun c => s.setChannel c { s.channel c with wshift := value.setWidth 8 }) (fun _ => none)

end Sys2Proof.Machine
end

