-- ==== Sys2Proof/Machine/Control.lean ====
section
/-! DEFINITION. The mode hotspot and the coprocessor call (44_control.md rules R180 to R188). -/

namespace Sys2Proof.Machine

/-- WRITE_SETMODE (rule R180). -/
def execWriteSetmode (d : Byte) (s : State) : OpOutcome :=
  .next ({ s.consumeCapture with mode := d }.ret (.flag false))

/-- `RUN_SELECTORS` (rules R75, R181). -/
def isRunSelector (d : Byte) : Bool :=
  d == 0xFE || d == 0xFF

/-- A callback made by the bridge: the callback `fn` numbers, or none (rules R72, R80). -/
def bridgeCall (fn : Byte) (channel value : Word32) (s : State) : OpOutcome :=
  if fn = 0 then execCbSetFreq channel value s
  else if fn = 1 then execCbResetCounter channel value s
  else if fn = 2 then execCbGetCounter channel value s
  else if fn = 3 then execCbSetWshift channel value s
  else .refused .unknownCallback

/-- One action of the bridge (rule R186). -/
def bridgeAct (x : BridgeAction) (s : State) : OpOutcome :=
  match x with
  | .ramWrite i v => .next (s.ramWrite i.toNat v)
  | .call fn channel value => bridgeCall fn channel value s

/-- The bridge's actions in order; the first that faults or is refused ends the run (rules R186, R212). -/
def bridgeRun : List BridgeAction → State → OpOutcome
  | [], s => .next s
  | x :: xs, s =>
    match bridgeAct x s with
    | .next t => bridgeRun xs t
    | .fault r => .fault r
    | .refused r => .refused r

/-- The state as the bridge finds it: the stamp is set before the bridge runs (rule R185). -/
def State.enterRun (s : State) (cycles : Nat) : State :=
  { s.emit (.bridgeRun cycles) with armCycles := s.input.hostCycles, inRun := true }

/-- The run has returned; a fault of the bridge is handled (rules R185, R187). -/
def State.leaveRun (s : State) : State :=
  match s.input.bridge.fault with
  | some msg => { s with inRun := false }.handleCoprocFault msg
  | none => { s with inRun := false }

/-- `RunCoprocessor()` and the poke's result (rules R181, R185). -/
def runCoprocessor (s : State) : OpOutcome :=
  match cycleDelta s.input.hostCycles s.armCycles with
  | none => .fault .cycleDelta
  | some cycles =>
    match bridgeRun s.input.bridge.actions (s.enterRun cycles) with
    | .next t => .next (t.leaveRun.ret (.flag false))
    | .fault r => .fault r
    | .refused r => .refused r

/-- WRITE_CALLFN (rules R181, R182, R188). -/
def execWriteCallfn (d : Byte) (s : State) : OpOutcome :=
  if isRunSelector d then runCoprocessor s.consumeCapture
  else .next (s.consumeCapture.ret (.flag false))

end Sys2Proof.Machine
end

