-- ==== Sys2Proof/Machine/Datastream.lean ====
section
/-! DEFINITION. The COMMSTREAM hotspots (42_datastream.md rules R142 to R144). -/

namespace Sys2Proof.Machine

/-- READ_DSREAD: a byte of stream 16 (rule R142). -/
def execReadDsread (s : State) : OpOutcome :=
  cartRead 0xFEF (fun t => t.streamByte commStream) (fun t => t.streamAdvance commStream) s

/-- WRITE_DSWRITE (rule R143). -/
def execWriteDswrite (d : Byte) (s : State) : OpOutcome :=
  .next ((s.consumeCapture.dsWrite d).ret (.flag false))

/-- WRITE_DSPTR (rule R144). -/
def execWriteDsptr (d : Byte) (s : State) : OpOutcome :=
  .next ((s.consumeCapture.dsPtr d).ret (.flag false))

end Sys2Proof.Machine
end

