-- ==== Sys2Proof/Machine/Peripheral.lean ====
section
/-! DEFINITION. The accesses of the peripheral space (40_address_decoder.md rules R101 to R104, R107). -/

namespace Sys2Proof.Machine

/-- READ_PERIPH_A (rule R101). -/
def execReadPeriphA (addr : Addr) (s : State) : OpOutcome :=
  .next ((s.emit (.periphRead .a addr)).ret (.byte s.input.periphA))

/-- READ_PERIPH_B (rule R102). -/
def execReadPeriphB (addr : Addr) (s : State) : OpOutcome :=
  .next ((s.emit (.periphRead .b addr)).ret (.byte s.input.periphB))

/-- READ_LOW_NONE: no peripheral drives the bus, the byte is free (rule R103). -/
def execReadLowNone (_addr : Addr) (s : State) : OpOutcome :=
  .next ((s.drew 1).ret (.byte (Config.freeByte s.draws)))

/-- A write routed to peripheral `p`: the overdrive, then the byte goes on (rule R104). -/
def writePeriph (p : Periph) (addr : Addr) (d : Byte) (s : State) : OpOutcome :=
  .next (((s.overdriveState addr).emit (.periphWrite p addr (s.overdriveByte addr d))).ret (.flag false))

/-- WRITE_PERIPH_A (rule R104). -/
def execWritePeriphA (addr : Addr) (d : Byte) (s : State) : OpOutcome :=
  writePeriph .a addr d s

/-- WRITE_PERIPH_B (rule R104). -/
def execWritePeriphB (addr : Addr) (d : Byte) (s : State) : OpOutcome :=
  writePeriph .b addr d s

/-- WRITE_LOW_NONE: the overdrive runs and the byte is dropped (rule R104). -/
def execWriteLowNone (addr : Addr) (_d : Byte) (s : State) : OpOutcome :=
  .next ((s.overdriveState addr).ret (.flag false))

end Sys2Proof.Machine
end

