-- ==== Sys2Proof/Machine/Serial.lean ====
section
/-! DEFINITION. The snapshot and its bytes (44_control.md rules R194 and R195): the fields in the spec's order, each
primitive in the encoding of the configuration's serializer. -/

namespace Sys2Proof.Machine

/-- The fourteen fields of a snapshot, in the order and with the widths of 44_control.md rule R195. -/
structure Snapshot where
  /-- 1, name tag. -/
  name : String
  /-- 2, current bank, u16. -/
  bank : BitVec 16
  /-- 3, device RAM, 8192 bytes in offset order. -/
  ram : List Byte
  /-- 4, overdrive address, u16; 0xFFFF is `none`. -/
  od : BitVec 16
  /-- 5, shadow address, u16; 0 is `none`. -/
  sty : BitVec 16
  /-- 6, jump-intercept address, u16; 0 is `none`. -/
  jmp : BitVec 16
  /-- 7, host cycle counter, u64. -/
  audioCycles : BitVec 64
  /-- 8, audio carry in fixed point, u32. -/
  carry : Word32
  /-- 9, coprocessor cycle counter, u64. -/
  armCycles : BitVec 64
  /-- 10, channel counters, 3 × u32. -/
  counter0 : Word32
  counter1 : Word32
  counter2 : Word32
  /-- 11, channel frequencies, 3 × u32. -/
  freq0 : Word32
  freq1 : Word32
  freq2 : Word32
  /-- 12, waveform-size shifts, 3 × u8. -/
  wshift0 : Byte
  wshift1 : Byte
  wshift2 : Byte
  /-- 13, mode byte, u8. -/
  mode : Byte
  /-- 14, jump-intercept remaining count, u8. -/
  jmpCount : Byte
  deriving DecidableEq, Repr

/-- The bytes of a snapshot: its fields in order (rule R195). -/
def encodeSnapshot (z : Serializer) (f : Snapshot) : List Byte :=
  z.str.write f.name ++ (z.u16.write f.bank ++ (f.ram.flatMap z.u8.write ++ (z.u16.write f.od ++ (
  z.u16.write f.sty ++ (z.u16.write f.jmp ++ (z.u64.write f.audioCycles ++ (z.u32.write f.carry ++ (
  z.u64.write f.armCycles ++ (z.u32.write f.counter0 ++ (z.u32.write f.counter1 ++ (
  z.u32.write f.counter2 ++ (z.u32.write f.freq0 ++ (z.u32.write f.freq1 ++ (z.u32.write f.freq2 ++ (
  z.u8.write f.wshift0 ++ (z.u8.write f.wshift1 ++ (z.u8.write f.wshift2 ++ (z.u8.write f.mode ++ (
  z.u8.write f.jmpCount)))))))))))))))))))

/-- Read the fields of a snapshot in order, and what follows them. -/
def readSnapshot (z : Serializer) (bs : List Byte) : Option (Snapshot × List Byte) := do
  let (name, bs) ← z.str.read bs
  let (bank, bs) ← z.u16.read bs
  let (ram, bs) ← readTimes z.u8.read ramSize bs
  let (od, bs) ← z.u16.read bs
  let (sty, bs) ← z.u16.read bs
  let (jmp, bs) ← z.u16.read bs
  let (audioCycles, bs) ← z.u64.read bs
  let (carry, bs) ← z.u32.read bs
  let (armCycles, bs) ← z.u64.read bs
  let (counter0, bs) ← z.u32.read bs
  let (counter1, bs) ← z.u32.read bs
  let (counter2, bs) ← z.u32.read bs
  let (freq0, bs) ← z.u32.read bs
  let (freq1, bs) ← z.u32.read bs
  let (freq2, bs) ← z.u32.read bs
  let (wshift0, bs) ← z.u8.read bs
  let (wshift1, bs) ← z.u8.read bs
  let (wshift2, bs) ← z.u8.read bs
  let (mode, bs) ← z.u8.read bs
  let (jmpCount, bs) ← z.u8.read bs
  some (⟨name, bank, ram, od, sty, jmp, audioCycles, carry, armCycles, counter0, counter1, counter2,
    freq0, freq1, freq2, wshift0, wshift1, wshift2, mode, jmpCount⟩, bs)

/-- Does the name tag, the first field, read as another name than `name`? It is looked at before the rest, which need not
decode (rule R194, "checked first"; 60_exceptions.md rule R210 rows 4 and 6; notes/assumptions/16.md). -/
def readsOtherName (z : Serializer) (name : String) (bs : List Byte) : Bool :=
  match z.str.read bs with
  | some (read, _) => read != name
  | none => false

/-- `SERIALIZER.decode` (rule R194): the bytes of a snapshot and no more. Bytes that run out before field 14, or
go on after it, are undecodable: notes/assumptions/16.md. -/
def decodeSnapshot (z : Serializer) (bs : List Byte) : Option Snapshot :=
  match readSnapshot z bs with
  | some (f, []) => some f
  | _ => none

end Sys2Proof.Machine
end

