-- ==== Sys2Proof/Machine/Port.lean ====
section
/-! DEFINITION. The host and debug port (44_control.md rules R190 to R199), reset and creation
(70_reset_and_hazards.md rules R230 to R232). -/

namespace Sys2Proof.Machine

/-- PORT_BANK (rules R190, R191). -/
def execPortBank (n : Nat) (s : State) : OpOutcome :=
  if h : n < 7 then .next ((s.bankSwitch ⟨n, h⟩).ret (.flag s.bankTakes))
  else .refused .bankOutOfRange

/-- PORT_PATCH (rule R192). -/
def execPortPatch (addr : Addr) (v : Byte) (s : State) : OpOutcome :=
  if s.locked ∨ (addr.setWidth 12).toNat < patchMinOffset then .next (s.ret (.flag false))
  else .next ({ s.imgWrite (s.romIndex (addr.setWidth 12).toNat) v with bankChanged := true }.ret (.flag true))

/-- PORT_LOCK (rule R196). -/
def execPortLock (s : State) : OpOutcome :=
  .next ({ s with locked := true }.ret .unit)

/-- PORT_UNLOCK (rule R196). -/
def execPortUnlock (s : State) : OpOutcome :=
  .next ({ s with locked := false }.ret .unit)

/-- PORT_QUERY_BANK_CHANGED (rule R197). -/
def execPortQueryBankChanged (s : State) : OpOutcome :=
  .next ({ s with bankChanged := false }.ret (.flag s.bankChanged))

/-- PORT_TIMING_CHANGED (rule R198). -/
def execPortTimingChanged (s : State) : OpOutcome :=
  .next (s.ret .unit)

/-! Snapshots (rules R193 to R195). -/

/-- The `n` bytes of DeviceRAM from offset `i` on. -/
def State.ramBytesFrom (s : State) : Nat → Nat → List Byte
  | 0, _ => []
  | n + 1, i => s.ramByte i :: State.ramBytesFrom s n (i + 1)

/-- DeviceRAM in offset order. -/
def State.ramBytes (s : State) : List Byte :=
  s.ramBytesFrom ramSize 0

/-- `trunc(st.carry *f toF64(CARRY_SCALE))`, where it fits the field's 32 bits. -/
def State.savedCarry (s : State) : Option Word32 :=
  match toF64Finite s.cfg.carryScale with
  | some scale =>
    let t := truncInt (mul64 s.carry scale)
    if 0 ≤ t ∧ t < 2 ^ 32 then some (BitVec.ofInt 32 t) else none
  | none => none

/-- The snapshot of the state, its field 8 given (rule R195). -/
def State.snapshot (s : State) (carry : Word32) : Snapshot where
  name := s.cfg.deviceName
  bank := BitVec.ofNat 16 s.bank.val
  ram := s.ramBytes
  od := match s.odTarget with
    | some t => t.setWidth 16
    | none => 0xFFFF
  sty := (s.styAddr.getD 0).setWidth 16
  jmp := (s.jmpAddr.getD 0).setWidth 16
  audioCycles := BitVec.ofNat 64 s.audioCycles
  carry := carry
  armCycles := BitVec.ofNat 64 s.armCycles
  counter0 := s.ch0.counter
  counter1 := s.ch1.counter
  counter2 := s.ch2.counter
  freq0 := s.ch0.freq
  freq1 := s.ch1.freq
  freq2 := s.ch2.freq
  wshift0 := s.ch0.wshift
  wshift1 := s.ch1.wshift
  wshift2 := s.ch2.wshift
  mode := s.mode
  jmpCount := BitVec.ofNat 8 s.jmpCount.val

/-- PORT_SAVE (rule R193). A carry that field 8 cannot hold is saved as a free word. -/
def execPortSave (s : State) : OpOutcome :=
  if 2 ^ 64 ≤ s.audioCycles ∨ 2 ^ 64 ≤ s.armCycles then .fault .cycleRange
  else .next ((s.drew (if s.savedCarry.isSome then 0 else 1)).ret
    (.snapshot (encodeSnapshot s.cfg.codecs (s.snapshot (s.savedCarry.getD (Config.freeWord s.draws))))))

/-- A free window offset in 1..0x1000 (rules R28, R29). -/
def freeOffset (n : Nat) : BitVec 13 :=
  BitVec.ofNat 13 (Config.freeNat n % 4096 + 1)

/-- `none` for 0, the offset otherwise (rule R194, fields 5 and 6). Only a field that ends at 0x1000 gets here. -/
def savedOffset (w : BitVec 16) : Option (BitVec 13) :=
  if w = 0 then none else some (w.setWidth 13)

/-- Are the fields in range: a bank in 0..6 and a count in 0..2, as rule R194 tests, and offsets of at most 0x1000, where
`st.styAddr` and `st.jmpAddr` end (rules R28, R29)? That an offset above it is decision D43's out-of-range body is
DEDUCED: notes/assumptions/9.md. -/
def Snapshot.inRange (f : Snapshot) : Bool :=
  decide (f.bank.toNat ≤ 6) && decide (f.jmpCount.toNat ≤ 2) &&
    decide (f.sty.toNat ≤ 0x1000) && decide (f.jmp.toNat ≤ 0x1000)

/-- The carry that field 8 restores: `toF64(f.carry) /f toF64(CARRY_SCALE)` (rule R194). -/
def loadedCarry (carryScale : Nat) (carry : Word32) : Rat :=
  match toF64Finite carryScale with
  | some scale => div64 (toF64 carry.toNat) scale
  | none => 0

/-- The intercept count that a snapshot restores: 0 where its address is `none` (rule R194). -/
def loadedCount (f : Snapshot) : Fin 3 :=
  if f.jmp = 0 then 0 else if f.jmpCount = 0 then 0 else if f.jmpCount = 1 then 1 else 2

/-- The state that the fields of a snapshot restore, its bank switched last (rule R194). -/
def State.restore (s : State) (f : Snapshot) (n : Fin 7) : State :=
  { s with
    ram := Memory.ofBytes driverCopySize 0 f.ram
    ramFreeFrom := driverCopySize
    odTarget := if f.od = 0xFFFF then none else some (f.od.setWidth 8)
    styAddr := savedOffset f.sty
    jmpAddr := if f.jmpCount = 0 then none else savedOffset f.jmp
    jmpCount := loadedCount f
    audioCycles := f.audioCycles.toNat
    armCycles := f.armCycles.toNat
    carry := loadedCarry s.cfg.carryScale f.carry
    ch0 := { counter := f.counter0, freq := f.freq0, wshift := f.wshift0 }
    ch1 := { counter := f.counter1, freq := f.freq1, wshift := f.wshift1 }
    ch2 := { counter := f.counter2, freq := f.freq2, wshift := f.wshift2 }
    mode := f.mode }.bankSwitch n

/-- A free finite binary64 value: any significand below 2^53 and any exponent from -1074 to 971, either sign. That a
drawn carry is finite, and in no narrower range, is the model's choice: DESIGN CHOICE, notes/assumptions/12.md.
Irreducible, so that no unification computes it. -/
@[irreducible]
def freeBinary64 (n : Nat) : Rat :=
  mkRat ((if Config.freeBool (n + 3) then -1 else 1) *
    ((Config.freeSignificand n).toNat * 2 ^ (Config.freeExponent n).val : Nat)) (2 ^ 1074)

/-- `st <- draw(State with st.Img, st.locked kept)` (rule R194): every other field of the spec's state is a
free value of its range, with the invariant of rule R28 (the ranges: DESIGN CHOICE, notes/assumptions/12.md). -/
def State.unspecified (s : State) : State :=
  { s with
    ram := []
    ramFreeFrom := 0
    ramEpoch := s.draws
    bank := Config.freeBank s.draws
    mode := Config.freeByte s.draws
    bankChanged := Config.freeBool s.draws
    jmpAddr := if Config.freeCount s.draws = 0 then none else some (freeOffset s.draws)
    jmpCount := Config.freeCount s.draws
    styAddr := if Config.freeBool (s.draws + 1) then some (freeOffset (s.draws + 1)) else none
    odTarget := if Config.freeBool (s.draws + 2) then some (Config.freeByte (s.draws + 1)) else none
    ch0 := { counter := Config.freeWord s.draws, freq := Config.freeWord (s.draws + 3),
             wshift := Config.freeByte (s.draws + 2) }
    ch1 := { counter := Config.freeWord (s.draws + 1), freq := Config.freeWord (s.draws + 4),
             wshift := Config.freeByte (s.draws + 3) }
    ch2 := { counter := Config.freeWord (s.draws + 2), freq := Config.freeWord (s.draws + 5),
             wshift := Config.freeByte (s.draws + 4) }
    audioCycles := Config.freeNat (s.draws + 2)
    carry := freeBinary64 s.draws
    armCycles := Config.freeNat (s.draws + 3)
    draws := s.draws + 6 }

/-- PORT_LOAD with the decoded fields of a snapshot of the device's name, unlocked: the ranges, then the fields (rule
R194). -/
def loadFields (f : Snapshot) (s : State) : OpOutcome :=
  if f.inRange then .next ((s.restore f (Fin.ofNat 7 f.bank.toNat)).ret (.flag true))
  else .next (s.unspecified.ret (.flag false))

/-- PORT_LOAD (rule R194): the lock, then the name, then the rest. That the name is looked at before the rest decodes
is the model's choice, where rules R194 and R215 differ from rule R210 and decision D43 (notes/assumptions/16.md). -/
def execPortLoad (snap : List Byte) (s : State) : OpOutcome :=
  if s.locked then .next (s.ret (.flag false))
  else if readsOtherName s.cfg.codecs s.cfg.deviceName snap then .next (s.ret (.flag false))
  else match decodeSnapshot s.cfg.codecs snap with
    | none => .next (s.unspecified.ret (.flag false))
    | some f => loadFields f s

/-! Reset and creation. -/

/-- A channel after the `c`-th reset draw: a free counter and frequency, the default shift (rule R230). -/
def resetChannel (n c : Nat) : Channel :=
  { counter := Config.freeWord (n + c), freq := Config.freeWord (n + 3 + c), wshift := wshiftDefault }

/-- The steps of `Reset()` on a device that is not locked (rule R230). -/
def State.resetDevice (s : State) : State :=
  { s with
    ram := s.img.below driverCopySize
    ramFreeFrom := driverCopySize
    ramEpoch := s.draws
    mode := modeReset
    jmpAddr := none
    jmpCount := 0
    styAddr := none
    odTarget := none
    ch0 := resetChannel s.draws 0
    ch1 := resetChannel s.draws 1
    ch2 := resetChannel s.draws 2
    audioCycles := s.input.hostCycles
    armCycles := s.input.hostCycles
    carry := 0
    draws := s.draws + 6 }.bankSwitch startBank

/-- PORT_RESET (rule R230). -/
def execPortReset (s : State) : OpOutcome :=
  if s.locked then .refused .resetWhileLocked else .next (s.resetDevice.ret .unit)

/-- Creation with a configuration and `IMAGE_INIT`, its inputs those of `i` (rule R231). A `CARRY_SCALE` of 0 is refused
with the bad layouts (the model's choice, notes/assumptions/19.md). -/
def create (c : Config) (image : List Byte) (i : Input) : OpOutcome :=
  if c.wf ∧ image.length = imageSize then
    .next { State.reset with
      cfg := c, img := Memory.ofBytes imageSize 0 image, locked := false, input := i, draws := 0 }.resetDevice
  else .refused .badLayout

end Sys2Proof.Machine
end

