-- ==== Sys2Proof/Machine/Window.lean ====
section
/-! DEFINITION. The window accesses without an engine behind them: ROM, the no-op accesses and the bank
hotspots (41_cartridge_window.md rules R111, R117, R119, R121 to R124). -/

namespace Sys2Proof.Machine

/-- READ_ROM (rule R111). -/
def execReadRom (a : Offset) (s : State) : OpOutcome := cartReadRom a s
/-- READ_WO_DSWRITE (rule R119). -/
def execReadWoDswrite (s : State) : OpOutcome := cartReadRom 0xFF0 s
/-- READ_WO_DSPTR (rule R119). -/
def execReadWoDsptr (s : State) : OpOutcome := cartReadRom 0xFF1 s
/-- READ_WO_SETMODE (rule R119). -/
def execReadWoSetmode (s : State) : OpOutcome := cartReadRom 0xFF2 s
/-- READ_WO_CALLFN (rule R119): the coprocessor does not run. -/
def execReadWoCallfn (s : State) : OpOutcome := cartReadRom 0xFF3 s
/-- READ_NOP_FF4 (rule R119). -/
def execReadNopFf4 (s : State) : OpOutcome := cartReadRom 0xFF4 s

/-- READ_BANK0 (rule R117). -/
def execReadBank0 (s : State) : OpOutcome := cartReadBank 0xFF5 0 s
/-- READ_BANK1 (rule R117). -/
def execReadBank1 (s : State) : OpOutcome := cartReadBank 0xFF6 1 s
/-- READ_BANK2 (rule R117). -/
def execReadBank2 (s : State) : OpOutcome := cartReadBank 0xFF7 2 s
/-- READ_BANK3 (rule R117). -/
def execReadBank3 (s : State) : OpOutcome := cartReadBank 0xFF8 3 s
/-- READ_BANK4 (rule R117). -/
def execReadBank4 (s : State) : OpOutcome := cartReadBank 0xFF9 4 s
/-- READ_BANK5 (rule R117). -/
def execReadBank5 (s : State) : OpOutcome := cartReadBank 0xFFA 5 s
/-- READ_BANK6 (rule R117). -/
def execReadBank6 (s : State) : OpOutcome := cartReadBank 0xFFB 6 s

/-- WRITE_ROM: the image is immutable (rule R121). -/
def execWriteRom (_a : Offset) (_d : Byte) (s : State) : OpOutcome := cartWriteNop s
/-- WRITE_RO_AMPLITUDE (rule R122). -/
def execWriteRoAmplitude (_d : Byte) (s : State) : OpOutcome := cartWriteNop s
/-- WRITE_RO_DSREAD (rule R122). -/
def execWriteRoDsread (_d : Byte) (s : State) : OpOutcome := cartWriteNop s
/-- WRITE_NOP_FF4 (rule R123). -/
def execWriteNopFf4 (_d : Byte) (s : State) : OpOutcome := cartWriteNop s

/-- WRITE_BANK0 (rule R124). -/
def execWriteBank0 (_d : Byte) (s : State) : OpOutcome := cartWriteBank 0 s
/-- WRITE_BANK1 (rule R124). -/
def execWriteBank1 (_d : Byte) (s : State) : OpOutcome := cartWriteBank 1 s
/-- WRITE_BANK2 (rule R124). -/
def execWriteBank2 (_d : Byte) (s : State) : OpOutcome := cartWriteBank 2 s
/-- WRITE_BANK3 (rule R124). -/
def execWriteBank3 (_d : Byte) (s : State) : OpOutcome := cartWriteBank 3 s
/-- WRITE_BANK4 (rule R124). -/
def execWriteBank4 (_d : Byte) (s : State) : OpOutcome := cartWriteBank 4 s
/-- WRITE_BANK5 (rule R124). -/
def execWriteBank5 (_d : Byte) (s : State) : OpOutcome := cartWriteBank 5 s
/-- WRITE_BANK6 (rule R124). -/
def execWriteBank6 (_d : Byte) (s : State) : OpOutcome := cartWriteBank 6 s

end Sys2Proof.Machine
end

