-- ==== Sys2Proof/Machine/Dispatch.lean ====
section
/-! DEFINITION. The dispatch of an operation to its meaning, one arm per constructor of Instr. -/

namespace Sys2Proof.Machine

/-- The meaning of an operation. -/
def exec (i : Instr) (s : State) : Host.Outcome State Fault Refusal :=
  match i with
  | .readPeriphA addr => Sys2Proof.Machine.execReadPeriphA addr s
  | .writePeriphA addr d => Sys2Proof.Machine.execWritePeriphA addr d s
  | .readPeriphB addr => Sys2Proof.Machine.execReadPeriphB addr s
  | .writePeriphB addr d => Sys2Proof.Machine.execWritePeriphB addr d s
  | .readLowNone addr => Sys2Proof.Machine.execReadLowNone addr s
  | .writeLowNone addr d => Sys2Proof.Machine.execWriteLowNone addr d s
  | .readAmplitude => Sys2Proof.Machine.execReadAmplitude s
  | .writeRoAmplitude d => Sys2Proof.Machine.execWriteRoAmplitude d s
  | .readDsread => Sys2Proof.Machine.execReadDsread s
  | .writeRoDsread d => Sys2Proof.Machine.execWriteRoDsread d s
  | .readWoDswrite => Sys2Proof.Machine.execReadWoDswrite s
  | .writeDswrite d => Sys2Proof.Machine.execWriteDswrite d s
  | .readWoDsptr => Sys2Proof.Machine.execReadWoDsptr s
  | .writeDsptr d => Sys2Proof.Machine.execWriteDsptr d s
  | .readWoSetmode => Sys2Proof.Machine.execReadWoSetmode s
  | .writeSetmode d => Sys2Proof.Machine.execWriteSetmode d s
  | .readWoCallfn => Sys2Proof.Machine.execReadWoCallfn s
  | .writeCallfn d => Sys2Proof.Machine.execWriteCallfn d s
  | .readNopFf4 => Sys2Proof.Machine.execReadNopFf4 s
  | .writeNopFf4 d => Sys2Proof.Machine.execWriteNopFf4 d s
  | .readBank0 => Sys2Proof.Machine.execReadBank0 s
  | .writeBank0 d => Sys2Proof.Machine.execWriteBank0 d s
  | .readBank1 => Sys2Proof.Machine.execReadBank1 s
  | .writeBank1 d => Sys2Proof.Machine.execWriteBank1 d s
  | .readBank2 => Sys2Proof.Machine.execReadBank2 s
  | .writeBank2 d => Sys2Proof.Machine.execWriteBank2 d s
  | .readBank3 => Sys2Proof.Machine.execReadBank3 s
  | .writeBank3 d => Sys2Proof.Machine.execWriteBank3 d s
  | .readBank4 => Sys2Proof.Machine.execReadBank4 s
  | .writeBank4 d => Sys2Proof.Machine.execWriteBank4 d s
  | .readBank5 => Sys2Proof.Machine.execReadBank5 s
  | .writeBank5 d => Sys2Proof.Machine.execWriteBank5 d s
  | .readBank6 => Sys2Proof.Machine.execReadBank6 s
  | .writeBank6 d => Sys2Proof.Machine.execWriteBank6 d s
  | .readRom a => Sys2Proof.Machine.execReadRom a s
  | .writeRom a d => Sys2Proof.Machine.execWriteRom a d s
  | .cbSetFreq channel value => Sys2Proof.Machine.execCbSetFreq channel value s
  | .cbResetCounter channel value => Sys2Proof.Machine.execCbResetCounter channel value s
  | .cbGetCounter channel value => Sys2Proof.Machine.execCbGetCounter channel value s
  | .cbSetWshift channel value => Sys2Proof.Machine.execCbSetWshift channel value s
  | .portBank n => Sys2Proof.Machine.execPortBank n s
  | .portPatch addr v => Sys2Proof.Machine.execPortPatch addr v s
  | .portLock => Sys2Proof.Machine.execPortLock s
  | .portUnlock => Sys2Proof.Machine.execPortUnlock s
  | .portQueryBankChanged => Sys2Proof.Machine.execPortQueryBankChanged s
  | .portSave => Sys2Proof.Machine.execPortSave s
  | .portLoad snap => Sys2Proof.Machine.execPortLoad snap s
  | .portReset => Sys2Proof.Machine.execPortReset s
  | .portTimingChanged => Sys2Proof.Machine.execPortTimingChanged s

end Sys2Proof.Machine
end

