-- ==== Sys2Proof/Machine/Step.lean ====
section
/-! DEFINITION. One step of the device: the next waiting operation is accepted, decoded and run to its end
(00_scope.md rule R15, 20_memory.md rule R60). Where nothing waits, nothing happens (60_exceptions.md rules R214, R224). -/

namespace Sys2Proof.Machine

/-- The refusal of a request that decodes to no operation (rule R80; the forms of rules R70, R72, R73). A callback with
`fn` above 3 is refused as unknown whether or not a run is in progress: outside one, where rule R213 has two reasons
for it and gives them no order, that is the model's choice (DESIGN CHOICE: notes/assumptions/11.md). -/
def refusalOf : DecodeError → Refusal
  | .unknownCallback => .unknownCallback
  | .frameLength => .malformedRequest .frameLength
  | .accessWordBits => .malformedRequest .accessWordBits
  | .portArguments => .malformedRequest .portArguments

/-- The state in which a waiting operation runs: it has left the queue and its inputs are there. -/
def State.accept (s : State) (x : Arrival) (rest : List Arrival) : State :=
  { s with inbox := rest, input := x.input }

/-- One step. -/
def step (s : State) : Host.Outcome State Fault Refusal :=
  match s.inbox with
  | [] => .next s
  | x :: rest =>
    match decode s.cfg x.request with
    | .ok i => exec i (s.accept x rest)
    | .error e => .refused (refusalOf e)

/-- The instruction of an opcode-table word placed as the next waiting operation. A callback is an operation
only inside a coprocessor run (rule R216), so that for a callback a run is in progress. -/
def State.withFetchWord (s : State) (nbits w : Nat) : State :=
  { s with
    inbox := { input := s.input, request := tableRequest nbits w } :: s.inbox
    inRun := s.inRun || isCallbackRow nbits }

end Sys2Proof.Machine
end

