-- ==== Sys2Proof/Safety.lean ====
section
/-! DEFINITION. What counts as a good state of the device, and the words that statements about it use:
the invariant, the frames of the two memories, and the groups of operations that share a shape. -/

namespace Sys2Proof.Machine

/-- `x` is a finite binary64 value. -/
def IsBinary64 (x : Rat) : Prop :=
  ∃ m e : Int, |m| < 2 ^ 53 ∧ -1074 ≤ e ∧ e ≤ 971 ∧ x = m * (2 : Rat) ^ e

/-- `x` is `q` rounded to binary64, to nearest with ties to even (43_audio.md rule R161): `e` is the exponent of the last
place of the binary64 values about `q`, `x` is a multiple of `2 ^ e` not further than half a place from `q`, and an
even one where it is half a place away. Overflow is left out (notes/assumptions/10.md). -/
def RoundsTo (q x : Rat) : Prop :=
  ∃ m e : Int, -1074 ≤ e ∧ |q| < (2 : Rat) ^ (e + 53) ∧ (e = -1074 ∨ (2 : Rat) ^ (e + 52) ≤ |q|) ∧
    x = m * (2 : Rat) ^ e ∧ |q - x| ≤ (2 : Rat) ^ e / 2 ∧ (|q - x| = (2 : Rat) ^ e / 2 → m % 2 = 0)

/-- A captured window offset lies in 1..0x1000 (10_state.md rules R28, R29; 90_conflicts.md C15). -/
def offsetOk (a : Option (BitVec 13)) : Prop :=
  ∀ x, a = some x → 1 ≤ x.toNat ∧ x.toNat ≤ 0x1000

/-- The invariant of the device between operations: the layout constraint (00_scope.md rule R10), both memories
in canonical form, the intercept's address and count in step (10_state.md rule R28), captured offsets in 1..0x1000
(rules R28, R29), a binary64 carry (rule R32), and no coprocessor run in progress (60_exceptions.md rule R216). -/
def State.Inv (s : State) : Prop :=
  s.cfg.wf = true ∧ s.imgWf = true ∧ s.ramWf = true ∧ (s.jmpAddr = none ↔ s.jmpCount = 0) ∧
    offsetOk s.jmpAddr ∧ offsetOk s.styAddr ∧ IsBinary64 s.carry ∧ s.inRun = false

/-- Every byte of DeviceRAM outside `p` reads in `t` as it reads in `s`. -/
def State.RamSameBut (s t : State) (p : Nat → Prop) : Prop :=
  ∀ i, ¬ p i → t.ramByte i = s.ramByte i

/-- Every byte of DeviceRAM reads in `t` as it reads in `s`. -/
def State.RamSame (s t : State) : Prop :=
  ∀ i, t.ramByte i = s.ramByte i

/-- Every byte of CartridgeImage reads in `t` as it reads in `s`. -/
def State.ImgSame (s t : State) : Prop :=
  ∀ i, t.imgByte i = s.imgByte i

/-- The four bytes of a table slot at `i`. -/
def inSlot (i a : Nat) : Prop :=
  i ≤ a ∧ a < i + 4

/-- The reads of the cartridge window, each with the offset it reads (30_encoding.md rule R78, rows 4 to 18). -/
def windowRead : Instr → Option Offset
  | .readAmplitude => some 0xFEE
  | .readDsread => some 0xFEF
  | .readWoDswrite => some 0xFF0
  | .readWoDsptr => some 0xFF1
  | .readWoSetmode => some 0xFF2
  | .readWoCallfn => some 0xFF3
  | .readNopFf4 => some 0xFF4
  | .readBank0 => some 0xFF5
  | .readBank1 => some 0xFF6
  | .readBank2 => some 0xFF7
  | .readBank3 => some 0xFF8
  | .readBank4 => some 0xFF9
  | .readBank5 => some 0xFFA
  | .readBank6 => some 0xFFB
  | .readRom a => some a
  | _ => none

/-- The writes of the cartridge window, each with the offset it writes (30_encoding.md rule R78, rows 4 to 18). -/
def windowWrite : Instr → Option Offset
  | .writeRoAmplitude _ => some 0xFEE
  | .writeRoDsread _ => some 0xFEF
  | .writeDswrite _ => some 0xFF0
  | .writeDsptr _ => some 0xFF1
  | .writeSetmode _ => some 0xFF2
  | .writeCallfn _ => some 0xFF3
  | .writeNopFf4 _ => some 0xFF4
  | .writeBank0 _ => some 0xFF5
  | .writeBank1 _ => some 0xFF6
  | .writeBank2 _ => some 0xFF7
  | .writeBank3 _ => some 0xFF8
  | .writeBank4 _ => some 0xFF9
  | .writeBank5 _ => some 0xFFA
  | .writeBank6 _ => some 0xFFB
  | .writeRom a _ => some a
  | _ => none

/-- The window reads whose stage 5 has no effect (41_cartridge_window.md rules R111, R119). -/
def plainRead : Instr → Option Offset
  | .readWoDswrite => some 0xFF0
  | .readWoDsptr => some 0xFF1
  | .readWoSetmode => some 0xFF2
  | .readWoCallfn => some 0xFF3
  | .readNopFf4 => some 0xFF4
  | .readRom a => some a
  | _ => none

/-- The reads of the bank hotspots, each with its offset and bank (rule R117). -/
def bankRead : Instr → Option (Offset × Fin 7)
  | .readBank0 => some (0xFF5, 0)
  | .readBank1 => some (0xFF6, 1)
  | .readBank2 => some (0xFF7, 2)
  | .readBank3 => some (0xFF8, 3)
  | .readBank4 => some (0xFF9, 4)
  | .readBank5 => some (0xFFA, 5)
  | .readBank6 => some (0xFFB, 6)
  | _ => none

/-- Stages 0 to 2 let a read at `a` pass: the device is not locked, no intercept is expected at `a`, and the bytes
from `a` on are no `JMP $0000` with bus-stuff on (rules R112 to R114). -/
def State.ReadsOn (s : State) (a : Offset) : Prop :=
  s.locked = false ∧ ¬ (s.jmpCount ≠ 0 ∧ s.jmpAddr = some (a.setWidth 13)) ∧
    ¬ (s.busStuffOn = true ∧ s.rom a = 0x4C ∧ s.look (a.toNat + 1) 0 = 0 ∧ s.look (a.toNat + 2) 1 = 0)

/-- The state that stages 3 and 4 of a read at `a` leave: the intercept disarmed, the target latched if the shadow
address is `a`, the shadow address cleared (rules R115, R116). -/
def State.afterLatch (s : State) (a : Offset) : State :=
  { s with
    jmpAddr := none
    jmpCount := 0
    odTarget := if s.busStuffOn = true ∧ s.styAddr = some (a.setWidth 13) then some (s.rom a) else s.odTarget
    styAddr := none
    draws := (s.afterLook a).draws }

/-- What stage 6 leaves in `st.styAddr` after a read at `a` that returns `v` (rule R118). -/
def State.shadowAfter (s : State) (a : Offset) (v : Byte) : Option (BitVec 13) :=
  if s.busStuffOn = true ∧ v = 0x84 then some (a.setWidth 13 + 1) else none

/-- The writes of the bank hotspots, each with its bank (rule R124). -/
def bankWrite : Instr → Option (Fin 7)
  | .writeBank0 _ => some 0
  | .writeBank1 _ => some 1
  | .writeBank2 _ => some 2
  | .writeBank3 _ => some 3
  | .writeBank4 _ => some 4
  | .writeBank5 _ => some 5
  | .writeBank6 _ => some 6
  | _ => none

/-- The window writes without an effect of their own (rules R121 to R123). -/
def nopWrite : Instr → Bool
  | .writeRom _ _ | .writeRoAmplitude _ | .writeRoDsread _ | .writeNopFf4 _ => true
  | _ => false

/-- The writes of the peripheral space, each with its address, its byte and the peripheral it reaches (rule R104). -/
def periphWriteOf : Instr → Option (Addr × Byte × Option Periph)
  | .writePeriphA addr d => some (addr, d, some .a)
  | .writePeriphB addr d => some (addr, d, some .b)
  | .writeLowNone addr d => some (addr, d, none)
  | _ => none

/-- The host writes (rule R70, `W = 1`). -/
def isHostWrite : Instr → Bool
  | .writePeriphA _ _ | .writePeriphB _ _ | .writeLowNone _ _ => true
  | .writeRoAmplitude _ | .writeRoDsread _ | .writeDswrite _ | .writeDsptr _ => true
  | .writeSetmode _ | .writeCallfn _ | .writeNopFf4 _ | .writeRom _ _ => true
  | .writeBank0 _ | .writeBank1 _ | .writeBank2 _ | .writeBank3 _ => true
  | .writeBank4 _ | .writeBank5 _ | .writeBank6 _ => true
  | _ => false

/-- The callbacks (30_encoding.md rule R72), each with its channel. -/
def callbackChannel : Instr → Option Word32
  | .cbSetFreq ch _ | .cbResetCounter ch _ | .cbGetCounter ch _ | .cbSetWshift ch _ => some ch
  | _ => none

/-- What goes on to a peripheral with the byte `v`, if one is selected (rule R104). -/
def forwarded (addr : Addr) (v : Byte) : Option Periph → List Output
  | some p => [.periphWrite p addr v]
  | none => []

/-- `st.odTarget` after a window write (rule R120). -/
def State.odAfterWindowWrite (s : State) : Option Byte :=
  match s.cfg.overdriveScope with
  | .allPokes => none
  | .lowPokes => s.odTarget

/-- The event of a coprocessor run whose bridge returns `fault`, the newest output first (rules R187, R211). -/
def fatalOutput (fault : Option String) (probe : Bool) : List Output :=
  match fault, probe with
  | some msg, false => [.fatalCoprocessorFault msg]
  | _, _ => []

/-- A cycle delta in range: not negative and below 2^31 (rules R167, R185). -/
def DeltaInRange (hostCycles stamp : Nat) : Prop :=
  stamp ≤ hostCycles ∧ hostCycles - stamp < 2 ^ 31

/-- The operations that store to neither memory, whatever the state. -/
def storesNothing : Instr → Bool
  | .readPeriphA _ | .readPeriphB _ | .readLowNone _ => true
  | .writeRoAmplitude _ | .writeRoDsread _ | .writeSetmode _ | .writeNopFf4 _ | .writeRom _ _ => true
  | .writeBank0 _ | .writeBank1 _ | .writeBank2 _ | .writeBank3 _ => true
  | .writeBank4 _ | .writeBank5 _ | .writeBank6 _ => true
  | .cbSetFreq _ _ | .cbResetCounter _ _ | .cbGetCounter _ _ | .cbSetWshift _ _ => true
  | .portBank _ | .portLock | .portUnlock | .portQueryBankChanged | .portSave | .portTimingChanged => true
  | _ => false

/-- Is a bridge action one that rule R186 allows: a RAM write, or one of the four callbacks on a channel below 3? -/
def BridgeAction.allowed : BridgeAction → Bool
  | .ramWrite _ _ => true
  | .call fn channel _ => decide (fn.toNat < 4) && decide (channel.toNat < 3)

end Sys2Proof.Machine
end

