-- ==== Sys2Proof/Certificates/Slice0/Obligations.lean ====
section
/-! DEFINITION. The statements about the model. Each docstring names the rules of spec/ that the statement formalises; where
a rule is the spec's own decision, it names the decision of 92_eei_decisions.md. -/

open Sys2Proof Sys2Proof.Machine

/-! Encoding. -/

/-- Access words that 95_test_vectors.md writes out, and one callback, decode to the operations they stand for
(P1 steps 2 and 7, P2 steps 4 and 5, P3 step 5, P4 step 4, V2, V4, V71). That an access word and a callback arrive as
bytes, least significant first, is the model's layout (notes/assumptions/6.md). -/
def Obligations.SampleWordsDecode : Prop :=
  decode Config.default (.bus [0xF1, 0x1F, 0x01, 0x23]) = .ok (.writeDsptr 0x23) ∧
  decode Config.default (.bus [0xEF, 0x1F, 0x00, 0x00]) = .ok .readDsread ∧
  decode Config.default (.bus [0xFB, 0x1F, 0x01, 0x00]) = .ok (.writeBank6 0x00) ∧
  decode Config.default (.bus [0x00, 0x10, 0x00, 0x00]) = .ok (.readRom 0x000) ∧
  decode Config.default (.bus [0x34, 0x12, 0x00, 0x00]) = .ok (.readRom 0x234) ∧
  decode Config.default (.bus [0x1B, 0x00, 0x01, 0xFF]) = .ok (.writePeriphB 0x001B 0xFF) ∧
  decode Config.default (.bus [0x80, 0x02, 0x00, 0x00]) = .ok (.readPeriphA 0x0280) ∧
  decode Config.default (.bus [0x30, 0x02, 0x00, 0x00]) = .ok (.readLowNone 0x0230) ∧
  decode Config.default (.cb [3, 0, 0, 0, 0, 0x20, 0x01, 0, 0]) = .ok (.cbSetWshift 0 0x120)

/-- Decoding the encoding of a well-formed operation gives the operation, for every configuration
(the formats of rules R70, R72, R73 and the decode map of rule R78). -/
def Obligations.DecodeOfEncodeIsTheOperation : Prop :=
  ∀ (c : Config) (i : Instr), i.wf c = true → decode c (encode i) = .ok i

/-- Every 17-bit access word with any data byte decodes to a well-formed operation (rule R79, first sentence). -/
def Obligations.EveryAccessWordDecodes : Prop :=
  ∀ (c : Config) (w : BitVec 17) (d : Byte), ∃ i : Instr,
    decode c (.bus [w.extractLsb' 0 8, w.extractLsb' 8 8, (w.extractLsb' 16 1).setWidth 8, d]) = .ok i ∧
      i.wf c = true

/-- The AddressDecoder (rule R100; decision D11): bit 12 clear and bit 7 set reaches PERIPH_A whatever bit 9 is; bit 7
clear reaches PERIPH_B where bit 9 is `PERIPH_B_BIT9` and nothing otherwise; bit 12 set reaches the window at bits
11:0, whatever bits 15:13 are (rule R105). A read and a write of one address are routed alike. -/
def Obligations.AddressDecoderRoutes : Prop :=
  ∀ (c : Config) (addr : Addr) (d : Byte),
    (addr.getLsbD 12 = false → addr.getLsbD 7 = true →
      decodeRead c addr = .readPeriphA addr ∧ decodeWrite c addr d = .writePeriphA addr d) ∧
    (addr.getLsbD 12 = false → addr.getLsbD 7 = false → addr.getLsbD 9 = c.periphBBit9 →
      decodeRead c addr = .readPeriphB addr ∧ decodeWrite c addr d = .writePeriphB addr d) ∧
    (addr.getLsbD 12 = false → addr.getLsbD 7 = false → addr.getLsbD 9 ≠ c.periphBBit9 →
      decodeRead c addr = .readLowNone addr ∧ decodeWrite c addr d = .writeLowNone addr d) ∧
    (addr.getLsbD 12 = true →
      windowRead (decodeRead c addr) = some (addr.extractLsb' 0 12) ∧ (decodeRead c addr).wf c = true ∧
      windowWrite (decodeWrite c addr d) = some (addr.extractLsb' 0 12) ∧ (decodeWrite c addr d).wf c = true)

/-! Steps. -/

/-- A step accepts the next waiting operation, with its inputs, and runs what it decodes to (rules R15, R60). That
operations wait in a queue of the state is the model's choice (notes/assumptions/4.md). -/
def Obligations.StepRunsTheDecodedOperation : Prop :=
  ∀ (s : State) (x : Arrival) (rest : List Arrival) (i : Instr),
    s.inbox = x :: rest → decode s.cfg x.request = .ok i →
      step s = exec i { s with inbox := rest, input := x.input }

/-- Where nothing waits nothing happens (rules R214, R224; the model's choice of what a step then is, notes/assumptions/4.md),
and a request that is no operation is refused, a callback with `fn` above 3 as UnknownCallback (rules R80, R213;
outside a run, where CallbackOutsideRun applies too, by the model's choice: notes/assumptions/11.md). -/
def Obligations.StepWithoutAnOperation : Prop :=
  (∀ s : State, s.inbox = [] → step s = .next s) ∧
  (∀ (s : State) (i : Input) (rest : List Arrival) (fn c0 c1 c2 c3 v0 v1 v2 v3 : Byte), 3 < fn.toNat →
    s.inbox = { input := i, request := .cb [fn, c0, c1, c2, c3, v0, v1, v2, v3] } :: rest →
      step s = .refused .unknownCallback)

/-! The peripheral space. -/

/-- READ_PERIPH_A and READ_PERIPH_B return what the peripheral returns, which sees the full address, and change no
state of the device, locked or not (rules R101, R102, R107). -/
def Obligations.PeripheralReadsReturnTheirByte : Prop :=
  ∀ (s : State) (addr : Addr),
    exec (.readPeriphA addr) s =
      .next { s with out := .periphRead .a addr :: s.out, result := .byte s.input.periphA } ∧
    exec (.readPeriphB addr) s =
      .next { s with out := .periphRead .b addr :: s.out, result := .byte s.input.periphB }

/-- READ_LOW_NONE returns some byte and changes no state of the device (rule R103; decision D12). The byte is a free
value; the model's draw counter moves on. -/
def Obligations.UnselectedReadReturnsSomeByte : Prop :=
  ∀ (s : State) (addr : Addr), ∃ v : Byte,
    exec (.readLowNone addr) s = .next { s with draws := s.draws + 1, result := .byte v }

/-- WRITE_PERIPH_A, WRITE_PERIPH_B and WRITE_LOW_NONE without a matching capture: the byte goes on unchanged (or is
dropped), the capture is consumed, the poke returns false (rules R104, R150). -/
def Obligations.PeripheralWriteWithoutOverdrive : Prop :=
  ∀ (i : Instr) (addr : Addr) (d : Byte) (p : Option Periph) (s : State),
    periphWriteOf i = some (addr, d, p) →
    (∀ t : Byte, s.odTarget = some t → addr ≠ t.setWidth 16 ∨ 0x24 < (t &&& 0x7F).toNat) →
    exec i s = .next { s with odTarget := none, out := forwarded addr d p ++ s.out, result := .flag false }

/-- WRITE_PERIPH_A, WRITE_PERIPH_B and WRITE_LOW_NONE with a matching capture: the byte of the stream that the low
nibble of the address map selects replaces the written byte (or is ANDed with it), that stream advances by its
increment, the map word rotates right by a nibble, the capture is consumed, and no other byte of DeviceRAM changes
(rules R104, R140, R150 to R153; decisions D19 to D23). -/
def Obligations.OverdrivenWriteDeliversTheStreamByte : Prop :=
  ∀ (i : Instr) (addr : Addr) (d : Byte) (p : Option Periph) (s : State) (t : Byte) (m k : Nat) (b : Byte),
    periphWriteOf i = some (addr, d, p) → s.cfg.wf = true →
    s.odTarget = some t → addr = t.setWidth 16 → m = (t &&& 0x7F).toNat → m ≤ 0x24 →
    k = (s.map m &&& 0xF).toNat → b = s.ramByte (0x800 + (s.ptr k >>> 20).toNat) →
    ∃ u : State, exec i s = .next u ∧
      u = { s with
        ram := u.ram
        odTarget := none
        out := forwarded addr (if s.cfg.overdriveCombine = .replace then b else d &&& b) p ++ s.out
        result := .flag false } ∧
      u.ptr k = s.ptr k + (s.inc k).setWidth 32 <<< 12 ∧
      u.map m = (s.map m).rotateRight 4 ∧
      s.RamSameBut u (fun a => inSlot (s.ptrAt k) a ∨ inSlot (s.mapAt m) a)

/-- Eight overdrives of one register use its selectors in the order nibble 0 to nibble 7 and then repeat: after `k`
rotations the current selector is nibble `k`, and after eight the word is as before (rule R151; decision D23). -/
def Obligations.MapRotationCyclesThroughTheNibbles : Prop :=
  ∀ w : Word32,
    (∀ k : Fin 8, ((rotateMap^[k.val]) w).extractLsb' 0 4 = w.extractLsb' (4 * k.val) 4) ∧ (rotateMap^[8]) w = w

/-! The registers in DeviceRAM. -/

/-- The pointers, the address map and the waveform bases are the four bytes of their slots at `OFF + 4k`, least significant
first, and an increment is the low two bytes of its slot (rules R35 to R38, R55). -/
def Obligations.TableWordsReadTheirBytes : Prop :=
  ∀ (s : State) (k : Nat) (word : Nat → Nat),
    (∀ a, word a = (s.ramByte a).toNat + 2 ^ 8 * (s.ramByte (a + 1)).toNat + 2 ^ 16 * (s.ramByte (a + 2)).toNat +
      2 ^ 24 * (s.ramByte (a + 3)).toNat) →
    (s.ptr k).toNat = word (s.cfg.ptrOff + 4 * k) ∧ (s.map k).toNat = word (s.cfg.mapOff + 4 * k) ∧
    (s.wave k).toNat = word (s.cfg.waveOff + 4 * k) ∧ (s.inc k).toNat = word (s.cfg.incOff + 4 * k) % 2 ^ 16

/-! Reads of the cartridge window. -/

/-- A locked window read returns the ROM byte of the current bank and writes no state (rule R112; decision D24). For
every window read of rule R78, rows 4 to 18. -/
def Obligations.LockedReadReturnsTheRomByte : Prop :=
  ∀ (i : Instr) (a : Offset) (s : State), windowRead i = some a → s.locked = true →
    exec i s = .next { s with result := .byte (s.imgByte (4096 + s.bank.val * 4096 + a.toNat)) }

/-- A read at the expected offset of an armed intercept returns the JUMPSTREAM byte, advances that stream by one whole
byte and counts the intercept down; nothing else changes (rules R113, R145; decisions D6, D22). For every window
read, hotspots included. -/
def Obligations.InterceptServesTheJumpStream : Prop :=
  ∀ (i : Instr) (a : Offset) (s : State), windowRead i = some a → s.locked = false →
    s.jmpCount ≠ 0 → s.jmpAddr = some (a.setWidth 13) →
    ∃ t : State, exec i s = .next t ∧
      t = { s with
        ram := t.ram
        jmpCount := if s.jmpCount = 2 then 1 else 0
        jmpAddr := if s.jmpCount = 2 then some (a.setWidth 13 + 1) else none
        result := .byte (s.ramByte (0x800 + (s.ptr 17 >>> 20).toNat)) } ∧
      t.ptr 17 = s.ptr 17 + 0x00100000 ∧
      s.RamSameBut t (inSlot (s.ptrAt 17))

/-- A read of the 0x4C of `4C 00 00` in the image, with bus-stuff on and the three bytes inside the image, returns 0x4C
and arms the intercept of the next two offsets; it has no hotspot effect and keeps a pending shadow address (rule
R114; decision D16). For every window read. -/
def Obligations.JmpZeroArmsTheIntercept : Prop :=
  ∀ (i : Instr) (a : Offset) (s : State), windowRead i = some a → s.locked = false →
    ¬ (s.jmpCount ≠ 0 ∧ s.jmpAddr = some (a.setWidth 13)) → s.busStuffOn = true →
    4096 + s.bank.val * 4096 + a.toNat + 2 < 32768 →
    s.imgByte (4096 + s.bank.val * 4096 + a.toNat) = 0x4C →
    s.imgByte (4096 + s.bank.val * 4096 + a.toNat + 1) = 0x00 →
    s.imgByte (4096 + s.bank.val * 4096 + a.toNat + 2) = 0x00 →
    exec i s = .next { s with jmpCount := 2, jmpAddr := some (a.setWidth 13 + 1), result := .byte 0x4C }

/-- Where the lookahead leaves the image (bank 6, offsets 0xFFE and 0xFFF) a read of 0x4C returns 0x4C and either arms
the intercept or runs on, whichever the free lookahead bytes say (rule R127; decision D16). -/
def Obligations.LookaheadPastTheImageMayArm : Prop :=
  ∀ (a : Offset) (s : State), 0xFFE ≤ a.toNat → s.bank = 6 → s.locked = false → s.busStuffOn = true →
    ¬ (s.jmpCount ≠ 0 ∧ s.jmpAddr = some (a.setWidth 13)) → s.rom a = 0x4C →
    ∃ t : State, exec (.readRom a) s = .next t ∧ t.result = .byte 0x4C ∧
      (t = { s with jmpCount := 2, jmpAddr := some (a.setWidth 13 + 1), draws := s.draws + 2, result := .byte 0x4C } ∨
        t = { s.afterLatch a with result := .byte 0x4C })

/-- READ_ROM, READ_WO_DSWRITE, READ_WO_DSPTR, READ_WO_SETMODE, READ_WO_CALLFN and READ_NOP_FF4 return the ROM byte of the
current bank and change only the quirk state: the intercept is disarmed, a pending shadow address is used and cleared,
and a returned 0x84 is captured while bus-stuff is on (rules R111, R115, R116, R118, R119; decisions D17, D18, D26). -/
def Obligations.PlainReadReturnsTheRomByte : Prop :=
  ∀ (i : Instr) (a : Offset) (s : State), plainRead i = some a → s.ReadsOn a →
    exec i s = .next { s.afterLatch a with styAddr := s.shadowAfter a (s.rom a), result := .byte (s.rom a) }

/-- READ_BANK0 to READ_BANK6 return the byte of the bank before the switch and switch the bank (rules R117, R190; decision
D26); reading the hotspot of the current bank still sets bank-changed. -/
def Obligations.BankReadReturnsTheOldByteAndSwitches : Prop :=
  ∀ (i : Instr) (a : Offset) (n : Fin 7) (s : State), bankRead i = some (a, n) → s.ReadsOn a →
    exec i s = .next { s.afterLatch a with
      bank := n
      bankChanged := true
      styAddr := s.shadowAfter a (s.rom a)
      result := .byte (s.rom a) }

/-- WRITE_BANK0 to WRITE_BANK6 and then READ_ROM at any offset. On an unlocked device the read returns the byte of
`CartridgeImage` at `4096 + n * 4096` plus the offset, unless an intercept is expected there, and writes the quirk state
only (rules R111, R124, R190; source property T1). On a locked device it returns the byte of the bank that was selected
before the write, and writes no state (rules R112, R190; decision D24). -/
def Obligations.SwitchedBankIsWhatReadsReturn : Prop :=
  ∀ (i : Instr) (n : Fin 7) (a : Offset) (s : State), bankWrite i = some n →
    (s.locked = false → ¬ (s.jmpCount ≠ 0 ∧ s.jmpAddr = some (a.setWidth 13)) →
      ∃ t u : State, exec i s = .next t ∧ exec (.readRom a) t = .next u ∧
        u = { t with
          jmpAddr := u.jmpAddr
          jmpCount := u.jmpCount
          styAddr := u.styAddr
          odTarget := u.odTarget
          draws := u.draws
          result := .byte (s.imgByte (4096 + n.val * 4096 + a.toNat)) }) ∧
    (s.locked = true →
      ∃ t u : State, exec i s = .next t ∧ exec (.readRom a) t = .next u ∧
        u = { t with result := .byte (s.imgByte (4096 + s.bank.val * 4096 + a.toNat)) })

/-- READ_DSREAD returns the display byte under pointer 16 and advances that pointer by increment 16 (as `zext_32(inc) << 12`,
mod 2^32); a returned 0x84 is captured (rules R140 to R142; decisions D5, D6). -/
def Obligations.DsreadPopsTheCommStream : Prop :=
  ∀ (s : State) (v : Byte), s.ReadsOn 0xFEF → v = s.ramByte (0x800 + (s.ptr 16 >>> 20).toNat) →
    ∃ t : State, exec .readDsread s = .next t ∧
      t = { s.afterLatch 0xFEF with
        ram := t.ram, styAddr := s.shadowAfter 0xFEF v, result := .byte v } ∧
      t.ptr 16 = s.ptr 16 + (s.inc 16).setWidth 32 <<< 12 ∧
      s.RamSameBut t (inSlot (s.ptrAt 16))

/-- READ_AMPLITUDE with a cycle delta in range: the stamp, the carry and the three counters are updated as rules R161 and
R162 say, whatever the shifts are (rule R166), some byte is returned, and beside the quirk stages nothing else changes; no
shadow address is captured (rule R160; decisions D15, D28). Every product, quotient, sum and difference is rounded to
binary64, to nearest with ties to even, and `HOST_CLOCK_F64` is 0x1.234e7aaaaaab9p+20. -/
def Obligations.AmplitudeReadUpdatesTheAudioState : Prop :=
  ∀ s : State, s.ReadsOn 0xFEE → DeltaInRange s.input.hostCycles s.audioCycles →
    ∃ (t : State) (v : Byte) (scaled quotient clocks whole64 : Rat) (whole : Int),
      RoundsTo (20000 * (s.input.hostCycles - s.audioCycles : Nat)) scaled ∧
      RoundsTo (scaled / (0x1234E7AAAAAAB9 / 2 ^ 32)) quotient ∧
      RoundsTo (quotient + s.carry) clocks ∧
      whole = clocks.floor ∧ RoundsTo whole whole64 ∧ RoundsTo (clocks - whole64) t.carry ∧
      exec .readAmplitude s = .next t ∧
      t = { s.afterLatch 0xFEE with
        audioCycles := s.input.hostCycles
        carry := t.carry
        ch0 := t.ch0
        ch1 := t.ch1
        ch2 := t.ch2
        draws := t.draws
        result := .byte v } ∧
      ∀ c : Fin 3, t.channel c = { s.channel c with
        counter := if 0 < whole then (s.channel c).counter + BitVec.ofInt 32 ((s.channel c).freq.toNat * whole)
          else (s.channel c).counter }

/-- READ_AMPLITUDE in digital-sample mode returns the high nibble of the sample byte where bit 20 of counter 0 (after the
advance) is clear and the low nibble where it is set; the byte lies at `wave(0) + (counter0 >> 21)` in the image below
0x8000, in DeviceRAM from 0x40000000, and is 0 elsewhere (rules R164, R165, R39; decision D30). -/
def Obligations.DigitalAmplitudeIsTheSampleNibble : Prop :=
  ∀ (s : State), s.ReadsOn 0xFEE → DeltaInRange s.input.hostCycles s.audioCycles → s.digitalOn = true →
    ∃ t : State, exec .readAmplitude s = .next t ∧
      ∀ (x : Nat) (b : Byte), x = (s.wave 0 + (t.ch0.counter >>> 21)).toNat →
        b = (if x < 0x8000 then s.imgByte x
          else if 0x40000000 ≤ x ∧ x < 0x40002000 then s.ramByte (x - 0x40000000) else 0) →
        t.result = .byte (if t.ch0.counter.getLsbD 20 then b &&& 0x0F else b >>> 4)

/-- READ_AMPLITUDE in 3-voice mode returns the sum mod 256 of one waveform byte per channel, where every shift is below
32 and every index inside DeviceRAM; a waveform base outside the display range counts as 0 (rules R163, R38). -/
def Obligations.VoiceAmplitudeIsTheSumOfTheWaveforms : Prop :=
  ∀ (s : State), s.ReadsOn 0xFEE → DeltaInRange s.input.hostCycles s.audioCycles → s.digitalOn = false →
    ∃ t : State, exec .readAmplitude s = .next t ∧
      ∀ at_ : Fin 3 → Nat,
        (∀ c : Fin 3, at_ c = 0x800 +
          (if (s.wave c.val - 0x40000800).toNat < 4096 then (s.wave c.val - 0x40000800).toNat else 0) +
          (t.channel c).counter.toNat / 2 ^ (t.channel c).wshift.toNat) →
        (∀ c : Fin 3, (t.channel c).wshift.toNat < 32 ∧ at_ c < 8192) →
        t.result = .byte (s.ramByte (at_ 0) + s.ramByte (at_ 1) + s.ramByte (at_ 2))

/-- READ_AMPLITUDE with a cycle delta out of range is a CycleDelta fault (rules R167, R212; decision D29). -/
def Obligations.AmplitudeReadFaultsOutsideTheDeltaRange : Prop :=
  ∀ s : State, s.ReadsOn 0xFEE → ¬ DeltaInRange s.input.hostCycles s.audioCycles →
    exec .readAmplitude s = .fault .cycleDelta

/-- The carry of the clock conversion lies in [0, 1) after every amplitude read that updates it, where it was a
nonnegative value before (rules R32 and R161, marked derived there). -/
def Obligations.CarryStaysBelowOne : Prop :=
  ∀ (s t : State), s.ReadsOn 0xFEE → DeltaInRange s.input.hostCycles s.audioCycles → 0 ≤ s.carry →
    exec .readAmplitude s = .next t → 0 ≤ t.carry ∧ t.carry < 1

/-! Writes of the cartridge window. -/

/-- WRITE_ROM, WRITE_RO_AMPLITUDE, WRITE_RO_DSREAD and WRITE_NOP_FF4 do nothing but consume the capture (scope `all_pokes`),
and return false (rules R120 to R123). -/
def Obligations.NopWritesOnlyConsumeTheCapture : Prop :=
  ∀ (i : Instr) (s : State), nopWrite i = true →
    exec i s = .next { s with odTarget := s.odAfterWindowWrite, result := .flag false }

/-- WRITE_DSWRITE stores the byte under pointer 16 and advances that pointer by one whole byte, mod 2^32; every other byte of
DeviceRAM keeps its value (rules R141, R143; decision D6). -/
def Obligations.DswriteStoresAndAdvances : Prop :=
  ∀ (s : State) (d : Byte) (a : Nat), s.cfg.wf = true → a = 0x800 + (s.ptr 16 >>> 20).toNat →
    ∃ t : State, exec (.writeDswrite d) s = .next t ∧
      t = { s with ram := t.ram, odTarget := s.odAfterWindowWrite, result := .flag false } ∧
      t.ramByte a = d ∧
      t.ptr 16 = s.ptr 16 + 0x00100000 ∧
      s.RamSameBut t (fun b => b = a ∨ inSlot (s.ptrAt 16) b)

/-- WRITE_DSPTR: the integer part of pointer 16 becomes its old low nibble and then the byte, the fraction 0 (rule R144;
decision D7). -/
def Obligations.DsptrShiftsAndMerges : Prop :=
  ∀ (s : State) (d : Byte),
    ∃ t : State, exec (.writeDsptr d) s = .next t ∧
      t = { s with ram := t.ram, odTarget := s.odAfterWindowWrite, result := .flag false } ∧
      t.ptr 16 = (s.ptr 16).extractLsb' 20 4 ++ d ++ 0#20 ∧
      s.RamSameBut t (inSlot (s.ptrAt 16))

/-- `SETCOMM x`: two DSPTR writes, first `x[11:8]` and then `x[7:0]`, set pointer 16 to `x << 20`, whatever it was
(rules R83, R242; decision D7). -/
def Obligations.SetcommSetsThePointer : Prop :=
  ∀ (s : State) (x : BitVec 12), ∃ t u : State,
    exec (.writeDsptr ((x.extractLsb' 8 4).setWidth 8)) s = .next t ∧
    exec (.writeDsptr (x.extractLsb' 0 8)) t = .next u ∧
    u.ptr 16 = x ++ 0#20

/-- WRITE_SETMODE sets the mode byte and leaves an armed intercept, a shadow address and (scope `low_pokes`) a captured
target alone (rule R180; decision D8). What the byte means, in every state (rules R25, R74): bus-stuff is on from its low
nibble and digital-sample mode from its high one, 0 being on where `MODE_ZERO_IS_ON` and off elsewhere. -/
def Obligations.SetmodeSetsTheModeByte : Prop :=
  ∀ (s : State) (d : Byte),
    exec (.writeSetmode d) s = .next { s with mode := d, odTarget := s.odAfterWindowWrite, result := .flag false } ∧
    (s.cfg.modeZeroIsOn = true →
      (s.busStuffOn = true ↔ s.mode.extractLsb' 0 4 = 0) ∧ (s.digitalOn = true ↔ s.mode.extractLsb' 4 4 = 0)) ∧
    (s.cfg.modeZeroIsOn = false →
      (s.busStuffOn = true ↔ s.mode.extractLsb' 0 4 ≠ 0) ∧ (s.digitalOn = true ↔ s.mode.extractLsb' 4 4 ≠ 0))

/-- WRITE_CALLFN with a selector outside {0xFE, 0xFF} has no effect of its own; the coprocessor's stamp keeps its value
(rules R181, R182; decision D35). -/
def Obligations.CallfnIgnoresOtherSelectors : Prop :=
  ∀ (s : State) (d : Byte), d ≠ 0xFE → d ≠ 0xFF →
    exec (.writeCallfn d) s = .next { s with odTarget := s.odAfterWindowWrite, result := .flag false }

/-- WRITE_CALLFN with a run selector, a cycle delta in range and a bridge that does what rule R186 allows: the run ends
inside the write, the stamp is set, the bridge is given the delta, and of the device only DeviceRAM and the three channels
can have changed; a fault of the bridge is put out last, and only without a probe; the poke returns false. The
lock plays no part (rules R181, R185 to R188, R211; decisions D25, D29, D36, D37). -/
def Obligations.CallfnRunsTheCoprocessor : Prop :=
  ∀ (s : State) (d : Byte), d = 0xFE ∨ d = 0xFF → DeltaInRange s.input.hostCycles s.armCycles →
    (∀ x ∈ s.input.bridge.actions, x.allowed = true) →
    ∃ (t : State) (returns : List (Option Word32)), exec (.writeCallfn d) s = .next t ∧
      t = { s with
        ram := t.ram
        ch0 := t.ch0
        ch1 := t.ch1
        ch2 := t.ch2
        odTarget := s.odAfterWindowWrite
        armCycles := s.input.hostCycles
        inRun := false
        out := fatalOutput s.input.bridge.fault s.input.probe ++ returns.map .callbackReturn ++
          .bridgeRun (s.input.hostCycles - s.armCycles) :: s.out
        result := .flag false }

/-- A run does what its bridge does, in order, for every list of actions that rule R186 allows: a byte of DeviceRAM holds
what was written to it last, and keeps its value where nothing was; a channel that no callback names is kept; of a channel
that one names, the frequency is the value of the last CB_SET_FREQ, the counter 0 where there was a CB_RESET_COUNTER, the
shift the low 8 bits of the last CB_SET_WSHIFT, and a field that no callback set is kept (rules R170 to R173, R186). -/
def Obligations.CallfnRunAppliesWhatTheBridgeDoes : Prop :=
  ∀ (s : State) (d : Byte) (actions : List BridgeAction), d = 0xFE ∨ d = 0xFF →
    DeltaInRange s.input.hostCycles s.armCycles →
    s.input.bridge.actions = actions → (∀ x ∈ actions, x.allowed = true) →
    ∃ t : State, exec (.writeCallfn d) s = .next t ∧
      (∀ (pre post : List BridgeAction) (i : BitVec 13) (v : Byte), actions = pre ++ .ramWrite i v :: post →
        (∀ w, .ramWrite i w ∉ post) → t.ramByte i.toNat = v) ∧
      s.RamSameBut t (fun a => ∃ (i : BitVec 13) (v : Byte), .ramWrite i v ∈ actions ∧ i.toNat = a) ∧
      ∀ (c : Fin 3) (ch : Word32), ch.toNat = c.val →
        ((∀ fn v, .call fn ch v ∉ actions) → t.channel c = s.channel c) ∧
        (∀ (pre post : List BridgeAction) (v : Word32), actions = pre ++ .call 0 ch v :: post →
          (∀ w, .call 0 ch w ∉ post) → (t.channel c).freq = v) ∧
        ((∀ v, .call 0 ch v ∉ actions) → (t.channel c).freq = (s.channel c).freq) ∧
        ((∃ v, .call 1 ch v ∈ actions) → (t.channel c).counter = 0) ∧
        ((∀ v, .call 1 ch v ∉ actions) → (t.channel c).counter = (s.channel c).counter) ∧
        (∀ (pre post : List BridgeAction) (v : Word32), actions = pre ++ .call 3 ch v :: post →
          (∀ w, .call 3 ch w ∉ post) → (t.channel c).wshift = v.extractLsb' 0 8) ∧
        ((∀ v, .call 3 ch v ∉ actions) → (t.channel c).wshift = (s.channel c).wshift)

/-- Where a run stops the machine: a cycle delta out of range is a CycleDelta fault, and a callback on channel 3 or more,
whatever the bridge has done before it, is a BadChannelIndex fault of the whole write (rules R174, R185, R212; decisions
D29, D34). -/
def Obligations.CallfnFaults : Prop :=
  ∀ (s : State) (d : Byte), d = 0xFE ∨ d = 0xFF →
    (¬ DeltaInRange s.input.hostCycles s.armCycles → exec (.writeCallfn d) s = .fault .cycleDelta) ∧
    (∀ (pre rest : List BridgeAction) (fn : Byte) (ch v : Word32), (∀ x ∈ pre, x.allowed = true) →
      fn.toNat < 4 → 3 ≤ ch.toNat → DeltaInRange s.input.hostCycles s.armCycles →
      s.input.bridge.actions = pre ++ .call fn ch v :: rest →
      exec (.writeCallfn d) s = .fault .badChannelIndex)

/-- WRITE_BANK0 to WRITE_BANK6 switch the bank, set bank-changed and return true, whatever the byte and the current bank;
while locked they return false and change neither (rules R120, R124, R190). -/
def Obligations.BankWriteSwitchesUnlessLocked : Prop :=
  ∀ (i : Instr) (n : Fin 7) (s : State), bankWrite i = some n →
    (s.locked = false → exec i s = .next { s with
      bank := n, bankChanged := true, odTarget := s.odAfterWindowWrite, result := .flag true }) ∧
    (s.locked = true → exec i s = .next { s with odTarget := s.odAfterWindowWrite, result := .flag false })

/-- A host write of any kind leaves the JMP intercept and the shadow address alone: only reads drive the detectors
(rule R125; decision D15). -/
def Obligations.HostWritesKeepTheDetectors : Prop :=
  ∀ (i : Instr) (s t : State), isHostWrite i = true → exec i s = .next t →
    t.jmpAddr = s.jmpAddr ∧ t.jmpCount = s.jmpCount ∧ t.styAddr = s.styAddr

/-! The callbacks. -/

/-- CB_SET_FREQ, CB_RESET_COUNTER and CB_SET_WSHIFT in a run, on channel 0, 1 or 2: the frequency becomes the value, the
counter 0, the shift the value's low 8 bits; they return none, and nothing else changes (rules R170, R171, R173;
decisions D32, D33). -/
def Obligations.CallbacksSetTheirChannel : Prop :=
  ∀ (s : State) (c : Fin 3) (ch v : Word32), s.inRun = true → ch.toNat = c.val →
    ∀ (i : Instr) (x : Channel),
      (i = .cbSetFreq ch v ∧ x = { s.channel c with freq := v }) ∨
      (i = .cbResetCounter ch v ∧ x = { s.channel c with counter := 0 }) ∨
      (i = .cbSetWshift ch v ∧ x = { s.channel c with wshift := v.extractLsb' 0 8 }) →
    ∃ t : State, exec i s = .next t ∧
      t = { s with
        ch0 := t.ch0, ch1 := t.ch1, ch2 := t.ch2, out := .callbackReturn none :: s.out, result := .word none } ∧
      t.channel c = x ∧ ∀ c' : Fin 3, c' ≠ c → t.channel c' = s.channel c'

/-- CB_GET_COUNTER in a run, on channel 0, 1 or 2, returns the counter and changes nothing (rule R172; decision D33). -/
def Obligations.GetCounterReturnsTheCounter : Prop :=
  ∀ (s : State) (c : Fin 3) (ch v : Word32), s.inRun = true → ch.toNat = c.val →
    exec (.cbGetCounter ch v) s = .next { s with
      out := .callbackReturn (some (s.channel c).counter) :: s.out
      result := .word (some (s.channel c).counter) }

/-- A callback outside a coprocessor run is refused, and one on channel 3 or more in a run is a fault (rules R174, R213,
R216; decision D34; channel 3 or more outside a run is refused: notes/assumptions/11.md). For CB_SET_FREQ,
CB_RESET_COUNTER, CB_GET_COUNTER and CB_SET_WSHIFT. -/
def Obligations.CallbacksStopOutsideTheirRange : Prop :=
  ∀ (i : Instr) (ch : Word32) (s : State), callbackChannel i = some ch →
    (s.inRun = false → exec i s = .refused .callbackOutsideRun) ∧
    (s.inRun = true → 3 ≤ ch.toNat → exec i s = .fault .badChannelIndex)

/-! The host and debug port. -/

/-- PORT_BANK: for n in 0..6 it switches the bank, sets bank-changed and returns true, and while locked returns false and
changes nothing; for n above 6 it is refused (rules R190, R191; decision D38). -/
def Obligations.PortBankSwitchesUnlessLocked : Prop :=
  ∀ (s : State) (n : Nat),
    (∀ b : Fin 7, n = b.val → s.locked = false →
      exec (.portBank n) s = .next { s with bank := b, bankChanged := true, result := .flag true }) ∧
    (n ≤ 6 → s.locked = true → exec (.portBank n) s = .next { s with result := .flag false }) ∧
    (6 < n → exec (.portBank n) s = .refused .bankOutOfRange)

/-- PORT_PATCH: unlocked and at a window offset of 0x040 or more it writes one byte of the image in the current bank, sets
bank-changed and returns true; otherwise it returns false and changes nothing (rule R192; decision D39). -/
def Obligations.PatchWritesOneImageByte : Prop :=
  ∀ (s : State) (addr : Addr) (v : Byte) (a at_ : Nat),
    a = (addr.extractLsb' 0 12).toNat → at_ = 4096 + s.bank.val * 4096 + a →
    (s.locked = false → 0x040 ≤ a → ∃ t : State, exec (.portPatch addr v) s = .next t ∧
      t = { s with img := t.img, bankChanged := true, result := .flag true } ∧
      t.imgByte at_ = v ∧ ∀ j, j ≠ at_ → t.imgByte j = s.imgByte j) ∧
    (s.locked = true ∨ a < 0x040 → exec (.portPatch addr v) s = .next { s with result := .flag false })

/-- PORT_LOCK and PORT_UNLOCK set and clear the lock, whatever it was, and nothing else; locking twice and unlocking once
leaves the device unlocked (rules R26, R196; decision D40). -/
def Obligations.LockAndUnlockSetTheLock : Prop :=
  ∀ s : State,
    exec .portLock s = .next { s with locked := true, result := .unit } ∧
    exec .portUnlock s = .next { s with locked := false, result := .unit } ∧
    ∃ t u w : State, exec .portLock s = .next t ∧ exec .portLock t = .next u ∧ exec .portUnlock u = .next w ∧
      w.locked = false

/-- PORT_QUERY_BANK_CHANGED returns the signal and clears it (rules R27, R197; decision D59), and PORT_TIMING_CHANGED
changes nothing (rule R198; decision D44). -/
def Obligations.QueryReadsAndClearsBankChanged : Prop :=
  ∀ s : State,
    exec .portQueryBankChanged s = .next { s with bankChanged := false, result := .flag s.bankChanged } ∧
    exec .portTimingChanged s = .next { s with result := .unit }

/-- PORT_SAVE with both stamps below 2^64 returns the fourteen fields of rule R195 in their order, each primitive as the
configuration's serializer writes it, and writes no state of the device, locked or not (rule R193; decision D41). Field 8
is `trunc(carry *f toF64(CARRY_SCALE))`, both rounded to binary64, where the scale is finite and the field's 32 bits hold
the value; elsewhere it is a free word (the model's choice, notes/assumptions/8.md). -/
def Obligations.SaveReturnsTheSnapshot : Prop :=
  ∀ (s : State) (z : Serializer), s.audioCycles < 2 ^ 64 → s.armCycles < 2 ^ 64 → z = s.cfg.codecs →
    ∃ (t : State) (ram : List Byte) (od sty jmp : BitVec 16) (carry : Word32), exec .portSave s = .next t ∧
      t = { s with
        draws := t.draws
        result := .snapshot (z.str.write s.cfg.deviceName ++ z.u16.write (BitVec.ofNat 16 s.bank.val) ++
          ram.flatMap z.u8.write ++ z.u16.write od ++ z.u16.write sty ++ z.u16.write jmp ++
          z.u64.write (BitVec.ofNat 64 s.audioCycles) ++ z.u32.write carry ++
          z.u64.write (BitVec.ofNat 64 s.armCycles) ++
          z.u32.write s.ch0.counter ++ z.u32.write s.ch1.counter ++ z.u32.write s.ch2.counter ++
          z.u32.write s.ch0.freq ++ z.u32.write s.ch1.freq ++ z.u32.write s.ch2.freq ++
          z.u8.write s.ch0.wshift ++ z.u8.write s.ch1.wshift ++ z.u8.write s.ch2.wshift ++
          z.u8.write s.mode ++ z.u8.write (BitVec.ofNat 8 s.jmpCount.val)) } ∧
      ram.length = 8192 ∧ (∀ i, i < 8192 → ram[i]? = some (s.ramByte i)) ∧
      (s.odTarget = none → od = 0xFFFF) ∧ (∀ x, s.odTarget = some x → od = x.setWidth 16) ∧
      (s.styAddr = none → sty = 0) ∧ (∀ x, s.styAddr = some x → sty = x.setWidth 16) ∧
      (s.jmpAddr = none → jmp = 0) ∧ (∀ x, s.jmpAddr = some x → jmp = x.setWidth 16) ∧
      (∀ (scale product : Rat) (n : Nat), RoundsTo s.cfg.carryScale scale → scale < 2 ^ 1024 →
        RoundsTo (s.carry * scale) product → 0 ≤ product → n < 2 ^ 32 → product.floor = n → carry.toNat = n)

/-- PORT_SAVE with a stamp of 2^64 or more is a CycleRange fault (rules R193, R212). -/
def Obligations.SaveFaultsOnALargeStamp : Prop :=
  ∀ s : State, 2 ^ 64 ≤ s.audioCycles ∨ 2 ^ 64 ≤ s.armCycles → exec .portSave s = .fault .cycleRange

/-- PORT_LOAD on a locked device, or of bytes whose name tag reads as another device's, returns false and changes nothing
(rules R194, R210 rows 4 and 5; decision D43). That this holds for another name whether the rest decodes or not is the
model's choice (notes/assumptions/16.md): the lines of rule R194 and item 5 of rule R215 check decodability before the
name. -/
def Obligations.LoadLeavesALockedDeviceOrAnotherNameAlone : Prop :=
  ∀ (s : State) (bytes : List Byte),
    s.locked = true ∨ (∃ name rest, s.cfg.codecs.str.read bytes = some (name, rest) ∧ name ≠ s.cfg.deviceName) →
    exec (.portLoad bytes) s = .next { s with result := .flag false }

/-- PORT_LOAD of the bytes of a snapshot with the device's name, a bank of at most 6, a count of at most 2 and offsets of
at most 0x1000, on an unlocked device, restores every field of rule R195, switches the bank, sets bank-changed and returns
true; the image, the lock, the configuration and the model's own queues keep their values. An address of 0 or a count of 0
leaves the intercept disarmed (rules R194, R199; decisions D41 to D43). -/
def Obligations.LoadRestoresTheSnapshot : Prop :=
  ∀ (s : State) (f : Snapshot), s.locked = false → f.ram.length = 8192 → f.name = s.cfg.deviceName →
    f.bank.toNat ≤ 6 → f.jmpCount.toNat ≤ 2 → f.sty.toNat ≤ 0x1000 → f.jmp.toNat ≤ 0x1000 →
    ∃ t : State, exec (.portLoad (encodeSnapshot s.cfg.codecs f)) s = .next t ∧
      t = { t with
        cfg := s.cfg, img := s.img, locked := false, inRun := s.inRun, input := s.input, inbox := s.inbox,
        out := s.out, draws := s.draws, bankChanged := true, result := .flag true } ∧
      t.bank.val = f.bank.toNat ∧ (∀ i, i < 8192 → f.ram[i]? = some (t.ramByte i)) ∧
      t.odTarget = (if f.od = 0xFFFF then none else some (f.od.extractLsb' 0 8)) ∧
      t.styAddr = (if f.sty = 0 then none else some (f.sty.setWidth 13)) ∧
      t.jmpAddr = (if f.jmp = 0 ∨ f.jmpCount = 0 then none else some (f.jmp.setWidth 13)) ∧
      t.jmpCount.val = (if f.jmp = 0 then 0 else f.jmpCount.toNat) ∧
      t.audioCycles = f.audioCycles.toNat ∧ t.armCycles = f.armCycles.toNat ∧
      (∀ scale : Rat, RoundsTo s.cfg.carryScale scale → scale < 2 ^ 1024 → RoundsTo (f.carry.toNat / scale) t.carry) ∧
      t.ch0 = ⟨f.counter0, f.freq0, f.wshift0⟩ ∧ t.ch1 = ⟨f.counter1, f.freq1, f.wshift1⟩ ∧
      t.ch2 = ⟨f.counter2, f.freq2, f.wshift2⟩ ∧ t.mode = f.mode

/-- PORT_LOAD, unlocked, of undecodable bytes whose name tag does not read as another device's (for one that does:
notes/assumptions/16.md), or of a snapshot with the device's name and a bank above 6, a count above 2 or an offset above
0x1000, returns false and keeps the image, the lock and the configuration (rules R194, R210 row 6; decision D43; that such
an offset is out of range, by the ranges of rules R28 and R29, is the model's reading: notes/assumptions/9.md). Of the rest,
which is drawn, only two things are said, and they are the model's choice (notes/assumptions/12.md; rules R28, R29): an
intercept address is there exactly where the count is not 0, and the offsets lie in 1..0x1000. -/
def Obligations.LoadOfABadSnapshotReturnsFalse : Prop :=
  ∀ (s : State) (bytes : List Byte), s.locked = false →
    (decodeSnapshot s.cfg.codecs bytes = none ∧
        ∀ name rest, s.cfg.codecs.str.read bytes = some (name, rest) → name = s.cfg.deviceName) ∨
      (∃ f, decodeSnapshot s.cfg.codecs bytes = some f ∧ f.name = s.cfg.deviceName ∧
        (6 < f.bank.toNat ∨ 2 < f.jmpCount.toNat ∨ 0x1000 < f.sty.toNat ∨ 0x1000 < f.jmp.toNat)) →
    ∃ t : State, exec (.portLoad bytes) s = .next t ∧ t.result = .flag false ∧ t.img = s.img ∧ t.locked = false ∧
      t.cfg = s.cfg ∧ (t.jmpAddr = none ↔ t.jmpCount = 0) ∧ offsetOk t.jmpAddr ∧ offsetOk t.styAddr

/-- Saving and loading at once restores every field but the carry, from every state that meets the invariant, is not
locked and has stamps below 2^64: the load returns true, and bank, DeviceRAM, capture state, stamps, channels, mode and
intercept are as they were (rules R194, R199; source property T2). -/
def Obligations.LoadOfSaveRestoresTheState : Prop :=
  ∀ s : State, s.Inv → s.locked = false → s.audioCycles < 2 ^ 64 → s.armCycles < 2 ^ 64 →
    ∃ (t u : State) (bytes : List Byte), exec .portSave s = .next t ∧ t.result = .snapshot bytes ∧
      exec (.portLoad bytes) t = .next u ∧ u.result = .flag true ∧
      u.bank = s.bank ∧ (∀ i, i < 8192 → u.ramByte i = s.ramByte i) ∧ s.ImgSame u ∧
      u.odTarget = s.odTarget ∧ u.styAddr = s.styAddr ∧ u.jmpAddr = s.jmpAddr ∧ u.jmpCount = s.jmpCount ∧
      u.audioCycles = s.audioCycles ∧ u.armCycles = s.armCycles ∧
      u.ch0 = s.ch0 ∧ u.ch1 = s.ch1 ∧ u.ch2 = s.ch2 ∧ u.mode = s.mode ∧ u.locked = s.locked

/-! Reset and creation. -/

/-- PORT_RESET on an unlocked device: bank 6, mode 0xFF, the captures none, the shifts 27, both stamps at `hostCycles`, the
carry 0, bank-changed set, the first 0x800 bytes of DeviceRAM those of the image, and the image, the lock and the
configuration as they were; counters, frequencies and display bytes are free values (rules R42, R230, R232; decisions
D9, D10, D45 to D49). -/
def Obligations.PortResetSetsTheResetValues : Prop :=
  ∀ s : State, s.locked = false → ∃ t : State, exec .portReset s = .next t ∧
    t = { s with
      ram := t.ram, ramFreeFrom := t.ramFreeFrom, ramEpoch := t.ramEpoch, bank := 6, mode := 0xFF, bankChanged := true,
      jmpAddr := none, jmpCount := 0, styAddr := none, odTarget := none, ch0 := t.ch0, ch1 := t.ch1, ch2 := t.ch2,
      audioCycles := s.input.hostCycles, armCycles := s.input.hostCycles, carry := 0, draws := t.draws,
      result := .unit } ∧
    (∀ i, i < 0x800 → t.ramByte i = s.imgByte i) ∧ ∀ c : Fin 3, (t.channel c).wshift = 27

/-- PORT_RESET on a locked device is refused (rules R213, R230; decision D49). -/
def Obligations.PortResetIsRefusedWhileLocked : Prop :=
  ∀ s : State, s.locked = true → exec .portReset s = .refused .resetWhileLocked

/-- The state after reset holds the values of rule R42 that the spec states: bank 6, mode 0xFF, unlocked, bank-changed, no
capture, shifts 27, equal stamps, carry 0, and the driver copy in DeviceRAM. The image, the configuration and host cycle 0
are the model's choice (notes/assumptions/1.md and 2.md). -/
def Obligations.ResetStateHoldsTheResetValues : Prop :=
  State.reset.bank = 6 ∧ State.reset.mode = 0xFF ∧ State.reset.locked = false ∧ State.reset.bankChanged = true ∧
  State.reset.jmpAddr = none ∧ State.reset.jmpCount = 0 ∧ State.reset.styAddr = none ∧ State.reset.odTarget = none ∧
  (∀ c : Fin 3, (State.reset.channel c).wshift = 27) ∧ State.reset.carry = 0 ∧
  State.reset.audioCycles = State.reset.armCycles ∧
  (∀ i, i < 0x800 → State.reset.ramByte i = State.reset.imgByte i)

/-- Creation is refused as BadLayout exactly where the table constraint of rule R10 fails, the image is not 32768 bytes
(rules R10, R213, R231; decision D54), or `CARRY_SCALE` is 0, which rule R10 does not allow and of which no rule says what
becomes (a refusal is the model's choice, notes/assumptions/19.md); otherwise the image is IMAGE_INIT and the device
unlocked. -/
def Obligations.CreationRefusesABadLayout : Prop :=
  ∀ (c : Config) (image : List Byte) (i : Input) (good : Prop),
    (good ↔ c.ptrOff % 4 = 0 ∧ c.incOff % 4 = 0 ∧ c.mapOff % 4 = 0 ∧ c.waveOff % 4 = 0 ∧
      c.ptrOff + 72 ≤ c.incOff ∧ c.incOff + 72 ≤ c.mapOff ∧ c.mapOff + 148 ≤ c.waveOff ∧ c.waveOff + 12 ≤ 0x800 ∧
      0 < c.carryScale ∧ image.length = 32768) →
    (¬ good → create c image i = .refused .badLayout) ∧
    (good → ∃ t : State, create c image i = .next t ∧ t.cfg = c ∧ t.locked = false ∧
      (∀ j, j < 32768 → image[j]? = some (t.imgByte j)) ∧ (∀ j, j < 0x800 → t.ramByte j = t.imgByte j) ∧ t.Inv)

/-- `State.reset` is the device as rule R231 creates it from the default configuration and an image of zeros at host cycle
0 (the model's choice of both: notes/assumptions/1.md and 2.md). -/
def Obligations.CreationFromZerosGivesTheResetState : Prop :=
  create Config.default (List.replicate 32768 0) Input.idle = .next State.reset

/-! The whole machine. -/

/-- The state after reset meets the invariant. -/
def Obligations.ResetStateMeetsTheInvariant : Prop :=
  State.reset.Inv

/-- Every step keeps the invariant: the layout constraint, both memories in canonical form, the intercept's address and count
in step (rule R28), captured offsets in 1..0x1000 (rules R28, R29), a finite binary64 carry (rule R32), and no run left in
progress. Where a failed load draws the carry and the offsets, that it is finite and they are in range is the model's
choice (notes/assumptions/12.md), and a load that holds a larger offset fails (notes/assumptions/9.md). From every state
that meets it, not only from reset. -/
def Obligations.StepKeepsTheInvariant : Prop :=
  ∀ s t : State, s.Inv → step s = .next t → t.Inv

/-- No operation but PORT_PATCH changes a byte of the image, and none changes the configuration (rules R22, R41, R121). -/
def Obligations.OnlyPatchWritesTheImage : Prop :=
  ∀ (i : Instr) (s t : State), exec i s = .next t →
    t.cfg = s.cfg ∧ ((∀ addr v, i ≠ .portPatch addr v) → s.ImgSame t)

/-- While the device is locked no operation changes the bank, and no operation but PORT_UNLOCK changes the lock; unlocked,
no operation but PORT_LOCK does (rules R24, R26, R190, R194; source property T1). -/
def Obligations.LockedDeviceKeepsItsBank : Prop :=
  ∀ (i : Instr) (s t : State), exec i s = .next t →
    (s.locked = true → t.bank = s.bank ∧ (t.locked = false → i = .portUnlock)) ∧
    (s.locked = false → t.locked = true → i = .portLock)

/-- The mode byte is written by WRITE_SETMODE, PORT_LOAD and PORT_RESET and by no other operation (rules R25, R230). -/
def Obligations.OnlySetmodeLoadAndResetWriteTheMode : Prop :=
  ∀ (i : Instr) (s t : State), exec i s = .next t → t.mode ≠ s.mode →
    (∃ d, i = .writeSetmode d) ∨ (∃ x, i = .portLoad x) ∨ i = .portReset

/-- The operations that store to no memory leave every byte of DeviceRAM and of the image as it was: peripheral reads, the window
writes but DSWRITE, DSPTR and CALLFN, the callbacks, and the port operations but PATCH, LOAD and RESET (rules
R101 to R103, R121 to R124, R170 to R173, R180, R190, R193, R196 to R198). -/
def Obligations.OperationsWithoutAStoreKeepMemory : Prop :=
  ∀ (i : Instr) (s t : State), storesNothing i = true → exec i s = .next t → s.RamSame t ∧ s.ImgSame t
end

