-- ==== Sys2Proof/Laws/Memory.lean ====
section
/-! SUPPORT. The laws of the memories: read after write, the frame of a write, and the canonical form. -/

namespace Sys2Proof.Machine

@[simp] theorem Memory.find_nil (a : Nat) : Memory.find [] a = none := rfl

theorem Memory.find_cons (b : Nat) (w : Byte) (m : Memory) (a : Nat) :
    Memory.find ((b, w) :: m) a = if b = a then some w else Memory.find m a := rfl

@[simp] theorem Memory.find_put_same (m : Memory) (a : Nat) (v : Byte) : (m.put a v).find a = some v := by
  induction m with
  | nil => simp [Memory.put, Memory.find]
  | cons c m ih =>
    obtain ⟨b, w⟩ := c
    simp only [Memory.put]
    split
    · next h => simp [Memory.find, Nat.ne_of_lt h, ih]
    · split <;> simp [Memory.find]

theorem Memory.find_put_other (m : Memory) {a b : Nat} (v : Byte) (h : a ≠ b) :
    (m.put a v).find b = m.find b := by
  induction m with
  | nil => simp [Memory.put, Memory.find, h]
  | cons c m ih =>
    obtain ⟨x, w⟩ := c
    simp only [Memory.put]
    split
    · simp [Memory.find, ih]
    · split
      · next h1 => subst h1; simp [Memory.find, h]
      · simp [Memory.find, h]

@[simp] theorem Memory.find_drop_same (m : Memory) (a : Nat) : (m.drop a).find a = none := by
  unfold Memory.drop
  induction m with
  | nil => rfl
  | cons c m ih =>
    obtain ⟨b, w⟩ := c
    by_cases h : b = a
    · simpa [h] using ih
    · simpa [List.filter_cons, h, Memory.find] using ih

theorem Memory.find_drop_other (m : Memory) {a b : Nat} (h : a ≠ b) : (m.drop a).find b = m.find b := by
  unfold Memory.drop
  induction m with
  | nil => rfl
  | cons c m ih =>
    obtain ⟨x, w⟩ := c
    by_cases hx : x = a
    · subst hx
      simpa [Memory.find, h] using ih
    · simp only [List.filter_cons, ne_eq, hx, not_false_eq_true, decide_true, ite_true, Memory.find, ih]

/-- A write is read back: as the byte written, or as an unlisted 0. -/
theorem Memory.find_store_same (z : Nat) (m : Memory) (a : Nat) (v : Byte) :
    (m.store z a v).find a = if a < z ∧ v = 0 then none else some v := by
  unfold Memory.store
  split <;> simp

/-- A write leaves every other address alone. -/
theorem Memory.find_store_other (z : Nat) (m : Memory) {a b : Nat} (v : Byte) (h : a ≠ b) :
    (m.store z a v).find b = m.find b := by
  unfold Memory.store
  split
  · exact Memory.find_drop_other m h
  · exact Memory.find_put_other m v h

theorem Memory.find_below (m : Memory) (n a : Nat) :
    (m.below n).find a = if a < n then m.find a else none := by
  unfold Memory.below
  induction m with
  | nil => simp
  | cons c m ih =>
    obtain ⟨b, w⟩ := c
    by_cases hb : b < n
    · rw [List.filter_cons_of_pos (by simpa using hb), Memory.find_cons, Memory.find_cons, ih]
      by_cases hba : b = a
      · subst hba; simp [hb]
      · simp [hba]
    · rw [List.filter_cons_of_neg (by simpa using hb), Memory.find_cons, ih]
      by_cases hba : b = a
      · subst hba; simp [hb]
      · simp [hba]

theorem Memory.find_ofBytes (z : Nat) (bs : List Byte) (a i : Nat) :
    (Memory.ofBytes z a bs).find i =
      if a ≤ i then (bs[i - a]?).bind (fun v => if i < z ∧ v = 0 then none else some v) else none := by
  induction bs generalizing a with
  | nil => simp [Memory.ofBytes]
  | cons v bs ih =>
    rw [Memory.ofBytes]
    by_cases hi : a = i
    · subst hi
      by_cases hc : a < z ∧ v = 0
      · rw [if_pos hc, ih]; simp [hc]
      · rw [if_neg hc, Memory.find_cons, if_pos rfl, if_pos (Nat.le_refl a)]
        simp only [Nat.sub_self, List.getElem?_cons_zero, Option.bind_some, if_neg hc]
    · have hrest : (Memory.ofBytes z (a + 1) bs).find i = if a ≤ i then
          ((v :: bs)[i - a]?).bind (fun v => if i < z ∧ v = 0 then none else some v) else none := by
        rw [ih]
        by_cases hle : a ≤ i
        · have hs : i - a = (i - (a + 1)) + 1 := by omega
          rw [if_pos (by omega : a + 1 ≤ i), if_pos hle, hs, List.getElem?_cons_succ]
        · rw [if_neg (by omega : ¬ a + 1 ≤ i), if_neg hle]
      by_cases hc : a < z ∧ v = 0
      · rw [if_pos hc, hrest]
      · rw [if_neg hc, Memory.find_cons, if_neg hi, hrest]

/-! The canonical form. -/

theorem Memory.wfFrom_mono (size z : Nat) {lo lo' : Nat} (h : lo ≤ lo') (m : Memory)
    (hm : Memory.wfFrom size z lo' m = true) : Memory.wfFrom size z lo m = true := by
  cases m with
  | nil => rfl
  | cons c m =>
    obtain ⟨a, v⟩ := c
    simp only [Memory.wfFrom, Bool.and_eq_true, decide_eq_true_eq] at hm ⊢
    exact ⟨⟨⟨by omega, hm.1.1.2⟩, hm.1.2⟩, hm.2⟩

theorem Memory.wfFrom_put (size z lo : Nat) (m : Memory) (a : Nat) (v : Byte) (hlo : lo ≤ a) (ha : a < size)
    (hv : ¬(a < z ∧ v = 0)) (hm : Memory.wfFrom size z lo m = true) :
    Memory.wfFrom size z lo (m.put a v) = true := by
  have hv' : (!(decide (a < z) && v == 0)) = true := by
    simp only [Bool.not_eq_true', Bool.and_eq_false_iff, decide_eq_false_iff_not, beq_eq_false_iff_ne]
    by_cases h : a < z
    · exact .inr (fun h0 => hv ⟨h, h0⟩)
    · exact .inl h
  induction m generalizing lo with
  | nil =>
    simp only [Memory.put, Memory.wfFrom, Bool.and_eq_true, decide_eq_true_eq, and_true]
    exact ⟨⟨hlo, ha⟩, hv'⟩
  | cons c m ih =>
    obtain ⟨b, w⟩ := c
    simp only [Memory.wfFrom, Bool.and_eq_true, decide_eq_true_eq] at hm
    simp only [Memory.put]
    split
    · next h =>
      simp only [Memory.wfFrom, Bool.and_eq_true, decide_eq_true_eq]
      exact ⟨hm.1, ih (b + 1) (by omega) hm.2⟩
    · split
      · next h =>
        subst h
        simp only [Memory.wfFrom, Bool.and_eq_true, decide_eq_true_eq]
        exact ⟨⟨⟨hlo, ha⟩, hv'⟩, hm.2⟩
      · next h1 h2 =>
        simp only [Memory.wfFrom, Bool.and_eq_true, decide_eq_true_eq]
        exact ⟨⟨⟨hlo, ha⟩, hv'⟩, ⟨⟨by omega, hm.1.1.2⟩, hm.1.2⟩, hm.2⟩

theorem Memory.wfFrom_filter (size z lo : Nat) (m : Memory) (p : Host.Cell → Bool)
    (hm : Memory.wfFrom size z lo m = true) : Memory.wfFrom size z lo (m.filter p) = true := by
  induction m generalizing lo with
  | nil => rfl
  | cons c m ih =>
    obtain ⟨b, w⟩ := c
    simp only [Memory.wfFrom, Bool.and_eq_true, decide_eq_true_eq] at hm
    rw [List.filter_cons]
    split
    · simp only [Memory.wfFrom, Bool.and_eq_true, decide_eq_true_eq]
      exact ⟨hm.1, ih _ hm.2⟩
    · exact Memory.wfFrom_mono size z (by omega) _ (ih _ hm.2)

/-- A write inside the memory keeps the canonical form. -/
theorem Memory.wf_store (size z : Nat) (m : Memory) (a : Nat) (v : Byte) (ha : a < size)
    (hm : m.wf size z = true) : (m.store z a v).wf size z = true := by
  unfold Memory.store
  split
  · exact Memory.wfFrom_filter size z 0 m _ hm
  · next h => exact Memory.wfFrom_put size z 0 m a v (Nat.zero_le a) ha h hm

theorem Memory.wfFrom_ofBytes (size z a : Nat) (bs : List Byte) (h : a + bs.length ≤ size) :
    Memory.wfFrom size z a (Memory.ofBytes z a bs) = true := by
  induction bs generalizing a with
  | nil => rfl
  | cons v bs ih =>
    simp only [List.length_cons] at h
    rw [Memory.ofBytes]
    by_cases hc : a < z ∧ v = 0
    · rw [if_pos hc]
      exact Memory.wfFrom_mono size z (Nat.le_succ a) _ (ih (a + 1) (by omega))
    · rw [if_neg hc]
      simp only [Memory.wfFrom, Bool.and_eq_true, decide_eq_true_eq]
      refine ⟨⟨⟨Nat.le_refl a, by omega⟩, ?_⟩, ih (a + 1) (by omega)⟩
      simp only [Bool.not_eq_true', Bool.and_eq_false_iff, decide_eq_false_iff_not, beq_eq_false_iff_ne]
      by_cases h1 : a < z
      · exact .inr (fun h0 => hc ⟨h1, h0⟩)
      · exact .inl h1

/-- A memory made from bytes is in canonical form. -/
theorem Memory.wf_ofBytes (size z : Nat) (bs : List Byte) (h : bs.length ≤ size) :
    (Memory.ofBytes z 0 bs).wf size z = true :=
  Memory.wfFrom_ofBytes size z 0 bs (by omega)

/-- The driver copy of a canonical image is canonical as the start of a DeviceRAM (rule R230). -/
theorem Memory.wf_below (size z size' n : Nat) (m : Memory) (hn : n ≤ size') (hz : n ≤ z)
    (hm : m.wf size z = true) : (m.below n).wf size' n = true := by
  suffices h : ∀ lo, Memory.wfFrom size z lo m = true → Memory.wfFrom size' n lo (m.below n) = true from h 0 hm
  unfold Memory.below
  clear hm
  induction m with
  | nil => intro lo _; rfl
  | cons c m ih =>
    obtain ⟨b, w⟩ := c
    intro lo hm
    simp only [Memory.wfFrom, Bool.and_eq_true, decide_eq_true_eq] at hm
    rw [List.filter_cons]
    split
    · next hb =>
      have hb' : b < n := by simpa using hb
      simp only [Memory.wfFrom, Bool.and_eq_true, decide_eq_true_eq]
      refine ⟨⟨⟨hm.1.1.1, by omega⟩, ?_⟩, ih _ hm.2⟩
      have := hm.1.2
      simp only [Bool.not_eq_true', Bool.and_eq_false_iff, decide_eq_false_iff_not, beq_eq_false_iff_ne] at this ⊢
      rcases this with h | h
      · omega
      · exact .inr h
    · exact Memory.wfFrom_mono size' n (by omega) _ (ih _ hm.2)

end Sys2Proof.Machine
end

