-- ==== Sys2Proof/Laws/State.lean ====
section
/-! SUPPORT. Every field of the state after every named update of Machine/Ops.lean. -/

namespace Sys2Proof.Machine

variable (s : State)

/-! The fields after `ret`. -/

@[simp] theorem State.ret_cfg (r : OpResult) : (s.ret r).cfg = s.cfg := rfl
@[simp] theorem State.ret_img (r : OpResult) : (s.ret r).img = s.img := rfl
@[simp] theorem State.ret_ram (r : OpResult) : (s.ret r).ram = s.ram := rfl
@[simp] theorem State.ret_ramFreeFrom (r : OpResult) : (s.ret r).ramFreeFrom = s.ramFreeFrom := rfl
@[simp] theorem State.ret_ramEpoch (r : OpResult) : (s.ret r).ramEpoch = s.ramEpoch := rfl
@[simp] theorem State.ret_bank (r : OpResult) : (s.ret r).bank = s.bank := rfl
@[simp] theorem State.ret_mode (r : OpResult) : (s.ret r).mode = s.mode := rfl
@[simp] theorem State.ret_locked (r : OpResult) : (s.ret r).locked = s.locked := rfl
@[simp] theorem State.ret_bankChanged (r : OpResult) : (s.ret r).bankChanged = s.bankChanged := rfl
@[simp] theorem State.ret_jmpAddr (r : OpResult) : (s.ret r).jmpAddr = s.jmpAddr := rfl
@[simp] theorem State.ret_jmpCount (r : OpResult) : (s.ret r).jmpCount = s.jmpCount := rfl
@[simp] theorem State.ret_styAddr (r : OpResult) : (s.ret r).styAddr = s.styAddr := rfl
@[simp] theorem State.ret_odTarget (r : OpResult) : (s.ret r).odTarget = s.odTarget := rfl
@[simp] theorem State.ret_ch0 (r : OpResult) : (s.ret r).ch0 = s.ch0 := rfl
@[simp] theorem State.ret_ch1 (r : OpResult) : (s.ret r).ch1 = s.ch1 := rfl
@[simp] theorem State.ret_ch2 (r : OpResult) : (s.ret r).ch2 = s.ch2 := rfl
@[simp] theorem State.ret_audioCycles (r : OpResult) : (s.ret r).audioCycles = s.audioCycles := rfl
@[simp] theorem State.ret_carry (r : OpResult) : (s.ret r).carry = s.carry := rfl
@[simp] theorem State.ret_armCycles (r : OpResult) : (s.ret r).armCycles = s.armCycles := rfl
@[simp] theorem State.ret_inRun (r : OpResult) : (s.ret r).inRun = s.inRun := rfl
@[simp] theorem State.ret_input (r : OpResult) : (s.ret r).input = s.input := rfl
@[simp] theorem State.ret_inbox (r : OpResult) : (s.ret r).inbox = s.inbox := rfl
@[simp] theorem State.ret_result (r : OpResult) : (s.ret r).result = r := rfl
@[simp] theorem State.ret_out (r : OpResult) : (s.ret r).out = s.out := rfl
@[simp] theorem State.ret_draws (r : OpResult) : (s.ret r).draws = s.draws := rfl

/-! The fields after `emit`. -/

@[simp] theorem State.emit_cfg (o : Output) : (s.emit o).cfg = s.cfg := rfl
@[simp] theorem State.emit_img (o : Output) : (s.emit o).img = s.img := rfl
@[simp] theorem State.emit_ram (o : Output) : (s.emit o).ram = s.ram := rfl
@[simp] theorem State.emit_ramFreeFrom (o : Output) : (s.emit o).ramFreeFrom = s.ramFreeFrom := rfl
@[simp] theorem State.emit_ramEpoch (o : Output) : (s.emit o).ramEpoch = s.ramEpoch := rfl
@[simp] theorem State.emit_bank (o : Output) : (s.emit o).bank = s.bank := rfl
@[simp] theorem State.emit_mode (o : Output) : (s.emit o).mode = s.mode := rfl
@[simp] theorem State.emit_locked (o : Output) : (s.emit o).locked = s.locked := rfl
@[simp] theorem State.emit_bankChanged (o : Output) : (s.emit o).bankChanged = s.bankChanged := rfl
@[simp] theorem State.emit_jmpAddr (o : Output) : (s.emit o).jmpAddr = s.jmpAddr := rfl
@[simp] theorem State.emit_jmpCount (o : Output) : (s.emit o).jmpCount = s.jmpCount := rfl
@[simp] theorem State.emit_styAddr (o : Output) : (s.emit o).styAddr = s.styAddr := rfl
@[simp] theorem State.emit_odTarget (o : Output) : (s.emit o).odTarget = s.odTarget := rfl
@[simp] theorem State.emit_ch0 (o : Output) : (s.emit o).ch0 = s.ch0 := rfl
@[simp] theorem State.emit_ch1 (o : Output) : (s.emit o).ch1 = s.ch1 := rfl
@[simp] theorem State.emit_ch2 (o : Output) : (s.emit o).ch2 = s.ch2 := rfl
@[simp] theorem State.emit_audioCycles (o : Output) : (s.emit o).audioCycles = s.audioCycles := rfl
@[simp] theorem State.emit_carry (o : Output) : (s.emit o).carry = s.carry := rfl
@[simp] theorem State.emit_armCycles (o : Output) : (s.emit o).armCycles = s.armCycles := rfl
@[simp] theorem State.emit_inRun (o : Output) : (s.emit o).inRun = s.inRun := rfl
@[simp] theorem State.emit_input (o : Output) : (s.emit o).input = s.input := rfl
@[simp] theorem State.emit_inbox (o : Output) : (s.emit o).inbox = s.inbox := rfl
@[simp] theorem State.emit_result (o : Output) : (s.emit o).result = s.result := rfl
@[simp] theorem State.emit_out (o : Output) : (s.emit o).out = o :: s.out := rfl
@[simp] theorem State.emit_draws (o : Output) : (s.emit o).draws = s.draws := rfl

/-! The fields after `drew`. -/

@[simp] theorem State.drew_cfg (n : Nat) : (s.drew n).cfg = s.cfg := rfl
@[simp] theorem State.drew_img (n : Nat) : (s.drew n).img = s.img := rfl
@[simp] theorem State.drew_ram (n : Nat) : (s.drew n).ram = s.ram := rfl
@[simp] theorem State.drew_ramFreeFrom (n : Nat) : (s.drew n).ramFreeFrom = s.ramFreeFrom := rfl
@[simp] theorem State.drew_ramEpoch (n : Nat) : (s.drew n).ramEpoch = s.ramEpoch := rfl
@[simp] theorem State.drew_bank (n : Nat) : (s.drew n).bank = s.bank := rfl
@[simp] theorem State.drew_mode (n : Nat) : (s.drew n).mode = s.mode := rfl
@[simp] theorem State.drew_locked (n : Nat) : (s.drew n).locked = s.locked := rfl
@[simp] theorem State.drew_bankChanged (n : Nat) : (s.drew n).bankChanged = s.bankChanged := rfl
@[simp] theorem State.drew_jmpAddr (n : Nat) : (s.drew n).jmpAddr = s.jmpAddr := rfl
@[simp] theorem State.drew_jmpCount (n : Nat) : (s.drew n).jmpCount = s.jmpCount := rfl
@[simp] theorem State.drew_styAddr (n : Nat) : (s.drew n).styAddr = s.styAddr := rfl
@[simp] theorem State.drew_odTarget (n : Nat) : (s.drew n).odTarget = s.odTarget := rfl
@[simp] theorem State.drew_ch0 (n : Nat) : (s.drew n).ch0 = s.ch0 := rfl
@[simp] theorem State.drew_ch1 (n : Nat) : (s.drew n).ch1 = s.ch1 := rfl
@[simp] theorem State.drew_ch2 (n : Nat) : (s.drew n).ch2 = s.ch2 := rfl
@[simp] theorem State.drew_audioCycles (n : Nat) : (s.drew n).audioCycles = s.audioCycles := rfl
@[simp] theorem State.drew_carry (n : Nat) : (s.drew n).carry = s.carry := rfl
@[simp] theorem State.drew_armCycles (n : Nat) : (s.drew n).armCycles = s.armCycles := rfl
@[simp] theorem State.drew_inRun (n : Nat) : (s.drew n).inRun = s.inRun := rfl
@[simp] theorem State.drew_input (n : Nat) : (s.drew n).input = s.input := rfl
@[simp] theorem State.drew_inbox (n : Nat) : (s.drew n).inbox = s.inbox := rfl
@[simp] theorem State.drew_result (n : Nat) : (s.drew n).result = s.result := rfl
@[simp] theorem State.drew_out (n : Nat) : (s.drew n).out = s.out := rfl
@[simp] theorem State.drew_draws (n : Nat) : (s.drew n).draws = s.draws + n := rfl

/-! The fields after `ramWrite`. -/

@[simp] theorem State.ramWrite_cfg (i : Nat) (v : Byte) : (s.ramWrite i v).cfg = s.cfg := rfl
@[simp] theorem State.ramWrite_img (i : Nat) (v : Byte) : (s.ramWrite i v).img = s.img := rfl
@[simp] theorem State.ramWrite_ram (i : Nat) (v : Byte) : (s.ramWrite i v).ram = s.ram.store s.ramFreeFrom i v := rfl
@[simp] theorem State.ramWrite_ramFreeFrom (i : Nat) (v : Byte) : (s.ramWrite i v).ramFreeFrom = s.ramFreeFrom := rfl
@[simp] theorem State.ramWrite_ramEpoch (i : Nat) (v : Byte) : (s.ramWrite i v).ramEpoch = s.ramEpoch := rfl
@[simp] theorem State.ramWrite_bank (i : Nat) (v : Byte) : (s.ramWrite i v).bank = s.bank := rfl
@[simp] theorem State.ramWrite_mode (i : Nat) (v : Byte) : (s.ramWrite i v).mode = s.mode := rfl
@[simp] theorem State.ramWrite_locked (i : Nat) (v : Byte) : (s.ramWrite i v).locked = s.locked := rfl
@[simp] theorem State.ramWrite_bankChanged (i : Nat) (v : Byte) : (s.ramWrite i v).bankChanged = s.bankChanged := rfl
@[simp] theorem State.ramWrite_jmpAddr (i : Nat) (v : Byte) : (s.ramWrite i v).jmpAddr = s.jmpAddr := rfl
@[simp] theorem State.ramWrite_jmpCount (i : Nat) (v : Byte) : (s.ramWrite i v).jmpCount = s.jmpCount := rfl
@[simp] theorem State.ramWrite_styAddr (i : Nat) (v : Byte) : (s.ramWrite i v).styAddr = s.styAddr := rfl
@[simp] theorem State.ramWrite_odTarget (i : Nat) (v : Byte) : (s.ramWrite i v).odTarget = s.odTarget := rfl
@[simp] theorem State.ramWrite_ch0 (i : Nat) (v : Byte) : (s.ramWrite i v).ch0 = s.ch0 := rfl
@[simp] theorem State.ramWrite_ch1 (i : Nat) (v : Byte) : (s.ramWrite i v).ch1 = s.ch1 := rfl
@[simp] theorem State.ramWrite_ch2 (i : Nat) (v : Byte) : (s.ramWrite i v).ch2 = s.ch2 := rfl
@[simp] theorem State.ramWrite_audioCycles (i : Nat) (v : Byte) : (s.ramWrite i v).audioCycles = s.audioCycles := rfl
@[simp] theorem State.ramWrite_carry (i : Nat) (v : Byte) : (s.ramWrite i v).carry = s.carry := rfl
@[simp] theorem State.ramWrite_armCycles (i : Nat) (v : Byte) : (s.ramWrite i v).armCycles = s.armCycles := rfl
@[simp] theorem State.ramWrite_inRun (i : Nat) (v : Byte) : (s.ramWrite i v).inRun = s.inRun := rfl
@[simp] theorem State.ramWrite_input (i : Nat) (v : Byte) : (s.ramWrite i v).input = s.input := rfl
@[simp] theorem State.ramWrite_inbox (i : Nat) (v : Byte) : (s.ramWrite i v).inbox = s.inbox := rfl
@[simp] theorem State.ramWrite_result (i : Nat) (v : Byte) : (s.ramWrite i v).result = s.result := rfl
@[simp] theorem State.ramWrite_out (i : Nat) (v : Byte) : (s.ramWrite i v).out = s.out := rfl
@[simp] theorem State.ramWrite_draws (i : Nat) (v : Byte) : (s.ramWrite i v).draws = s.draws := rfl

/-! The fields after `ramWrite4`. -/

@[simp] theorem State.ramWrite4_cfg (i : Nat) (v : Word32) : (s.ramWrite4 i v).cfg = s.cfg := rfl
@[simp] theorem State.ramWrite4_img (i : Nat) (v : Word32) : (s.ramWrite4 i v).img = s.img := rfl
@[simp] theorem State.ramWrite4_ramFreeFrom (i : Nat) (v : Word32) : (s.ramWrite4 i v).ramFreeFrom = s.ramFreeFrom := rfl
@[simp] theorem State.ramWrite4_ramEpoch (i : Nat) (v : Word32) : (s.ramWrite4 i v).ramEpoch = s.ramEpoch := rfl
@[simp] theorem State.ramWrite4_bank (i : Nat) (v : Word32) : (s.ramWrite4 i v).bank = s.bank := rfl
@[simp] theorem State.ramWrite4_mode (i : Nat) (v : Word32) : (s.ramWrite4 i v).mode = s.mode := rfl
@[simp] theorem State.ramWrite4_locked (i : Nat) (v : Word32) : (s.ramWrite4 i v).locked = s.locked := rfl
@[simp] theorem State.ramWrite4_bankChanged (i : Nat) (v : Word32) : (s.ramWrite4 i v).bankChanged = s.bankChanged := rfl
@[simp] theorem State.ramWrite4_jmpAddr (i : Nat) (v : Word32) : (s.ramWrite4 i v).jmpAddr = s.jmpAddr := rfl
@[simp] theorem State.ramWrite4_jmpCount (i : Nat) (v : Word32) : (s.ramWrite4 i v).jmpCount = s.jmpCount := rfl
@[simp] theorem State.ramWrite4_styAddr (i : Nat) (v : Word32) : (s.ramWrite4 i v).styAddr = s.styAddr := rfl
@[simp] theorem State.ramWrite4_odTarget (i : Nat) (v : Word32) : (s.ramWrite4 i v).odTarget = s.odTarget := rfl
@[simp] theorem State.ramWrite4_ch0 (i : Nat) (v : Word32) : (s.ramWrite4 i v).ch0 = s.ch0 := rfl
@[simp] theorem State.ramWrite4_ch1 (i : Nat) (v : Word32) : (s.ramWrite4 i v).ch1 = s.ch1 := rfl
@[simp] theorem State.ramWrite4_ch2 (i : Nat) (v : Word32) : (s.ramWrite4 i v).ch2 = s.ch2 := rfl
@[simp] theorem State.ramWrite4_audioCycles (i : Nat) (v : Word32) : (s.ramWrite4 i v).audioCycles = s.audioCycles := rfl
@[simp] theorem State.ramWrite4_carry (i : Nat) (v : Word32) : (s.ramWrite4 i v).carry = s.carry := rfl
@[simp] theorem State.ramWrite4_armCycles (i : Nat) (v : Word32) : (s.ramWrite4 i v).armCycles = s.armCycles := rfl
@[simp] theorem State.ramWrite4_inRun (i : Nat) (v : Word32) : (s.ramWrite4 i v).inRun = s.inRun := rfl
@[simp] theorem State.ramWrite4_input (i : Nat) (v : Word32) : (s.ramWrite4 i v).input = s.input := rfl
@[simp] theorem State.ramWrite4_inbox (i : Nat) (v : Word32) : (s.ramWrite4 i v).inbox = s.inbox := rfl
@[simp] theorem State.ramWrite4_result (i : Nat) (v : Word32) : (s.ramWrite4 i v).result = s.result := rfl
@[simp] theorem State.ramWrite4_out (i : Nat) (v : Word32) : (s.ramWrite4 i v).out = s.out := rfl
@[simp] theorem State.ramWrite4_draws (i : Nat) (v : Word32) : (s.ramWrite4 i v).draws = s.draws := rfl

/-! The fields after `imgWrite`. -/

@[simp] theorem State.imgWrite_cfg (i : Nat) (v : Byte) : (s.imgWrite i v).cfg = s.cfg := rfl
@[simp] theorem State.imgWrite_img (i : Nat) (v : Byte) : (s.imgWrite i v).img = s.img.store imageSize i v := rfl
@[simp] theorem State.imgWrite_ram (i : Nat) (v : Byte) : (s.imgWrite i v).ram = s.ram := rfl
@[simp] theorem State.imgWrite_ramFreeFrom (i : Nat) (v : Byte) : (s.imgWrite i v).ramFreeFrom = s.ramFreeFrom := rfl
@[simp] theorem State.imgWrite_ramEpoch (i : Nat) (v : Byte) : (s.imgWrite i v).ramEpoch = s.ramEpoch := rfl
@[simp] theorem State.imgWrite_bank (i : Nat) (v : Byte) : (s.imgWrite i v).bank = s.bank := rfl
@[simp] theorem State.imgWrite_mode (i : Nat) (v : Byte) : (s.imgWrite i v).mode = s.mode := rfl
@[simp] theorem State.imgWrite_locked (i : Nat) (v : Byte) : (s.imgWrite i v).locked = s.locked := rfl
@[simp] theorem State.imgWrite_bankChanged (i : Nat) (v : Byte) : (s.imgWrite i v).bankChanged = s.bankChanged := rfl
@[simp] theorem State.imgWrite_jmpAddr (i : Nat) (v : Byte) : (s.imgWrite i v).jmpAddr = s.jmpAddr := rfl
@[simp] theorem State.imgWrite_jmpCount (i : Nat) (v : Byte) : (s.imgWrite i v).jmpCount = s.jmpCount := rfl
@[simp] theorem State.imgWrite_styAddr (i : Nat) (v : Byte) : (s.imgWrite i v).styAddr = s.styAddr := rfl
@[simp] theorem State.imgWrite_odTarget (i : Nat) (v : Byte) : (s.imgWrite i v).odTarget = s.odTarget := rfl
@[simp] theorem State.imgWrite_ch0 (i : Nat) (v : Byte) : (s.imgWrite i v).ch0 = s.ch0 := rfl
@[simp] theorem State.imgWrite_ch1 (i : Nat) (v : Byte) : (s.imgWrite i v).ch1 = s.ch1 := rfl
@[simp] theorem State.imgWrite_ch2 (i : Nat) (v : Byte) : (s.imgWrite i v).ch2 = s.ch2 := rfl
@[simp] theorem State.imgWrite_audioCycles (i : Nat) (v : Byte) : (s.imgWrite i v).audioCycles = s.audioCycles := rfl
@[simp] theorem State.imgWrite_carry (i : Nat) (v : Byte) : (s.imgWrite i v).carry = s.carry := rfl
@[simp] theorem State.imgWrite_armCycles (i : Nat) (v : Byte) : (s.imgWrite i v).armCycles = s.armCycles := rfl
@[simp] theorem State.imgWrite_inRun (i : Nat) (v : Byte) : (s.imgWrite i v).inRun = s.inRun := rfl
@[simp] theorem State.imgWrite_input (i : Nat) (v : Byte) : (s.imgWrite i v).input = s.input := rfl
@[simp] theorem State.imgWrite_inbox (i : Nat) (v : Byte) : (s.imgWrite i v).inbox = s.inbox := rfl
@[simp] theorem State.imgWrite_result (i : Nat) (v : Byte) : (s.imgWrite i v).result = s.result := rfl
@[simp] theorem State.imgWrite_out (i : Nat) (v : Byte) : (s.imgWrite i v).out = s.out := rfl
@[simp] theorem State.imgWrite_draws (i : Nat) (v : Byte) : (s.imgWrite i v).draws = s.draws := rfl

/-! The fields after `setChannel`. -/

@[simp] theorem State.setChannel_cfg (c : Fin 3) (x : Channel) : (s.setChannel c x).cfg = s.cfg := rfl
@[simp] theorem State.setChannel_img (c : Fin 3) (x : Channel) : (s.setChannel c x).img = s.img := rfl
@[simp] theorem State.setChannel_ram (c : Fin 3) (x : Channel) : (s.setChannel c x).ram = s.ram := rfl
@[simp] theorem State.setChannel_ramFreeFrom (c : Fin 3) (x : Channel) : (s.setChannel c x).ramFreeFrom = s.ramFreeFrom := rfl
@[simp] theorem State.setChannel_ramEpoch (c : Fin 3) (x : Channel) : (s.setChannel c x).ramEpoch = s.ramEpoch := rfl
@[simp] theorem State.setChannel_bank (c : Fin 3) (x : Channel) : (s.setChannel c x).bank = s.bank := rfl
@[simp] theorem State.setChannel_mode (c : Fin 3) (x : Channel) : (s.setChannel c x).mode = s.mode := rfl
@[simp] theorem State.setChannel_locked (c : Fin 3) (x : Channel) : (s.setChannel c x).locked = s.locked := rfl
@[simp] theorem State.setChannel_bankChanged (c : Fin 3) (x : Channel) : (s.setChannel c x).bankChanged = s.bankChanged := rfl
@[simp] theorem State.setChannel_jmpAddr (c : Fin 3) (x : Channel) : (s.setChannel c x).jmpAddr = s.jmpAddr := rfl
@[simp] theorem State.setChannel_jmpCount (c : Fin 3) (x : Channel) : (s.setChannel c x).jmpCount = s.jmpCount := rfl
@[simp] theorem State.setChannel_styAddr (c : Fin 3) (x : Channel) : (s.setChannel c x).styAddr = s.styAddr := rfl
@[simp] theorem State.setChannel_odTarget (c : Fin 3) (x : Channel) : (s.setChannel c x).odTarget = s.odTarget := rfl
@[simp] theorem State.setChannel_ch0 (c : Fin 3) (x : Channel) : (s.setChannel c x).ch0 = if c = 0 then x else s.ch0 := rfl
@[simp] theorem State.setChannel_ch1 (c : Fin 3) (x : Channel) : (s.setChannel c x).ch1 = if c = 1 then x else s.ch1 := rfl
@[simp] theorem State.setChannel_ch2 (c : Fin 3) (x : Channel) : (s.setChannel c x).ch2 = if c = 2 then x else s.ch2 := rfl
@[simp] theorem State.setChannel_audioCycles (c : Fin 3) (x : Channel) : (s.setChannel c x).audioCycles = s.audioCycles := rfl
@[simp] theorem State.setChannel_carry (c : Fin 3) (x : Channel) : (s.setChannel c x).carry = s.carry := rfl
@[simp] theorem State.setChannel_armCycles (c : Fin 3) (x : Channel) : (s.setChannel c x).armCycles = s.armCycles := rfl
@[simp] theorem State.setChannel_inRun (c : Fin 3) (x : Channel) : (s.setChannel c x).inRun = s.inRun := rfl
@[simp] theorem State.setChannel_input (c : Fin 3) (x : Channel) : (s.setChannel c x).input = s.input := rfl
@[simp] theorem State.setChannel_inbox (c : Fin 3) (x : Channel) : (s.setChannel c x).inbox = s.inbox := rfl
@[simp] theorem State.setChannel_result (c : Fin 3) (x : Channel) : (s.setChannel c x).result = s.result := rfl
@[simp] theorem State.setChannel_out (c : Fin 3) (x : Channel) : (s.setChannel c x).out = s.out := rfl
@[simp] theorem State.setChannel_draws (c : Fin 3) (x : Channel) : (s.setChannel c x).draws = s.draws := rfl

/-! The fields after `bankSwitch`. -/

@[simp] theorem State.bankSwitch_cfg (n : Fin 7) : (s.bankSwitch n).cfg = s.cfg := rfl
@[simp] theorem State.bankSwitch_img (n : Fin 7) : (s.bankSwitch n).img = s.img := rfl
@[simp] theorem State.bankSwitch_ram (n : Fin 7) : (s.bankSwitch n).ram = s.ram := rfl
@[simp] theorem State.bankSwitch_ramFreeFrom (n : Fin 7) : (s.bankSwitch n).ramFreeFrom = s.ramFreeFrom := rfl
@[simp] theorem State.bankSwitch_ramEpoch (n : Fin 7) : (s.bankSwitch n).ramEpoch = s.ramEpoch := rfl
@[simp] theorem State.bankSwitch_bank (n : Fin 7) : (s.bankSwitch n).bank = if s.locked then s.bank else n := rfl
@[simp] theorem State.bankSwitch_mode (n : Fin 7) : (s.bankSwitch n).mode = s.mode := rfl
@[simp] theorem State.bankSwitch_locked (n : Fin 7) : (s.bankSwitch n).locked = s.locked := rfl
@[simp] theorem State.bankSwitch_bankChanged (n : Fin 7) : (s.bankSwitch n).bankChanged = if s.locked then s.bankChanged else true := rfl
@[simp] theorem State.bankSwitch_jmpAddr (n : Fin 7) : (s.bankSwitch n).jmpAddr = s.jmpAddr := rfl
@[simp] theorem State.bankSwitch_jmpCount (n : Fin 7) : (s.bankSwitch n).jmpCount = s.jmpCount := rfl
@[simp] theorem State.bankSwitch_styAddr (n : Fin 7) : (s.bankSwitch n).styAddr = s.styAddr := rfl
@[simp] theorem State.bankSwitch_odTarget (n : Fin 7) : (s.bankSwitch n).odTarget = s.odTarget := rfl
@[simp] theorem State.bankSwitch_ch0 (n : Fin 7) : (s.bankSwitch n).ch0 = s.ch0 := rfl
@[simp] theorem State.bankSwitch_ch1 (n : Fin 7) : (s.bankSwitch n).ch1 = s.ch1 := rfl
@[simp] theorem State.bankSwitch_ch2 (n : Fin 7) : (s.bankSwitch n).ch2 = s.ch2 := rfl
@[simp] theorem State.bankSwitch_audioCycles (n : Fin 7) : (s.bankSwitch n).audioCycles = s.audioCycles := rfl
@[simp] theorem State.bankSwitch_carry (n : Fin 7) : (s.bankSwitch n).carry = s.carry := rfl
@[simp] theorem State.bankSwitch_armCycles (n : Fin 7) : (s.bankSwitch n).armCycles = s.armCycles := rfl
@[simp] theorem State.bankSwitch_inRun (n : Fin 7) : (s.bankSwitch n).inRun = s.inRun := rfl
@[simp] theorem State.bankSwitch_input (n : Fin 7) : (s.bankSwitch n).input = s.input := rfl
@[simp] theorem State.bankSwitch_inbox (n : Fin 7) : (s.bankSwitch n).inbox = s.inbox := rfl
@[simp] theorem State.bankSwitch_result (n : Fin 7) : (s.bankSwitch n).result = s.result := rfl
@[simp] theorem State.bankSwitch_out (n : Fin 7) : (s.bankSwitch n).out = s.out := rfl
@[simp] theorem State.bankSwitch_draws (n : Fin 7) : (s.bankSwitch n).draws = s.draws := rfl

/-! The fields after `handleCoprocFault`. -/

@[simp] theorem State.handleCoprocFault_cfg (m : String) : (s.handleCoprocFault m).cfg = s.cfg := rfl
@[simp] theorem State.handleCoprocFault_img (m : String) : (s.handleCoprocFault m).img = s.img := rfl
@[simp] theorem State.handleCoprocFault_ram (m : String) : (s.handleCoprocFault m).ram = s.ram := rfl
@[simp] theorem State.handleCoprocFault_ramFreeFrom (m : String) : (s.handleCoprocFault m).ramFreeFrom = s.ramFreeFrom := rfl
@[simp] theorem State.handleCoprocFault_ramEpoch (m : String) : (s.handleCoprocFault m).ramEpoch = s.ramEpoch := rfl
@[simp] theorem State.handleCoprocFault_bank (m : String) : (s.handleCoprocFault m).bank = s.bank := rfl
@[simp] theorem State.handleCoprocFault_mode (m : String) : (s.handleCoprocFault m).mode = s.mode := rfl
@[simp] theorem State.handleCoprocFault_locked (m : String) : (s.handleCoprocFault m).locked = s.locked := rfl
@[simp] theorem State.handleCoprocFault_bankChanged (m : String) : (s.handleCoprocFault m).bankChanged = s.bankChanged := rfl
@[simp] theorem State.handleCoprocFault_jmpAddr (m : String) : (s.handleCoprocFault m).jmpAddr = s.jmpAddr := rfl
@[simp] theorem State.handleCoprocFault_jmpCount (m : String) : (s.handleCoprocFault m).jmpCount = s.jmpCount := rfl
@[simp] theorem State.handleCoprocFault_styAddr (m : String) : (s.handleCoprocFault m).styAddr = s.styAddr := rfl
@[simp] theorem State.handleCoprocFault_odTarget (m : String) : (s.handleCoprocFault m).odTarget = s.odTarget := rfl
@[simp] theorem State.handleCoprocFault_ch0 (m : String) : (s.handleCoprocFault m).ch0 = s.ch0 := rfl
@[simp] theorem State.handleCoprocFault_ch1 (m : String) : (s.handleCoprocFault m).ch1 = s.ch1 := rfl
@[simp] theorem State.handleCoprocFault_ch2 (m : String) : (s.handleCoprocFault m).ch2 = s.ch2 := rfl
@[simp] theorem State.handleCoprocFault_audioCycles (m : String) : (s.handleCoprocFault m).audioCycles = s.audioCycles := rfl
@[simp] theorem State.handleCoprocFault_carry (m : String) : (s.handleCoprocFault m).carry = s.carry := rfl
@[simp] theorem State.handleCoprocFault_armCycles (m : String) : (s.handleCoprocFault m).armCycles = s.armCycles := rfl
@[simp] theorem State.handleCoprocFault_inRun (m : String) : (s.handleCoprocFault m).inRun = s.inRun := rfl
@[simp] theorem State.handleCoprocFault_input (m : String) : (s.handleCoprocFault m).input = s.input := rfl
@[simp] theorem State.handleCoprocFault_inbox (m : String) : (s.handleCoprocFault m).inbox = s.inbox := rfl
@[simp] theorem State.handleCoprocFault_result (m : String) : (s.handleCoprocFault m).result = s.result := rfl
@[simp] theorem State.handleCoprocFault_out (m : String) : (s.handleCoprocFault m).out = if s.input.probe then s.out else .fatalCoprocessorFault m :: s.out := rfl
@[simp] theorem State.handleCoprocFault_draws (m : String) : (s.handleCoprocFault m).draws = s.draws := rfl

end Sys2Proof.Machine
end

