-- ==== Sys2Proof/Laws/Ram.lean ====
section
/-! SUPPORT. DeviceRAM and CartridgeImage as the operations read and write them: read after write, frames,
the little-endian words, and the canonical form. -/

namespace Sys2Proof.Machine

variable (s t : State)

/-- What a byte of DeviceRAM reads as depends on the three RAM fields alone. -/
theorem State.ramByte_congr {s t : State} (h1 : t.ram = s.ram) (h2 : t.ramFreeFrom = s.ramFreeFrom)
    (h3 : t.ramEpoch = s.ramEpoch) (i : Nat) : t.ramByte i = s.ramByte i := by
  simp [State.ramByte, State.ramUnlisted, h1, h2, h3]

@[simp] theorem State.ramByte_ret (r : OpResult) (i : Nat) : (s.ret r).ramByte i = s.ramByte i := rfl
@[simp] theorem State.ramByte_emit (o : Output) (i : Nat) : (s.emit o).ramByte i = s.ramByte i := rfl
@[simp] theorem State.ramByte_drew (n i : Nat) : (s.drew n).ramByte i = s.ramByte i := rfl
@[simp] theorem State.ramByte_imgWrite (a : Nat) (v : Byte) (i : Nat) :
    (s.imgWrite a v).ramByte i = s.ramByte i := rfl
@[simp] theorem State.ramByte_bankSwitch (n : Fin 7) (i : Nat) : (s.bankSwitch n).ramByte i = s.ramByte i := rfl
@[simp] theorem State.imgByte_ret (r : OpResult) (i : Nat) : (s.ret r).imgByte i = s.imgByte i := rfl
@[simp] theorem State.imgByte_ramWrite (a : Nat) (v : Byte) (i : Nat) :
    (s.ramWrite a v).imgByte i = s.imgByte i := rfl
@[simp] theorem State.imgByte_ramWrite4 (a : Nat) (v : Word32) (i : Nat) :
    (s.ramWrite4 a v).imgByte i = s.imgByte i := rfl

/-- A byte written to DeviceRAM is read back. -/
@[simp] theorem State.ramByte_ramWrite_same (i : Nat) (v : Byte) : (s.ramWrite i v).ramByte i = v := by
  simp only [State.ramByte, State.ramWrite, State.ramUnlisted, Memory.find_store_same]
  split
  · next h => simp [h]
  · rfl

/-- A byte written to DeviceRAM leaves the others alone. -/
theorem State.ramByte_ramWrite_other {i j : Nat} (v : Byte) (h : i ≠ j) :
    (s.ramWrite i v).ramByte j = s.ramByte j := by
  show ((s.ram.store s.ramFreeFrom i v).find j).getD _ = _
  rw [Memory.find_store_other _ _ _ h]
  rfl

theorem State.ramByte_ramWrite (i j : Nat) (v : Byte) :
    (s.ramWrite i v).ramByte j = if i = j then v else s.ramByte j := by
  by_cases h : i = j
  · subst h; simp
  · rw [if_neg h, State.ramByte_ramWrite_other s v h]

/-- A word is written as its four bytes. -/
theorem State.ramWrite4_eq (i : Nat) (v : Word32) : s.ramWrite4 i v =
    (((s.ramWrite i (v.extractLsb' 0 8)).ramWrite (i + 1) (v.extractLsb' 8 8)).ramWrite (i + 2)
      (v.extractLsb' 16 8)).ramWrite (i + 3) (v.extractLsb' 24 8) := rfl

/-- A word written to DeviceRAM leaves every byte outside its slot alone. -/
theorem State.ramByte_ramWrite4_other {i j : Nat} (v : Word32) (h : j < i ∨ i + 4 ≤ j) :
    (s.ramWrite4 i v).ramByte j = s.ramByte j := by
  simp only [State.ramWrite4_eq, State.ramByte_ramWrite]
  rw [if_neg (by omega), if_neg (by omega), if_neg (by omega), if_neg (by omega)]

/-- A word written to DeviceRAM is read back. -/
@[simp] theorem State.ramRead4_ramWrite4_same (i : Nat) (v : Word32) : (s.ramWrite4 i v).ramRead4 i = v := by
  simp only [State.ramRead4, State.ramWrite4_eq, State.ramByte_ramWrite]
  simp only [Nat.add_eq_left, Nat.left_eq_add, Nat.add_left_cancel_iff, if_true, if_false,
    OfNat.ofNat_ne_zero, OfNat.ofNat_ne_one, one_ne_zero, Nat.reduceEqDiff]
  ext k hk
  simp only [BitVec.getElem_append, BitVec.getElem_extractLsb']
  split
  · simp [BitVec.getLsbD_eq_getElem hk]
  · split
    · simp [show 8 + (k - 8) = k by omega, BitVec.getLsbD_eq_getElem hk]
    · split
      · simp [show 16 + (k - 8 - 8) = k by omega, BitVec.getLsbD_eq_getElem hk]
      · simp [show 24 + (k - 8 - 8 - 8) = k by omega, BitVec.getLsbD_eq_getElem hk]

/-- A word written to DeviceRAM leaves every other word alone. -/
theorem State.ramRead4_ramWrite4_other {i j : Nat} (v : Word32) (h : j + 4 ≤ i ∨ i + 4 ≤ j) :
    (s.ramWrite4 i v).ramRead4 j = s.ramRead4 j := by
  simp only [State.ramRead4]
  rw [State.ramByte_ramWrite4_other s v (by omega), State.ramByte_ramWrite4_other s v (by omega),
    State.ramByte_ramWrite4_other s v (by omega), State.ramByte_ramWrite4_other s v (by omega)]

/-- A byte written to DeviceRAM leaves every word it is no part of alone. -/
theorem State.ramRead4_ramWrite_other {i j : Nat} (v : Byte) (h : i < j ∨ j + 4 ≤ i) :
    (s.ramWrite i v).ramRead4 j = s.ramRead4 j := by
  simp only [State.ramRead4]
  rw [State.ramByte_ramWrite_other s v (by omega), State.ramByte_ramWrite_other s v (by omega),
    State.ramByte_ramWrite_other s v (by omega), State.ramByte_ramWrite_other s v (by omega)]

/-- A byte written to CartridgeImage is read back. -/
@[simp] theorem State.imgByte_imgWrite_same {i : Nat} (v : Byte) : (s.imgWrite i v).imgByte i = v := by
  simp only [State.imgByte, State.imgWrite, Memory.find_store_same]
  split
  · next h => simp [h]
  · rfl

/-- A byte written to CartridgeImage leaves the others alone. -/
theorem State.imgByte_imgWrite_other {i j : Nat} (v : Byte) (h : i ≠ j) :
    (s.imgWrite i v).imgByte j = s.imgByte j := by
  simp only [State.imgByte, State.imgWrite, Memory.find_store_other _ _ _ h]

/-! The canonical form. -/

theorem State.ramWf_ramWrite (i : Nat) (v : Byte) (hi : i < ramSize) (h : s.ramWf = true) :
    (s.ramWrite i v).ramWf = true :=
  Memory.wf_store ramSize s.ramFreeFrom s.ram i v hi h

theorem State.ramWf_ramWrite4 (i : Nat) (v : Word32) (hi : i + 3 < ramSize) (h : s.ramWf = true) :
    (s.ramWrite4 i v).ramWf = true := by
  rw [State.ramWrite4_eq]
  refine State.ramWf_ramWrite _ _ _ (by omega) ?_
  refine State.ramWf_ramWrite _ _ _ (by omega) ?_
  refine State.ramWf_ramWrite _ _ _ (by omega) ?_
  exact State.ramWf_ramWrite _ _ _ (by omega) h

theorem State.imgWf_imgWrite (i : Nat) (v : Byte) (hi : i < imageSize) (h : s.imgWf = true) :
    (s.imgWrite i v).imgWf = true :=
  Memory.wf_store imageSize imageSize s.img i v hi h

/-- The image index of a window offset is inside the image (rule R51). -/
theorem State.romIndex_lt (a : Nat) (h : a < bankSize) : s.romIndex a < imageSize := by
  have hb := s.bank.isLt
  show 4096 + s.bank.val * 4096 + a < 32768
  have ha : a < 4096 := h
  omega

/-! The layout of the tables (00_scope.md rule R10). -/

/-- The display byte under a pointer lies in DeviceRAM, at or above `DISPLAY_BASE` (rule R141). -/
theorem displayAt_range (p : Word32) : displayBase ≤ displayAt p ∧ displayAt p < displayBase + 4096 := by
  have := (ptrInt p).isLt
  simp only [displayAt]
  omega

theorem Config.wf_bounds {c : Config} (h : c.wf = true) :
    c.ptrOff + 72 ≤ c.incOff ∧ c.incOff + 72 ≤ c.mapOff ∧ c.mapOff + 148 ≤ c.waveOff ∧
      c.waveOff + 12 ≤ displayBase := by
  simp only [Config.wf, Bool.and_eq_true, decide_eq_true_eq] at h
  exact h.1.2

end Sys2Proof.Machine
end

