-- ==== Sys2Proof/Laws/Streams.lean ====
section
/-! SUPPORT. What the DatastreamEngine's primitives can do: each changes DeviceRAM alone (an overdrive also the
capture), inside one or two places, and keeps the canonical form. -/

namespace Sys2Proof.Machine

variable (s : State)

/-- A pointer update changes nothing but DeviceRAM. -/
theorem State.setPtr_eq (k : Nat) (v : Word32) : s.setPtr k v = { s with ram := (s.setPtr k v).ram } := rfl

theorem State.ptr_setPtr_same (k : Nat) (v : Word32) : (s.setPtr k v).ptr k = v :=
  State.ramRead4_ramWrite4_same s _ v

theorem State.ramByte_setPtr_other {k j : Nat} (v : Word32) (h : j < s.ptrAt k ∨ s.ptrAt k + 4 ≤ j) :
    (s.setPtr k v).ramByte j = s.ramByte j :=
  State.ramByte_ramWrite4_other s v h

theorem State.streamAdvance_eq (k : Nat) :
    s.streamAdvance k = { s with ram := (s.streamAdvance k).ram } := rfl

theorem State.jumpStreamAdvance_eq :
    s.jumpStreamAdvance = { s with ram := s.jumpStreamAdvance.ram } := rfl

theorem State.dsWrite_eq (d : Byte) : s.dsWrite d = { s with ram := (s.dsWrite d).ram } := rfl

theorem State.dsPtr_eq (d : Byte) : s.dsPtr d = { s with ram := (s.dsPtr d).ram } := rfl

theorem State.ptr_streamAdvance (k : Nat) :
    (s.streamAdvance k).ptr k = s.ptr k + incStep (s.inc k) :=
  State.ptr_setPtr_same s k _

theorem State.ptr_jumpStreamAdvance : s.jumpStreamAdvance.ptr jumpStream = s.ptr jumpStream + oneByte :=
  State.ptr_setPtr_same s _ _

theorem State.ptr_dsPtr (d : Byte) : (s.dsPtr d).ptr commStream = dsPtrMerge (s.ptr commStream) d :=
  State.ptr_setPtr_same s _ _

/-- A pointer slot lies below the display buffer (rule R10). -/
theorem State.ptrAt_bound {s : State} (h : s.cfg.wf = true) {k : Nat} (hk : k < 18) :
    s.ptrAt k + 4 ≤ displayBase := by
  have := Config.wf_bounds h
  simp only [State.ptrAt]
  omega

/-- A map slot lies below the display buffer (rule R10). -/
theorem State.mapAt_bound {s : State} (h : s.cfg.wf = true) {m : Nat} (hm : m ≤ overdriveMapLimit) :
    s.mapAt m + 4 ≤ displayBase := by
  have := Config.wf_bounds h
  have hm' : m ≤ 0x24 := hm
  simp only [State.mapAt]
  omega

/-- A pointer slot ends before every map slot (rule R153). -/
theorem State.ptrAt_below_mapAt {s : State} (h : s.cfg.wf = true) {k m : Nat} (hk : k < 18) :
    s.ptrAt k + 4 ≤ s.mapAt m := by
  have := Config.wf_bounds h
  simp only [State.ptrAt, State.mapAt]
  omega

theorem State.overdriveStream_lt (t : Byte) : s.overdriveStream t < 16 := by
  have := ((s.map (targetSlot t)).extractLsb' 0 4).isLt
  simpa [State.overdriveStream] using this

theorem State.ramWf_setPtr {s : State} (hc : s.cfg.wf = true) {k : Nat} (hk : k < 18) (v : Word32)
    (h : s.ramWf = true) : (s.setPtr k v).ramWf = true := by
  have hb : s.ptrAt k + 4 ≤ 0x800 := State.ptrAt_bound hc hk
  exact State.ramWf_ramWrite4 s _ v (show s.ptrAt k + 3 < 8192 by omega) h

theorem State.ramWf_setMap {s : State} (hc : s.cfg.wf = true) {m : Nat} (hm : m ≤ overdriveMapLimit) (v : Word32)
    (h : s.ramWf = true) : (s.setMap m v).ramWf = true := by
  have hb : s.mapAt m + 4 ≤ 0x800 := State.mapAt_bound hc hm
  exact State.ramWf_ramWrite4 s _ v (show s.mapAt m + 3 < 8192 by omega) h

theorem State.ramWf_dsWrite {s : State} (hc : s.cfg.wf = true) (d : Byte) (h : s.ramWf = true) :
    (s.dsWrite d).ramWf = true := by
  have hr : 0x800 ≤ displayAt (s.ptr commStream) ∧ displayAt (s.ptr commStream) < 0x800 + 4096 :=
    displayAt_range _
  refine State.ramWf_setPtr (s := s.ramWrite _ _) hc (by decide) _ ?_
  exact State.ramWf_ramWrite s _ d (show _ < 8192 by omega) h

/-- An overdrive meets a target whose slot the address map has (rule R150). -/
theorem State.overdriveHit_slot {s : State} {addr : Addr} {t : Byte} (h : s.overdriveHit addr = some t) :
    s.odTarget = some t ∧ addr = t.setWidth 16 ∧ targetSlot t ≤ overdriveMapLimit := by
  unfold State.overdriveHit at h
  split at h
  · next t' ht =>
    split at h
    · next hc => cases h; exact ⟨ht, hc⟩
    · cases h
  · cases h

/-- An overdrive changes nothing but DeviceRAM and the capture. -/
theorem State.overdriveState_eq (addr : Addr) :
    s.overdriveState addr = { s with ram := (s.overdriveState addr).ram, odTarget := none } := by
  unfold State.overdriveState
  split <;> rfl

/-- Without a match an overdrive only consumes the capture. -/
theorem State.overdriveState_miss {addr : Addr} (h : s.overdriveHit addr = none) :
    s.overdriveState addr = { s with odTarget := none } := by
  simp [State.overdriveState, h]

theorem State.ramWf_overdriveState {s : State} (hc : s.cfg.wf = true) (addr : Addr) (h : s.ramWf = true) :
    (s.overdriveState addr).ramWf = true := by
  unfold State.overdriveState
  split
  · next t ht =>
    have hk : s.overdriveStream t < 18 := by have := s.overdriveStream_lt t; omega
    exact State.ramWf_setMap (s := s.streamAdvance _) hc (State.overdriveHit_slot ht).2.2 _
      (State.ramWf_setPtr hc hk _ h)
  · exact h

end Sys2Proof.Machine
end

