-- ==== Sys2Proof/Laws/Pipeline.lean ====
section
/-! SUPPORT. What the read pipeline can do: stages 0 to 4 end the read in one of three ways or go on, each with
its state written out, and a whole read does one of four things. -/

namespace Sys2Proof.Machine

variable (s : State) (a : Offset)

/-- The state in which stage 5 starts (rules R115, R116). -/
theorem stage4_eq : (s.afterLook a).disarm.latch a =
    { s with
      jmpAddr := none
      jmpCount := 0
      odTarget := if s.busStuffOn && s.styAddr == some (a.setWidth 13) then some (s.rom a) else s.odTarget
      styAddr := none
      draws := (s.afterLook a).draws } := rfl

/-- The state after a served intercept (rule R113). -/
theorem serveJump_eq : s.serveJump a =
    { s with
      ram := s.jumpStreamAdvance.ram
      jmpCount := if s.jmpCount = 2 then 1 else 0
      jmpAddr := if s.jmpCount = 2 then some (nextOffset a) else none
      result := .byte (s.streamByte jumpStream) } := rfl

theorem readFront_locked (h : s.locked = true) : readFront a s = .ended (s.ret (.byte (s.rom a))) := by
  simp [readFront, h]

theorem readFront_intercept (h : s.locked = false) (hi : s.intercepts a = true) :
    readFront a s = .ended (s.serveJump a) := by
  simp [readFront, h, hi]

theorem readFront_arms (h : s.locked = false) (hi : s.intercepts a = false) (ha : s.arms a = true) :
    readFront a s = .ended (((s.afterLook a).armJump a).ret (.byte (s.rom a))) := by
  simp [readFront, h, hi, ha]

theorem readFront_goesOn (h : s.locked = false) (hi : s.intercepts a = false) (ha : s.arms a = false) :
    readFront a s = .goesOn ((s.afterLook a).disarm.latch a) := by
  simp [readFront, h, hi, ha]

/-- Everything stages 0 to 4 can come to. -/
theorem readFront_cases :
    (s.locked = true ∧ readFront a s = .ended (s.ret (.byte (s.rom a)))) ∨
    (s.locked = false ∧ s.intercepts a = true ∧ readFront a s = .ended (s.serveJump a)) ∨
    (s.locked = false ∧ s.intercepts a = false ∧ s.arms a = true ∧
      readFront a s = .ended (((s.afterLook a).armJump a).ret (.byte (s.rom a)))) ∨
    (s.locked = false ∧ s.intercepts a = false ∧ s.arms a = false ∧
      readFront a s = .goesOn ((s.afterLook a).disarm.latch a)) := by
  cases hl : s.locked
  · cases hi : s.intercepts a
    · cases ha : s.arms a
      · exact .inr (.inr (.inr ⟨rfl, rfl, rfl, readFront_goesOn s a hl hi ha⟩))
      · exact .inr (.inr (.inl ⟨rfl, rfl, rfl, readFront_arms s a hl hi ha⟩))
    · exact .inr (.inl ⟨rfl, rfl, readFront_intercept s a hl hi⟩)
  · exact .inl ⟨rfl, readFront_locked s a hl⟩

/-- A read always completes, in one of four ways (rule R110). -/
theorem cartRead_cases (v : State → Byte) (u : State → State) :
    (s.locked = true ∧ cartRead a v u s = .next (s.ret (.byte (s.rom a)))) ∨
    (s.locked = false ∧ s.intercepts a = true ∧ cartRead a v u s = .next (s.serveJump a)) ∨
    (s.locked = false ∧ s.intercepts a = false ∧ s.arms a = true ∧
      cartRead a v u s = .next (((s.afterLook a).armJump a).ret (.byte (s.rom a)))) ∨
    (s.locked = false ∧ s.intercepts a = false ∧ s.arms a = false ∧
      cartRead a v u s = .next (((u ((s.afterLook a).disarm.latch a)).capture a
        (v ((s.afterLook a).disarm.latch a))).ret (.byte (v ((s.afterLook a).disarm.latch a))))) := by
  rcases readFront_cases s a with ⟨h, e⟩ | ⟨h, hi, e⟩ | ⟨h, hi, ha, e⟩ | ⟨h, hi, ha, e⟩
  · exact .inl ⟨h, by simp [cartRead, e]⟩
  · exact .inr (.inl ⟨h, hi, by simp [cartRead, e]⟩)
  · exact .inr (.inr (.inl ⟨h, hi, ha, by simp [cartRead, e]⟩))
  · exact .inr (.inr (.inr ⟨h, hi, ha, by simp [cartRead, e]⟩))

/-- An intercept is expected exactly where its count is not 0 and its address is the offset (rule R113). -/
theorem intercepts_iff : s.intercepts a = true ↔ s.jmpCount ≠ 0 ∧ s.jmpAddr = some (a.setWidth 13) := by
  simp [State.intercepts]

end Sys2Proof.Machine
end

