-- ==== Sys2Proof/Laws/Window.lean ====
section
/-! SUPPORT. The window reads in the words of Safety.lean: a read that stages 0 to 2 let pass goes on in `afterLatch`, a
read that they end is the same for every window read, a captured offset is in range, and what stage 6, a bank switch,
a window write and a cycle delta come to. -/

namespace Sys2Proof.Machine

variable (s : State) (a : Offset)

/-- The display byte under a pointer (rules R35, R53). -/
theorem displayAt_eq (p : Word32) : displayAt p = 0x800 + (p >>> 20).toNat := by
  have h : (ptrInt p).toNat = (p >>> 20).toNat := by
    simp only [ptrInt, BitVec.extractLsb'_toNat, BitVec.toNat_ushiftRight, Nat.shiftRight_eq_div_pow]
    have := p.isLt
    omega
  rw [displayAt, h]

theorem afterLatch_eq : (s.afterLook a).disarm.latch a = s.afterLatch a := by
  rw [stage4_eq]
  simp [State.afterLatch]

/-- A read that stages 0 to 2 let pass goes on to stage 5 in `afterLatch` (rules R112 to R116). -/
theorem readFront_readsOn {s : State} {a : Offset} (h : s.ReadsOn a) : readFront a s = .goesOn (s.afterLatch a) := by
  obtain ⟨h1, h2, h3⟩ := h
  rw [readFront_goesOn s a h1, afterLatch_eq]
  · rw [Bool.eq_false_iff, ne_eq, intercepts_iff]
    exact h2
  · rw [Bool.eq_false_iff]
    intro ha
    simp only [State.arms, State.looksAhead, Bool.and_eq_true, beq_iff_eq] at ha
    exact h3 ⟨ha.1.1.1, ha.1.1.2, ha.1.2, ha.2⟩

/-- Stage 6 where the shadow address has been cleared (rule R118). -/
theorem capture_eq {s u : State} (v : Byte) (hm : u.mode = s.mode) (hc : u.cfg = s.cfg) (hs : u.styAddr = none) :
    u.capture a v = { u with styAddr := s.shadowAfter a v } := by
  have h : (if u.busStuffOn && v == 0x84 then some (nextOffset a) else u.styAddr) = s.shadowAfter a v := by
    simp only [State.shadowAfter, State.busStuffOn, hm, hc, hs, nextOffset, Bool.and_eq_true, beq_iff_eq]
    congr
  rw [State.capture, h]

/-- A read that stages 0 to 2 let pass, as a whole (rule R110). -/
theorem cartRead_readsOn {s : State} {a : Offset} (v : State → Byte) (u : State → State) (h : s.ReadsOn a)
    (hm : (u (s.afterLatch a)).mode = s.mode) (hc : (u (s.afterLatch a)).cfg = s.cfg)
    (hs : (u (s.afterLatch a)).styAddr = none) :
    cartRead a v u s = .next { u (s.afterLatch a) with
      styAddr := s.shadowAfter a (v (s.afterLatch a))
      result := .byte (v (s.afterLatch a)) } := by
  simp only [cartRead, readFront_readsOn h, capture_eq a _ hm hc hs]
  rfl

/-- Where stages 0 to 2 end a read, they end every window read at that offset alike (rule R110). -/
theorem windowRead_ended {i : Instr} {a : Offset} {s t : State} (hi : windowRead i = some a)
    (h : readFront a s = .ended t) : exec i s = .next t := by
  have e : ∀ (v : State → Byte) (u : State → State), cartRead a v u s = .next t := by
    intro v u
    simp only [cartRead, h]
  cases i <;> simp only [windowRead, Option.some.injEq, reduceCtorEq] at hi <;> subst hi
  case readAmplitude =>
    show execReadAmplitude s = _
    unfold execReadAmplitude
    rw [h]
  all_goals exact e _ _

/-- A bank switch of an unlocked device (rule R190). -/
theorem bankSwitch_unlocked {s : State} (n : Fin 7) (h : s.locked = false) :
    s.bankSwitch n = { s with bank := n, bankChanged := true } := by
  simp only [State.bankSwitch, h, Bool.false_eq_true, if_false]

/-- A bank switch of a locked device (rules R190, R210 row 1). -/
theorem bankSwitch_locked {s : State} (n : Fin 7) (h : s.locked = true) : s.bankSwitch n = s := by
  cases s
  cases h
  rfl

/-- The capture after a window write, in the words of Safety.lean (rule R120). -/
theorem consumeCapture_eq : s.consumeCapture = { s with odTarget := s.odAfterWindowWrite } := rfl

/-- A write of a bank hotspot, unlocked (rule R124). -/
theorem cartWriteBank_unlocked {s : State} (n : Fin 7) (h : s.locked = false) :
    cartWriteBank n s = .next { s with
      bank := n, bankChanged := true, odTarget := s.odAfterWindowWrite, result := .flag true } := by
  have hl : s.consumeCapture.locked = false := h
  have hb : s.bankTakes = true := by
    rw [State.bankTakes, h]
    rfl
  rw [cartWriteBank, bankSwitch_unlocked n hl, hb]
  rfl

/-- A write of a bank hotspot, locked (rule R124). -/
theorem cartWriteBank_locked {s : State} (n : Fin 7) (h : s.locked = true) :
    cartWriteBank n s = .next { s with odTarget := s.odAfterWindowWrite, result := .flag false } := by
  have hl : s.consumeCapture.locked = true := h
  have hb : s.bankTakes = false := by
    rw [State.bankTakes, h]
    rfl
  rw [cartWriteBank, bankSwitch_locked n hl, hb]
  rfl

/-- A delta in range is accepted (rules R167, R185). -/
theorem cycleDelta_inRange {h stamp : Nat} (hd : DeltaInRange h stamp) : cycleDelta h stamp = some (h - stamp) :=
  if_pos hd

/-- Any other delta is not (rules R167, R185). -/
theorem cycleDelta_outOfRange {h stamp : Nat} (hd : ¬ DeltaInRange h stamp) : cycleDelta h stamp = none :=
  if_neg hd

/-! Captured offsets (rules R28, R29). -/

@[simp] theorem offsetOk_none : offsetOk none := fun _ h => nomatch h

theorem offsetOk_some {x : BitVec 13} (h1 : 1 ≤ x.toNat) (h2 : x.toNat ≤ 0x1000) : offsetOk (some x) := by
  intro y hy
  rw [← Option.some.inj hy]
  exact ⟨h1, h2⟩

/-- The offset after a window offset is in range. -/
theorem offsetOk_nextOffset (a : Offset) : offsetOk (some (nextOffset a)) := by
  unfold nextOffset
  apply offsetOk_some <;> bv_omega

end Sys2Proof.Machine
end

