-- ==== Sys2Proof/Laws/Audio.lean ====
section
/-! SUPPORT. The amplitude read: which way it goes, what its audio update writes, and when its result is no free value
(43_audio.md rules R160 to R167). -/

namespace Sys2Proof.Machine

variable (s : State)

/-- An amplitude read with its delta in range (rule R160). -/
theorem execReadAmplitude_inRange {s : State} (h : s.ReadsOn 0xFEE)
    (hd : DeltaInRange s.input.hostCycles s.audioCycles) :
    execReadAmplitude s =
      .next ((s.afterLatch 0xFEE).audioUpdate (s.input.hostCycles - s.audioCycles)).retAmplitude := by
  unfold execReadAmplitude
  rw [readFront_readsOn h]
  show (match cycleDelta s.input.hostCycles s.audioCycles with | some delta => _ | none => _) = _
  rw [cycleDelta_inRange hd]

/-- An amplitude read with its delta out of range (rule R167). -/
theorem execReadAmplitude_outOfRange {s : State} (h : s.ReadsOn 0xFEE)
    (hd : ¬ DeltaInRange s.input.hostCycles s.audioCycles) : execReadAmplitude s = .fault .cycleDelta := by
  unfold execReadAmplitude
  rw [readFront_readsOn h]
  show (match cycleDelta s.input.hostCycles s.audioCycles with | some delta => _ | none => _) = _
  rw [cycleDelta_outOfRange hd]

/-- Every channel advances by the same number of audio clocks (rule R162). -/
theorem channel_advanceCounters (whole : Int) (c : Fin 3) :
    (s.advanceCounters whole).channel c = (s.channel c).advance whole := by
  fin_cases c <;> rfl

theorem channel_audioUpdate (delta : Nat) (c : Fin 3) :
    (s.audioUpdate delta).channel c = (s.channel c).advance (s.wholeClocks delta) :=
  channel_advanceCounters (s.clockUpdate delta) _ c

/-- An audio update writes the stamp, the carry and the counters (rules R161, R162). -/
theorem audioUpdate_eq (delta : Nat) : s.audioUpdate delta =
    { s with
      audioCycles := s.input.hostCycles
      carry := sub64 (audioClocks delta s.carry) (round64 (s.wholeClocks delta : Rat))
      ch0 := s.ch0.advance (s.wholeClocks delta)
      ch1 := s.ch1.advance (s.wholeClocks delta)
      ch2 := s.ch2.advance (s.wholeClocks delta) } := rfl

@[simp] theorem ramByte_audioUpdate (delta i : Nat) : (s.audioUpdate delta).ramByte i = s.ramByte i := rfl
@[simp] theorem imgByte_audioUpdate (delta i : Nat) : (s.audioUpdate delta).imgByte i = s.imgByte i := rfl
@[simp] theorem wave_audioUpdate (delta c : Nat) : (s.audioUpdate delta).wave c = s.wave c := rfl
@[simp] theorem digitalOn_audioUpdate (delta : Nat) : (s.audioUpdate delta).digitalOn = s.digitalOn := rfl

/-- The amplitude is returned; where it is a draw, a free byte is. -/
theorem retAmplitude_eq : s.retAmplitude =
    { s with
      draws := s.draws + (if s.amplitude.isSome then 0 else 1)
      result := .byte (s.amplitude.getD (Config.freeByte s.draws)) } := rfl

theorem amplitude_digital {s : State} (h : s.digitalOn = true) : s.amplitude = some s.sampleAmp := by
  rw [State.amplitude, if_pos h]

theorem amplitude_voices {s : State} (h : s.digitalOn = false) : s.amplitude = s.voiceAmp := by
  rw [State.amplitude, h]
  rfl

/-- The waveform byte of a channel whose shift and index are in range (rules R163, R166). -/
theorem voiceByte_eq {s : State} {c : Fin 3} (hw : (s.channel c).wshift.toNat < 32)
    (hi : 0x800 + s.wbase c.val + (s.channel c).counter.toNat / 2 ^ (s.channel c).wshift.toNat < 8192) :
    s.voiceByte c = some (s.ramByte (0x800 + s.wbase c.val +
      (s.channel c).counter.toNat / 2 ^ (s.channel c).wshift.toNat)) := by
  simp only [State.voiceByte, Nat.shiftRight_eq_div_pow]
  exact if_neg (by rintro (h | h); exacts [absurd hw (not_lt.2 h), absurd hi (not_lt.2 h)])

end Sys2Proof.Machine
end

