-- ==== Sys2Proof/Laws/Binary64.lean ====
section
/-! SUPPORT. Rounding to binary64: what it can give, and which values it leaves alone (43_audio.md rule R161). -/

namespace Sys2Proof.Machine

/-- An exact quotient is not rounded. -/
theorem halfEven_of_dvd {n d : Nat} (hd : 0 < d) (h : d ∣ n) : halfEven n d = n / d := by
  have h0 : n % d = 0 := Nat.mod_eq_zero_of_dvd h
  unfold halfEven
  rw [h0, if_pos (by omega)]

/-- Rounding does not pass a natural number that the quotient does not pass. -/
theorem halfEven_le {n d k : Nat} (hd : 0 < d) (h : n ≤ k * d) : halfEven n d ≤ k := by
  have hq : n / d ≤ k := Nat.div_le_of_le_mul (by rw [Nat.mul_comm]; exact h)
  rcases Nat.lt_or_eq_of_le hq with hlt | heq
  · unfold halfEven
    split
    · omega
    · split
      · omega
      · have : n / d % 2 < 2 := Nat.mod_lt _ (by decide)
        omega
  · have hn : n = k * d := by
      apply Nat.le_antisymm h
      calc k * d = n / d * d := by rw [heq]
        _ ≤ n := Nat.div_mul_le_self n d
    have hdvd : d ∣ n := hn ▸ Nat.dvd_mul_left d k
    rw [halfEven_of_dvd hd hdvd, heq]

/-- The integer binary logarithm that `ulpExp` compares: `2^k ≤ n / d`. -/
theorem reaches_iff {n d : Nat} (hd : 0 < d) (k : Int) :
    (if k < 0 then decide (d ≤ n * 2 ^ (-k).toNat) else decide (d * 2 ^ k.toNat ≤ n)) = true ↔
      (2 : ℚ) ^ k ≤ (n : ℚ) / d := by
  have hd' : (0 : ℚ) < d := by exact_mod_cast hd
  rw [le_div_iff₀ hd']
  split
  · rename_i hk
    obtain ⟨m, rfl⟩ : ∃ m : Nat, k = -(m : Int) := ⟨(-k).toNat, by omega⟩
    rw [decide_eq_true_iff, neg_neg, Int.toNat_natCast, zpow_neg, zpow_natCast, inv_mul_le_iff₀ (by positivity),
      mul_comm ((2 : ℚ) ^ m)]
    exact_mod_cast Iff.rfl
  · rename_i hk
    obtain ⟨m, rfl⟩ : ∃ m : Nat, k = (m : Int) := ⟨k.toNat, by omega⟩
    rw [decide_eq_true_iff, Int.toNat_natCast, zpow_natCast, mul_comm ((2 : ℚ) ^ m)]
    exact_mod_cast Iff.rfl

/-- The exponent of the last place: not below -1074, the value below 2^53 places, and 2^52 places reached unless the
exponent is -1074. -/
theorem ulpExp_spec {n d : Nat} (hn : 0 < n) (hd : 0 < d) :
    -1074 ≤ ulpExp n d ∧ (n : ℚ) / d < 2 ^ (ulpExp n d + 53) ∧
      (ulpExp n d = -1074 ∨ (2 : ℚ) ^ (ulpExp n d + 52) ≤ (n : ℚ) / d) := by
  have hd' : (0 : ℚ) < d := by exact_mod_cast hd
  have n1 : (2 : ℚ) ^ (Nat.log2 n : Int) ≤ n := by
    rw [zpow_natCast]; exact_mod_cast Nat.log2_self_le hn.ne'
  have n2 : (n : ℚ) < 2 ^ ((Nat.log2 n : Int) + 1) := by
    have : n < 2 ^ (Nat.log2 n + 1) := Nat.lt_log2_self
    have h : ((n : ℚ)) < 2 ^ (Nat.log2 n + 1) := by exact_mod_cast this
    exact_mod_cast h
  have d1 : (2 : ℚ) ^ (Nat.log2 d : Int) ≤ d := by
    rw [zpow_natCast]; exact_mod_cast Nat.log2_self_le hd.ne'
  have d2 : (d : ℚ) < 2 ^ ((Nat.log2 d : Int) + 1) := by
    have : d < 2 ^ (Nat.log2 d + 1) := Nat.lt_log2_self
    have h : ((d : ℚ)) < 2 ^ (Nat.log2 d + 1) := by exact_mod_cast this
    exact_mod_cast h
  obtain ⟨k, hk⟩ : ∃ k : Int, k = (Nat.log2 n : Int) - (Nat.log2 d : Int) := ⟨_, rfl⟩
  have up : (n : ℚ) / d < 2 ^ (k + 1) := by
    rw [div_lt_iff₀ hd']
    calc (n : ℚ) < 2 ^ ((Nat.log2 n : Int) + 1) := n2
      _ = 2 ^ (k + 1) * 2 ^ (Nat.log2 d : Int) := by rw [← zpow_add₀ (by norm_num)]; congr 1; omega
      _ ≤ 2 ^ (k + 1) * d := by gcongr
  have lo : (2 : ℚ) ^ (k - 1) ≤ (n : ℚ) / d := by
    rw [le_div_iff₀ hd']
    calc (2 : ℚ) ^ (k - 1) * d ≤ 2 ^ (k - 1) * 2 ^ ((Nat.log2 d : Int) + 1) := by gcongr
      _ = 2 ^ (Nat.log2 n : Int) := by rw [← zpow_add₀ (by norm_num)]; congr 1; omega
      _ ≤ n := n1
  have hr := reaches_iff (n := n) hd k
  unfold ulpExp
  simp only [← hk]
  by_cases c : (if k < 0 then decide (d ≤ n * 2 ^ (-k).toNat) else decide (d * 2 ^ k.toNat ≤ n)) = true
  · rw [if_pos c]
    have h1 := hr.mp c
    refine ⟨le_max_right _ _, lt_of_lt_of_le up (zpow_le_zpow_right₀ (by norm_num) (by omega)), ?_⟩
    rcases le_total (k - 52) (-1074) with h | h
    · exact .inl (max_eq_right h)
    · right
      rw [max_eq_left h, sub_add_cancel]
      exact h1
  · rw [if_neg c]
    have h1 : (n : ℚ) / d < 2 ^ k := lt_of_not_ge fun h => c (hr.mpr h)
    refine ⟨le_max_right _ _, lt_of_lt_of_le h1 (zpow_le_zpow_right₀ (by norm_num) (by omega)), ?_⟩
    rcases le_total (k - 1 - 52) (-1074) with h | h
    · exact .inl (max_eq_right h)
    · right
      rw [max_eq_left h, sub_add_cancel]
      exact lo

/-- A rounded value is a natural number of places: the exact number of places rounded. -/
theorem roundTo_eq {n d : Nat} (hd : 0 < d) (e : Int) :
    ∃ k : Nat, roundTo n d e = k * (2 : ℚ) ^ e ∧
      (∀ b : Nat, (n : ℚ) / d ≤ b * (2 : ℚ) ^ e → k ≤ b) ∧
      (∀ b : Nat, (n : ℚ) / d = b * (2 : ℚ) ^ e → k = b) := by
  have hd' : (0 : ℚ) < d := by exact_mod_cast hd
  unfold roundTo
  split
  · rename_i he
    obtain ⟨m, rfl⟩ : ∃ m : Nat, e = -(m : Int) := ⟨(-e).toNat, by omega⟩
    rw [neg_neg, Int.toNat_natCast, zpow_neg, zpow_natCast]
    have two : (0 : ℚ) < 2 ^ m := by positivity
    refine ⟨halfEven (n * 2 ^ m) d, ?_, fun b hb => halfEven_le hd ?_, fun b hb => ?_⟩
    · rw [Rat.mkRat_eq_div, div_eq_mul_inv]
      push_cast
      rfl
    · rw [div_le_iff₀ hd', mul_right_comm, ← div_eq_mul_inv, le_div_iff₀ two] at hb
      exact_mod_cast hb
    · rw [div_eq_iff hd'.ne', mul_right_comm, ← div_eq_mul_inv, eq_div_iff two.ne'] at hb
      have h : n * 2 ^ m = b * d := by exact_mod_cast hb
      rw [h, halfEven_of_dvd hd (Nat.dvd_mul_left d b), Nat.mul_div_cancel _ hd]
  · rename_i he
    obtain ⟨m, rfl⟩ : ∃ m : Nat, e = (m : Int) := ⟨e.toNat, by omega⟩
    rw [Int.toNat_natCast, zpow_natCast]
    have hp : 0 < d * 2 ^ m := by positivity
    refine ⟨halfEven n (d * 2 ^ m), by push_cast; rfl, fun b hb => halfEven_le hp ?_, fun b hb => ?_⟩
    · rw [div_le_iff₀ hd', mul_assoc, mul_comm ((2 : ℚ) ^ m)] at hb
      exact_mod_cast hb
    · rw [div_eq_iff hd'.ne', mul_assoc, mul_comm ((2 : ℚ) ^ m)] at hb
      have h : n = b * (d * 2 ^ m) := by exact_mod_cast hb
      rw [h, halfEven_of_dvd hp (Nat.dvd_mul_left _ b), Nat.mul_div_cancel _ hp]

/-- A nonnegative number rounds to at most 2^53 places of an exponent not below -1074. -/
theorem round64_form {q : ℚ} (hq : 0 ≤ q) :
    ∃ (k : Nat) (e : Int), k ≤ 2 ^ 53 ∧ -1074 ≤ e ∧ round64 q = k * (2 : ℚ) ^ e := by
  have hnum : ¬ q.num < 0 := not_lt.mpr (Rat.num_nonneg.mpr hq)
  have hval : (q.num.natAbs : ℚ) / q.den = q := by
    have h : ((q.num.natAbs : Int) : ℚ) = q.num := by rw [Int.natAbs_of_nonneg (not_lt.mp hnum)]
    rw [Int.cast_natCast] at h
    rw [h, Rat.num_div_den]
  have hr : round64 q = roundTo q.num.natAbs q.den (ulpExp q.num.natAbs q.den) := by
    unfold round64
    simp only [if_neg hnum]
  rcases Nat.eq_zero_or_pos q.num.natAbs with h0 | hpos
  · obtain ⟨k, hk, -, hex⟩ := roundTo_eq (n := q.num.natAbs) q.den_pos (ulpExp q.num.natAbs q.den)
    have : k = 0 := hex 0 (by rw [h0]; simp)
    exact ⟨0, 0, by norm_num, by norm_num, by rw [hr, hk, this]; simp⟩
  · obtain ⟨h1, h2, -⟩ := ulpExp_spec hpos q.den_pos
    obtain ⟨k, hk, hle, -⟩ := roundTo_eq (n := q.num.natAbs) q.den_pos (ulpExp q.num.natAbs q.den)
    refine ⟨k, _, hle (2 ^ 53) ?_, h1, by rw [hr, hk]⟩
    rw [zpow_add₀ (by norm_num)] at h2
    push_cast
    rw [mul_comm]
    exact_mod_cast h2.le

/-- Fewer than 2^53 places of an exponent not below -1074 are not rounded. -/
theorem round64_exact {k : Nat} {e : Int} (hk : k < 2 ^ 53) (he : -1074 ≤ e) :
    round64 (k * (2 : ℚ) ^ e) = k * (2 : ℚ) ^ e := by
  obtain ⟨q, hqd⟩ : ∃ q : ℚ, q = k * (2 : ℚ) ^ e := ⟨_, rfl⟩
  rw [← hqd]
  have hq : 0 ≤ q := by rw [hqd]; positivity
  have hnum : ¬ q.num < 0 := not_lt.mpr (Rat.num_nonneg.mpr hq)
  have hval : (q.num.natAbs : ℚ) / q.den = q := by
    have h : ((q.num.natAbs : Int) : ℚ) = q.num := by rw [Int.natAbs_of_nonneg (not_lt.mp hnum)]
    rw [Int.cast_natCast] at h
    rw [h, Rat.num_div_den]
  have hr : round64 q = roundTo q.num.natAbs q.den (ulpExp q.num.natAbs q.den) := by
    unfold round64
    simp only [if_neg hnum]
  obtain ⟨m, hm, -, hex⟩ := roundTo_eq (n := q.num.natAbs) q.den_pos (ulpExp q.num.natAbs q.den)
  rcases Nat.eq_zero_or_pos q.num.natAbs with h0 | hpos
  · have : m = 0 := hex 0 (by rw [h0]; simp)
    rw [hr, hm, this, ← hval, h0]
    simp
  · obtain ⟨-, -, h3⟩ := ulpExp_spec hpos q.den_pos
    have hle : ulpExp q.num.natAbs q.den ≤ e := by
      rcases h3 with h | h
      · omega
      · rw [hval] at h
        have h4 : (2 : ℚ) ^ (ulpExp q.num.natAbs q.den + 52) < 2 ^ (e + 53) := by
          refine lt_of_le_of_lt (h.trans_eq hqd) ?_
          rw [zpow_add₀ (by norm_num) e, mul_comm]
          have : (k : ℚ) < 2 ^ (53 : Int) := by exact_mod_cast hk
          gcongr
        have := (zpow_lt_zpow_iff_right₀ (by norm_num : (1 : ℚ) < 2)).mp h4
        omega
    obtain ⟨j, hj⟩ : ∃ j : Nat, e = ulpExp q.num.natAbs q.den + (j : Int) := ⟨(e - ulpExp q.num.natAbs q.den).toNat, by omega⟩
    have hb : q = ((k * 2 ^ j : Nat) : ℚ) * (2 : ℚ) ^ ulpExp q.num.natAbs q.den := by
      conv_lhs => rw [hqd, hj, zpow_add₀ (by norm_num), zpow_natCast]
      push_cast
      ring
    have : m = k * 2 ^ j := hex _ (by rw [hval]; exact hb)
    rw [hr, hm, this]
    exact hb.symm

/-- A natural number of at most 2^53 is not rounded. -/
theorem round64_nat {k : Nat} (hk : k < 2 ^ 53) : round64 (k : ℚ) = k := by
  have h := round64_exact hk (e := 0) (by norm_num)
  simpa using h

/-- The form of `round64_form` with fewer than 2^53 places. -/
theorem round64_form_lt {q : ℚ} (hq : 0 ≤ q) :
    ∃ (k : Nat) (e : Int), k < 2 ^ 53 ∧ -1074 ≤ e ∧ round64 q = k * (2 : ℚ) ^ e := by
  obtain ⟨k, e, hk, he, hx⟩ := round64_form hq
  rcases Nat.lt_or_eq_of_le hk with h | h
  · exact ⟨k, e, h, he, hx⟩
  · refine ⟨2 ^ 52, e + 1, by norm_num, by omega, ?_⟩
    rw [hx, h, zpow_add₀ (by norm_num)]
    push_cast
    ring

/-- The floor of a number between an integer and the next. -/
theorem floor_eq_of {x : ℚ} {z : Int} (h1 : (z : ℚ) ≤ x) (h2 : x < z + 1) : x.floor = z := by
  apply le_antisymm
  · by_contra h
    have h3 : z + 1 ≤ x.floor := by omega
    have h4 : ((z + 1 : Int) : ℚ) ≤ x := Rat.le_floor_iff.mp h3
    push_cast at h4
    exact absurd h2 (not_lt.mpr h4)
  · exact Rat.le_floor_iff.mpr h1

/-- A rounded nonnegative number is the sum of its floor and a fraction in [0, 1), and neither is rounded. -/
theorem round64_floor_fract {q : ℚ} (hq : 0 ≤ q) :
    0 ≤ round64 q ∧ round64 ((round64 q).floor : ℚ) = (round64 q).floor ∧
      round64 (round64 q - (round64 q).floor) = round64 q - (round64 q).floor ∧
      0 ≤ round64 q - (round64 q).floor ∧ round64 q - (round64 q).floor < 1 := by
  obtain ⟨k, e, hk, he, hx⟩ := round64_form_lt hq
  have h0 : 0 ≤ round64 q := by rw [hx]; positivity
  rcases lt_or_ge e 0 with hneg | hpos
  · obtain ⟨m, rfl⟩ : ∃ m : Nat, e = -(m : Int) := ⟨(-e).toNat, by omega⟩
    have two : (0 : ℚ) < 2 ^ m := by positivity
    have hdm : (k : ℚ) = (k / 2 ^ m : Nat) * 2 ^ m + (k % 2 ^ m : Nat) := by
      exact_mod_cast (Nat.div_add_mod' k (2 ^ m)).symm
    have hlt : ((k % 2 ^ m : Nat) : ℚ) < 2 ^ m := by exact_mod_cast Nat.mod_lt k (by positivity)
    have hval : round64 q = (k / 2 ^ m : Nat) + (k % 2 ^ m : Nat) * (2 : ℚ) ^ (-(m : Int)) := by
      rw [hx, zpow_neg, zpow_natCast, hdm]
      field_simp
    have hf0 : 0 ≤ ((k % 2 ^ m : Nat) : ℚ) * (2 : ℚ) ^ (-(m : Int)) := by positivity
    have hf1 : ((k % 2 ^ m : Nat) : ℚ) * (2 : ℚ) ^ (-(m : Int)) < 1 := by
      rw [zpow_neg, zpow_natCast, ← div_eq_mul_inv, div_lt_one two]
      exact hlt
    have hfloor : (round64 q).floor = ((k / 2 ^ m : Nat) : Int) := by
      apply floor_eq_of
      · rw [hval, Int.cast_natCast]; linarith
      · rw [hval, Int.cast_natCast]; linarith
    have hsub : round64 q - ((k / 2 ^ m : Nat) : ℚ) = (k % 2 ^ m : Nat) * (2 : ℚ) ^ (-(m : Int)) := by
      rw [hval]; ring
    rw [hfloor, Int.cast_natCast, hsub]
    exact ⟨h0, round64_nat (lt_of_le_of_lt (Nat.div_le_self _ _) hk),
      round64_exact (lt_of_le_of_lt (Nat.mod_le _ _) hk) he, hf0, hf1⟩
  · obtain ⟨m, rfl⟩ : ∃ m : Nat, e = (m : Int) := ⟨e.toNat, by omega⟩
    have hval : round64 q = ((k * 2 ^ m : Nat) : Int) := by
      rw [hx, zpow_natCast]; push_cast; rfl
    have hfloor : (round64 q).floor = ((k * 2 ^ m : Nat) : Int) :=
      floor_eq_of hval.ge (by rw [hval]; linarith)
    have hex : round64 (((k * 2 ^ m : Nat) : Int) : ℚ) = ((k * 2 ^ m : Nat) : Int) := by
      have h := round64_exact hk he
      rw [zpow_natCast] at h
      push_cast
      exact h
    have hz : round64 (0 : ℚ) = 0 := by simpa using round64_nat (k := 0) (by norm_num)
    rw [hfloor, hval, sub_self, hz]
    exact ⟨by positivity, hex, rfl, le_refl 0, by norm_num⟩

/-- Rounding keeps a number nonnegative. -/
theorem round64_nonneg {q : ℚ} (hq : 0 ≤ q) : 0 ≤ round64 q := (round64_floor_fract hq).1

end Sys2Proof.Machine
end

