-- ==== Sys2Proof/Laws/Control.lean ====
section
/-! SUPPORT. What a callback and a whole coprocessor run can do (44_control.md rule R186): they change DeviceRAM, the
three audio channels, what has been put out and the result, and nothing else. -/

namespace Sys2Proof.Machine

/-- `t` differs from `s` in what the bridge may change, at most (rule R186). -/
def State.BridgeReach (s t : State) : Prop :=
  t = { s with ram := t.ram, ch0 := t.ch0, ch1 := t.ch1, ch2 := t.ch2, result := t.result, out := t.out }

theorem State.BridgeReach.refl (s : State) : s.BridgeReach s := rfl

theorem State.BridgeReach.trans {s t u : State} (h1 : s.BridgeReach t) (h2 : t.BridgeReach u) :
    s.BridgeReach u := by
  unfold State.BridgeReach at *
  rw [h2, h1]

/-- Everything a callback can do: outside a run it is refused, on a bad channel it faults, and otherwise it
answers the state `f` gives, its result returned to the bridge. -/
theorem callback_cases (channel : Word32) (s : State) (f : Fin 3 → State) (w : Fin 3 → Option Word32) :
    (s.inRun = false ∧ callback channel s f w = .refused .callbackOutsideRun) ∨
    (s.inRun = true ∧ 3 ≤ channel.toNat ∧ callback channel s f w = .fault .badChannelIndex) ∨
    (s.inRun = true ∧ ∃ c : Fin 3, c.val = channel.toNat ∧
      callback channel s f w = .next (((f c).emit (.callbackReturn (w c))).ret (.word (w c)))) := by
  unfold callback
  cases s.inRun
  · exact .inl ⟨rfl, rfl⟩
  · by_cases h : channel.toNat < 3
    · exact .inr (.inr ⟨rfl, ⟨channel.toNat, h⟩, rfl, by simp [h]⟩)
    · exact .inr (.inl ⟨rfl, by omega, by simp [h]⟩)

/-- A callback in a run on an existing channel answers the state `f` gives for it (rules R170 to R173). -/
theorem callback_next {channel : Word32} {s : State} {c : Fin 3} (hr : s.inRun = true) (hc : channel.toNat = c.val)
    (f : Fin 3 → State) (w : Fin 3 → Option Word32) :
    callback channel s f w = .next (((f c).emit (.callbackReturn (w c))).ret (.word (w c))) := by
  have h3 : channel.toNat < 3 := by omega
  have h : (⟨channel.toNat, h3⟩ : Fin 3) = c := Fin.ext hc
  simp only [callback, hr, if_true, dif_pos h3, h]

/-- Setting a channel sets that channel and no other. -/
theorem channel_setChannel (s : State) (c c' : Fin 3) (x : Channel) :
    (s.setChannel c x).channel c' = if c' = c then x else s.channel c' := by
  fin_cases c <;> fin_cases c' <;> rfl

/-- A callback stays within the bridge's reach where `f` does. -/
theorem callback_reach {channel : Word32} {s t : State} {f : Fin 3 → State} {w : Fin 3 → Option Word32}
    (hf : ∀ c, s.BridgeReach (f c)) (h : callback channel s f w = .next t) : s.BridgeReach t := by
  rcases callback_cases channel s f w with ⟨_, e⟩ | ⟨_, _, e⟩ | ⟨_, c, _, e⟩ <;> rw [e] at h
  · cases h
  · cases h
  · cases h
    exact (hf c).trans rfl

/-- A callback leaves DeviceRAM alone where `f` does. -/
theorem callback_ram {channel : Word32} {s t : State} {f : Fin 3 → State} {w : Fin 3 → Option Word32}
    (hf : ∀ c, (f c).ram = s.ram) (h : callback channel s f w = .next t) : t.ram = s.ram := by
  rcases callback_cases channel s f w with ⟨_, e⟩ | ⟨_, _, e⟩ | ⟨_, c, _, e⟩ <;> rw [e] at h
  · cases h
  · cases h
  · cases h
    exact hf c

/-- Everything a callback made by the bridge can do to the state. -/
theorem bridgeCall_reach {fn : Byte} {channel value : Word32} {s t : State}
    (h : bridgeCall fn channel value s = .next t) : s.BridgeReach t ∧ t.ram = s.ram := by
  unfold bridgeCall execCbSetFreq execCbResetCounter execCbGetCounter execCbSetWshift at h
  split at h
  · refine ⟨callback_reach ?_ h, callback_ram ?_ h⟩ <;> intro c <;> rfl
  split at h
  · refine ⟨callback_reach ?_ h, callback_ram ?_ h⟩ <;> intro c <;> rfl
  split at h
  · refine ⟨callback_reach ?_ h, callback_ram ?_ h⟩ <;> intro c <;> rfl
  split at h
  · refine ⟨callback_reach ?_ h, callback_ram ?_ h⟩ <;> intro c <;> rfl
  · cases h

/-- One action of the bridge: its reach, and the canonical form kept. -/
theorem bridgeAct_reach {x : BridgeAction} {s t : State} (h : bridgeAct x s = .next t) :
    s.BridgeReach t ∧ (s.ramWf = true → t.ramWf = true) := by
  cases x with
  | ramWrite i v =>
    simp only [bridgeAct, Host.Outcome.next.injEq] at h
    subst h
    exact ⟨rfl, State.ramWf_ramWrite s _ v i.isLt⟩
  | call fn channel value =>
    obtain ⟨hr, hm⟩ := bridgeCall_reach h
    refine ⟨hr, fun hw => ?_⟩
    rw [hr]
    simpa [State.ramWf, hm] using hw

/-- A whole run of the bridge: its reach, and the canonical form kept (rule R186). -/
theorem bridgeRun_reach (xs : List BridgeAction) {s t : State} (h : bridgeRun xs s = .next t) :
    s.BridgeReach t ∧ (s.ramWf = true → t.ramWf = true) := by
  induction xs generalizing s with
  | nil => cases h; exact ⟨rfl, id⟩
  | cons x xs ih =>
    simp only [bridgeRun] at h
    split at h
    · next u hu =>
      obtain ⟨h1, h2⟩ := bridgeAct_reach hu
      obtain ⟨h3, h4⟩ := ih h
      exact ⟨h1.trans h3, h4 ∘ h2⟩
    · cases h
    · cases h

end Sys2Proof.Machine
end

