-- ==== Sys2Proof/Laws/Coprocessor.lean ====
section
/-! SUPPORT. A whole coprocessor run: when the bridge's actions complete, what the run leaves, and where it stops
(44_control.md rules R185 to R187). -/

namespace Sys2Proof.Machine

/-- An action that rule R186 allows completes: it changes DeviceRAM, the channels and the result, and puts out at most the
return of a callback. -/
theorem bridgeAct_allowed {x : BridgeAction} {s : State} (hr : s.inRun = true) (hx : x.allowed = true) :
    ∃ (t : State) (r : List (Option Word32)), bridgeAct x s = .next t ∧ t.inRun = true ∧
      t = { s with
        ram := t.ram, ch0 := t.ch0, ch1 := t.ch1, ch2 := t.ch2, result := t.result,
        out := r.map .callbackReturn ++ s.out } := by
  cases x with
  | ramWrite i v => exact ⟨_, [], rfl, hr, rfl⟩
  | call fn ch v =>
    simp only [BridgeAction.allowed, Bool.and_eq_true, decide_eq_true_eq] at hx
    obtain ⟨hf, hc⟩ := hx
    have hn := callback_next (channel := ch) (c := ⟨ch.toNat, hc⟩) hr rfl
    have hfn : fn = 0 ∨ fn = 1 ∨ fn = 2 ∨ fn = 3 := by bv_omega
    rcases hfn with rfl | rfl | rfl | rfl
    · exact ⟨_, [none], (show bridgeAct _ s = execCbSetFreq ch v s from rfl).trans (hn _ _), hr, rfl⟩
    · exact ⟨_, [none], (show bridgeAct _ s = execCbResetCounter ch v s from rfl).trans (hn _ _), hr, rfl⟩
    · exact ⟨_, [some _], (show bridgeAct _ s = execCbGetCounter ch v s from rfl).trans (hn _ _), hr, rfl⟩
    · exact ⟨_, [none], (show bridgeAct _ s = execCbSetWshift ch v s from rfl).trans (hn _ _), hr, rfl⟩

/-- Actions that rule R186 allows complete, in any number and order. -/
theorem bridgeRun_allowed (xs : List BridgeAction) {s : State} (hr : s.inRun = true)
    (hx : ∀ x ∈ xs, x.allowed = true) :
    ∃ (t : State) (r : List (Option Word32)), bridgeRun xs s = .next t ∧
      t = { s with
        ram := t.ram, ch0 := t.ch0, ch1 := t.ch1, ch2 := t.ch2, result := t.result,
        out := r.map .callbackReturn ++ s.out } := by
  induction xs generalizing s with
  | nil => exact ⟨s, [], rfl, rfl⟩
  | cons x xs ih =>
    obtain ⟨t, r, e1, e2, e3⟩ := bridgeAct_allowed hr (hx x List.mem_cons_self)
    obtain ⟨u, r', e4, e5⟩ := ih e2 (fun y hy => hx y (List.mem_cons_of_mem x hy))
    refine ⟨u, r' ++ r, ?_, ?_⟩
    · simp only [bridgeRun, e1, e4]
    · rw [e5, e3, List.map_append, List.append_assoc]

/-- Two lists of actions are run one after the other. -/
theorem bridgeRun_append (xs ys : List BridgeAction) {s t : State} (h : bridgeRun xs s = .next t) :
    bridgeRun (xs ++ ys) s = bridgeRun ys t := by
  induction xs generalizing s with
  | nil => cases h; rfl
  | cons x xs ih =>
    rw [List.cons_append, bridgeRun] at *
    split at h
    · exact ih h
    · cases h
    · cases h

/-- What an action makes of the byte at offset `j`. -/
def BridgeAction.onByte (j : Nat) (b : Byte) : BridgeAction → Byte
  | .ramWrite i v => if i.toNat = j then v else b
  | .call _ _ _ => b

/-- What an action makes of channel `c` (rules R170 to R173). -/
def BridgeAction.onChannel (c : Fin 3) (y : Channel) : BridgeAction → Channel
  | .ramWrite _ _ => y
  | .call fn ch v =>
    if ch.toNat ≠ c.val then y
    else if fn = 0 then { y with freq := v }
    else if fn = 1 then { y with counter := 0 }
    else if fn = 3 then { y with wshift := v.setWidth 8 }
    else y

/-- A callback that changes its channel by `g` leaves every byte and every other channel. -/
theorem callback_effect {s t : State} {ch : Word32} (hr : s.inRun = true) (hc : ch.toNat < 3) (g : Channel → Channel)
    (w : Fin 3 → Option Word32) (h : callback ch s (fun c => s.setChannel c (g (s.channel c))) w = .next t) :
    t.inRun = true ∧ (∀ j, t.ramByte j = s.ramByte j) ∧
      ∀ c : Fin 3, t.channel c = if ch.toNat ≠ c.val then s.channel c else g (s.channel c) := by
  rw [callback_next (c := ⟨ch.toNat, hc⟩) hr rfl] at h
  cases h
  refine ⟨hr, fun _ => rfl, fun c => (channel_setChannel _ _ _ _).trans ?_⟩
  by_cases hh : ch.toNat = c.val
  · rw [if_pos (Fin.ext hh.symm), if_neg (not_not.2 hh), show (⟨ch.toNat, hc⟩ : Fin 3) = c from Fin.ext hh]
  · rw [if_neg (fun h => hh (congrArg Fin.val h).symm), if_pos hh]

/-- What an action that rule R186 allows does to each byte of DeviceRAM and to each channel. -/
theorem bridgeAct_effect {x : BridgeAction} {s t : State} (hr : s.inRun = true) (hx : x.allowed = true)
    (h : bridgeAct x s = .next t) :
    t.inRun = true ∧ (∀ j, t.ramByte j = x.onByte j (s.ramByte j)) ∧ ∀ c, t.channel c = x.onChannel c (s.channel c) := by
  cases x with
  | ramWrite i v =>
    cases h
    refine ⟨hr, fun j => ?_, fun _ => rfl⟩
    rw [BridgeAction.onByte]
    split
    · next hj => rw [← hj]; exact State.ramByte_ramWrite_same _ _ _
    · next hj => exact State.ramByte_ramWrite_other _ _ hj
  | call fn ch v =>
    simp only [BridgeAction.allowed, Bool.and_eq_true, decide_eq_true_eq] at hx
    obtain ⟨hf, hc⟩ := hx
    have hfn : fn = 0 ∨ fn = 1 ∨ fn = 2 ∨ fn = 3 := by bv_omega
    rcases hfn with rfl | rfl | rfl | rfl
    · exact callback_effect hr hc (fun y => { y with freq := v }) (fun _ => none) h
    · exact callback_effect hr hc (fun y => { y with counter := 0 }) (fun _ => none) h
    · have h' : execCbGetCounter ch v s = .next t := h
      rw [execCbGetCounter, callback_next (c := ⟨ch.toNat, hc⟩) hr rfl] at h'
      cases h'
      refine ⟨hr, fun _ => rfl, fun c => ?_⟩
      show s.channel c = if ch.toNat ≠ c.val then s.channel c else s.channel c
      rw [ite_self]
    · exact callback_effect hr hc (fun y => { y with wshift := v.setWidth 8 }) (fun _ => none) h

/-- What a list of actions that rule R186 allows does to each byte of DeviceRAM and to each channel: what they do one after
the other. -/
theorem bridgeRun_effect (xs : List BridgeAction) {s t : State} (hr : s.inRun = true) (hx : ∀ x ∈ xs, x.allowed = true)
    (h : bridgeRun xs s = .next t) :
    (∀ j, t.ramByte j = xs.foldl (BridgeAction.onByte j) (s.ramByte j)) ∧
      ∀ c, t.channel c = xs.foldl (BridgeAction.onChannel c) (s.channel c) := by
  induction xs generalizing s with
  | nil => cases h; exact ⟨fun _ => rfl, fun _ => rfl⟩
  | cons x xs ih =>
    rw [bridgeRun] at h
    split at h
    · next u hu =>
      obtain ⟨h1, h2, h3⟩ := bridgeAct_effect hr (hx x List.mem_cons_self) hu
      obtain ⟨h4, h5⟩ := ih h1 (fun y hy => hx y (List.mem_cons_of_mem x hy)) h
      exact ⟨fun j => by rw [h4, h2, List.foldl_cons], fun c => by rw [h5, h3, List.foldl_cons]⟩
    · cases h
    · cases h

/-- The end of a run (rules R185, R187). -/
theorem leaveRun_eq (t : State) : t.leaveRun =
    { t with inRun := false, out := fatalOutput t.input.bridge.fault t.input.probe ++ t.out } := by
  unfold State.leaveRun State.handleCoprocFault fatalOutput
  cases t.input.bridge.fault with
  | none => rfl
  | some msg =>
    simp only
    cases t.input.probe <;> rfl

/-- A run whose cycle delta is out of range (rules R185, R212). -/
theorem runCoprocessor_outOfRange {s : State} (h : ¬ DeltaInRange s.input.hostCycles s.armCycles) :
    runCoprocessor s = .fault .cycleDelta := by
  unfold runCoprocessor
  rw [cycleDelta_outOfRange h]

/-- A run whose cycle delta is in range does what the bridge does and then ends (rules R185 to R187). -/
theorem runCoprocessor_inRange {s : State} (h : DeltaInRange s.input.hostCycles s.armCycles) :
    runCoprocessor s =
      match bridgeRun s.input.bridge.actions (s.enterRun (s.input.hostCycles - s.armCycles)) with
      | .next t => .next (t.leaveRun.ret (.flag false))
      | .fault r => .fault r
      | .refused r => .refused r := by
  have e := cycleDelta_inRange h
  unfold runCoprocessor
  generalize cycleDelta s.input.hostCycles s.armCycles = x at e ⊢
  subst e
  rfl

/-- A run whose bridge's actions complete (rule R185). -/
theorem runCoprocessor_next {s t : State} (h : DeltaInRange s.input.hostCycles s.armCycles)
    (e : bridgeRun s.input.bridge.actions (s.enterRun (s.input.hostCycles - s.armCycles)) = .next t) :
    runCoprocessor s = .next (t.leaveRun.ret (.flag false)) := by
  rw [runCoprocessor_inRange h]
  generalize bridgeRun s.input.bridge.actions (s.enterRun (s.input.hostCycles - s.armCycles)) = o at e ⊢
  subst e
  rfl

/-- A run in which one of the bridge's actions faults (rule R212). -/
theorem runCoprocessor_fault {s : State} {r : Fault} (h : DeltaInRange s.input.hostCycles s.armCycles)
    (e : bridgeRun s.input.bridge.actions (s.enterRun (s.input.hostCycles - s.armCycles)) = .fault r) :
    runCoprocessor s = .fault r := by
  rw [runCoprocessor_inRange h]
  generalize bridgeRun s.input.bridge.actions (s.enterRun (s.input.hostCycles - s.armCycles)) = o at e ⊢
  subst e
  rfl

/-- A callback of the bridge on channel 3 or more (rule R174). -/
theorem bridgeCall_badChannel {fn : Byte} {ch v : Word32} {s : State} (hr : s.inRun = true) (hf : fn.toNat < 4)
    (hc : 3 ≤ ch.toNat) : bridgeCall fn ch v s = .fault .badChannelIndex := by
  have hfn : fn = 0 ∨ fn = 1 ∨ fn = 2 ∨ fn = 3 := by bv_omega
  have hn : ¬ ch.toNat < 3 := by omega
  unfold bridgeCall execCbSetFreq execCbResetCounter execCbGetCounter execCbSetWshift callback
  rcases hfn with rfl | rfl | rfl | rfl <;> simp [hr, hn]

/-- Actions that rule R186 allows, and then a callback on channel 3 or more (rules R174, R212). -/
theorem bridgeRun_badChannel (pre rest : List BridgeAction) {fn : Byte} {ch v : Word32} {s : State} (hr : s.inRun = true)
    (hp : ∀ x ∈ pre, x.allowed = true) (hf : fn.toNat < 4) (hc : 3 ≤ ch.toNat) :
    bridgeRun (pre ++ .call fn ch v :: rest) s = .fault .badChannelIndex := by
  obtain ⟨t, r, e1, e2⟩ := bridgeRun_allowed pre hr hp
  have ht : t.inRun = true := by rw [e2]; exact hr
  rw [bridgeRun_append _ _ e1]
  simp only [bridgeRun, bridgeAct, bridgeCall_badChannel ht hf hc]

/-- The run selectors run the coprocessor (rule R181). -/
theorem execWriteCallfn_run {d : Byte} {s : State} (h : d = 0xFE ∨ d = 0xFF) :
    execWriteCallfn d s = runCoprocessor s.consumeCapture := by
  rcases h with rfl | rfl <;> rfl

/-- Every other selector does nothing (rule R182). -/
theorem execWriteCallfn_other {d : Byte} {s : State} (h1 : d ≠ 0xFE) (h2 : d ≠ 0xFF) :
    execWriteCallfn d s = .next (s.consumeCapture.ret (.flag false)) := by
  have h : isRunSelector d = false := by
    simp only [isRunSelector, Bool.or_eq_false_iff, beq_eq_false_iff_ne]
    exact ⟨h1, h2⟩
  rw [execWriteCallfn, h]
  rfl

end Sys2Proof.Machine
end

