-- ==== Sys2Proof/Laws/Decode.lean ====
section
/-! SUPPORT. The decoder on each format's request, its route for each kind of address, and its row for each window
offset (30_encoding.md rules R70, R72 and R78, 40_address_decoder.md rule R100). -/

namespace Sys2Proof

/-- The two address bytes of an access word put together are the address. -/
theorem addr_of_bytes (addr : Addr) : (addr.extractLsb' 8 8 ++ addr.extractLsb' 0 8 : BitVec 16) = addr := by
  ext k hk
  simp only [BitVec.getElem_append, BitVec.getElem_extractLsb']
  split
  · simp [BitVec.getLsbD_eq_getElem hk]
  · simp [show 8 + (k - 8) = k by omega, BitVec.getLsbD_eq_getElem hk]

/-- The four bytes of a word put together are the word. -/
theorem word_of_bytes (v : Word32) :
    (v.extractLsb' 24 8 ++ v.extractLsb' 16 8 ++ v.extractLsb' 8 8 ++ v.extractLsb' 0 8 : BitVec 32) = v := by
  ext k hk
  simp only [BitVec.getElem_append, BitVec.getElem_extractLsb']
  split
  · simp [BitVec.getLsbD_eq_getElem hk]
  · split
    · simp [show 8 + (k - 8) = k by omega, BitVec.getLsbD_eq_getElem hk]
    · split
      · simp [show 16 + (k - 8 - 8) = k by omega, BitVec.getLsbD_eq_getElem hk]
      · simp [show 24 + (k - 8 - 8 - 8) = k by omega, BitVec.getLsbD_eq_getElem hk]

variable (c : Config)

theorem decode_busRead (addr : Addr) : decode c (busRead addr) = .ok (decodeRead c addr) := by
  simp [decode, busRead, decodeBus, addr_of_bytes]

theorem decode_busWrite (addr : Addr) (d : Byte) : decode c (busWrite addr d) = .ok (decodeWrite c addr d) := by
  simp [decode, busWrite, decodeBus, addr_of_bytes]

theorem decode_cbRequest (fn : Byte) (ch v : Word32) : decode c (cbRequest fn ch v) = decodeCallback fn ch v := by
  simp only [decode, cbRequest, decodeCb, word_of_bytes]

/-! The route of an address. -/

theorem decodeTarget_periphA {c : Config} {addr : Addr} (h12 : addr.getLsbD 12 = false)
    (h7 : addr.getLsbD 7 = true) : decodeTarget c addr = .periphA := by
  simp only [decodeTarget, h12, h7, Bool.false_eq_true, if_false, if_true]

theorem decodeTarget_periphB {c : Config} {addr : Addr} (h12 : addr.getLsbD 12 = false)
    (h7 : addr.getLsbD 7 = false) (h9 : addr.getLsbD 9 = c.periphBBit9) : decodeTarget c addr = .periphB := by
  simp only [decodeTarget, h12, h7, h9, Bool.false_eq_true, if_false, if_true]

theorem decodeTarget_none {c : Config} {addr : Addr} (h12 : addr.getLsbD 12 = false)
    (h7 : addr.getLsbD 7 = false) (h9 : addr.getLsbD 9 ≠ c.periphBBit9) : decodeTarget c addr = .none := by
  simp only [decodeTarget, h12, h7, if_neg h9, Bool.false_eq_true, if_false]

theorem decodeTarget_cart {c : Config} {addr : Addr} (h12 : addr.getLsbD 12 = true) :
    decodeTarget c addr = .cart (addr.setWidth 12) := by
  simp only [decodeTarget, h12, if_true]

/-- The host address of a window offset is in the window, at that offset. -/
theorem decodeTarget_windowAddr (a : Offset) : decodeTarget c (windowAddr a) = .cart a := by
  have h1 : (windowAddr a).getLsbD 12 = true := by
    unfold windowAddr
    rw [BitVec.getLsbD_append]
    rfl
  have h2 : (windowAddr a).setWidth 12 = a := by
    ext k hk
    rw [BitVec.getElem_setWidth, windowAddr, BitVec.getLsbD_append, if_pos hk,
      BitVec.getLsbD_eq_getElem hk]
  rw [decodeTarget_cart h1, h2]

/-! The row of a window offset. -/

theorem isRomOffset_ne {a : Offset} (h : isRomOffset a = true) (b : Offset) (hb : isRomOffset b = false) : a ≠ b := by
  rintro rfl
  rw [h] at hb
  cases hb

theorem decodeCartRead_rom {a : Offset} (h : isRomOffset a = true) : decodeCartRead a = .readRom a := by
  have n : ∀ b : Offset, isRomOffset b = false → a ≠ b := isRomOffset_ne h
  rw [decodeCartRead, if_neg (n 0xFEE (by decide)), if_neg (n 0xFEF (by decide)), if_neg (n 0xFF0 (by decide)),
    if_neg (n 0xFF1 (by decide)), if_neg (n 0xFF2 (by decide)), if_neg (n 0xFF3 (by decide)),
    if_neg (n 0xFF4 (by decide)), if_neg (n 0xFF5 (by decide)), if_neg (n 0xFF6 (by decide)),
    if_neg (n 0xFF7 (by decide)), if_neg (n 0xFF8 (by decide)), if_neg (n 0xFF9 (by decide)),
    if_neg (n 0xFFA (by decide)), if_neg (n 0xFFB (by decide))]

theorem decodeCartWrite_rom {a : Offset} (d : Byte) (h : isRomOffset a = true) :
    decodeCartWrite a d = .writeRom a d := by
  have n : ∀ b : Offset, isRomOffset b = false → a ≠ b := isRomOffset_ne h
  rw [decodeCartWrite, if_neg (n 0xFEE (by decide)), if_neg (n 0xFEF (by decide)), if_neg (n 0xFF0 (by decide)),
    if_neg (n 0xFF1 (by decide)), if_neg (n 0xFF2 (by decide)), if_neg (n 0xFF3 (by decide)),
    if_neg (n 0xFF4 (by decide)), if_neg (n 0xFF5 (by decide)), if_neg (n 0xFF6 (by decide)),
    if_neg (n 0xFF7 (by decide)), if_neg (n 0xFF8 (by decide)), if_neg (n 0xFF9 (by decide)),
    if_neg (n 0xFFA (by decide)), if_neg (n 0xFFB (by decide))]

/-- An offset that is no hotspot of rows 4 to 17 is a ROM offset. -/
theorem isRomOffset_of_ne {a : Offset} (h : ∀ k : Fin 14, a ≠ BitVec.ofNat 12 (0xFEE + k.val)) :
    isRomOffset a = true := by
  simp only [isRomOffset, Bool.or_eq_true, decide_eq_true_eq]
  by_contra hc
  have hlt := a.isLt
  refine h ⟨a.toNat - 0xFEE, by omega⟩ (BitVec.eq_of_toNat_eq ?_)
  show a.toNat = (0xFEE + (a.toNat - 0xFEE)) % 2 ^ 12
  omega

theorem wf_ite {p : Prop} [Decidable p] {x y : Instr} (hx : x.wf c = true) (hy : ¬p → y.wf c = true) :
    (if p then x else y).wf c = true := by
  split
  · exact hx
  · next h => exact hy h

/-- Every window read is well-formed (rule R78, rows 4 to 18). -/
theorem decodeCartRead_wf (a : Offset) : (decodeCartRead a).wf c = true := by
  unfold decodeCartRead
  refine wf_ite c rfl fun h0 => ?_
  refine wf_ite c rfl fun h1 => ?_
  refine wf_ite c rfl fun h2 => ?_
  refine wf_ite c rfl fun h3 => ?_
  refine wf_ite c rfl fun h4 => ?_
  refine wf_ite c rfl fun h5 => ?_
  refine wf_ite c rfl fun h6 => ?_
  refine wf_ite c rfl fun h7 => ?_
  refine wf_ite c rfl fun h8 => ?_
  refine wf_ite c rfl fun h9 => ?_
  refine wf_ite c rfl fun h10 => ?_
  refine wf_ite c rfl fun h11 => ?_
  refine wf_ite c rfl fun h12 => ?_
  refine wf_ite c rfl fun h13 => ?_
  exact isRomOffset_of_ne fun k => match k with
    | 0 => h0 | 1 => h1 | 2 => h2 | 3 => h3 | 4 => h4 | 5 => h5 | 6 => h6
    | 7 => h7 | 8 => h8 | 9 => h9 | 10 => h10 | 11 => h11 | 12 => h12 | 13 => h13

/-- Every window write is well-formed (rule R78, rows 4 to 18). -/
theorem decodeCartWrite_wf (a : Offset) (d : Byte) : (decodeCartWrite a d).wf c = true := by
  unfold decodeCartWrite
  refine wf_ite c rfl fun h0 => ?_
  refine wf_ite c rfl fun h1 => ?_
  refine wf_ite c rfl fun h2 => ?_
  refine wf_ite c rfl fun h3 => ?_
  refine wf_ite c rfl fun h4 => ?_
  refine wf_ite c rfl fun h5 => ?_
  refine wf_ite c rfl fun h6 => ?_
  refine wf_ite c rfl fun h7 => ?_
  refine wf_ite c rfl fun h8 => ?_
  refine wf_ite c rfl fun h9 => ?_
  refine wf_ite c rfl fun h10 => ?_
  refine wf_ite c rfl fun h11 => ?_
  refine wf_ite c rfl fun h12 => ?_
  refine wf_ite c rfl fun h13 => ?_
  exact isRomOffset_of_ne fun k => match k with
    | 0 => h0 | 1 => h1 | 2 => h2 | 3 => h3 | 4 => h4 | 5 => h5 | 6 => h6
    | 7 => h7 | 8 => h8 | 9 => h9 | 10 => h10 | 11 => h11 | 12 => h12 | 13 => h13

/-! A window access is routed by its offset. -/

open Machine in
/-- Every window offset has a read at it. -/
theorem windowRead_decodeCartRead (a : Offset) : windowRead (decodeCartRead a) = some a := by
  have key : ∀ {p : Prop} [Decidable p] {x y : Instr}, (p → windowRead x = some a) → (¬p → windowRead y = some a) →
      windowRead (if p then x else y) = some a := by
    intro p _ x y hx hy
    split
    · exact hx ‹_›
    · exact hy ‹_›
  unfold decodeCartRead
  iterate 14 refine key (fun h => h ▸ rfl) fun _ => ?_
  rfl

open Machine in
/-- Every window offset has a write at it. -/
theorem windowWrite_decodeCartWrite (a : Offset) (d : Byte) : windowWrite (decodeCartWrite a d) = some a := by
  have key : ∀ {p : Prop} [Decidable p] {x y : Instr}, (p → windowWrite x = some a) → (¬p → windowWrite y = some a) →
      windowWrite (if p then x else y) = some a := by
    intro p _ x y hx hy
    split
    · exact hx ‹_›
    · exact hy ‹_›
  unfold decodeCartWrite
  iterate 14 refine key (fun h => h ▸ rfl) fun _ => ?_
  rfl

end Sys2Proof
end

