-- ==== Sys2Proof/Laws/PerInstr.lean ====
section
/-! SUPPORT. Statements about every operation, one lemma per constructor of `Instr`. The family `EncodeFrame` says that
the encoder gives every operation a request with the length and the fixed bits of its format (30_encoding.md rules
R70, R72 and R73), so that the decoder never refuses it for its frame. -/

namespace Sys2Proof.Laws

/-- Four bytes with bits 23:17 zero for BUS, nine bytes for CB, anything for PORT. -/
def framed : Request → Bool
  | .bus bytes => match bytes with
    | [_, _, w2, _] => w2 == 0 || w2 == 1
    | _ => false
  | .cb bytes => bytes.length == 9
  | .port _ _ => true

/-- The encoder frames the operation. -/
def EncodeFrame.Statement (i : Instr) : Prop := framed (encode i) = true

theorem EncodeFrame.readPeriphA (addr : Addr) : EncodeFrame.Statement (.readPeriphA addr) := rfl
theorem EncodeFrame.writePeriphA (addr : Addr) (d : Byte) : EncodeFrame.Statement (.writePeriphA addr d) := rfl
theorem EncodeFrame.readPeriphB (addr : Addr) : EncodeFrame.Statement (.readPeriphB addr) := rfl
theorem EncodeFrame.writePeriphB (addr : Addr) (d : Byte) : EncodeFrame.Statement (.writePeriphB addr d) := rfl
theorem EncodeFrame.readLowNone (addr : Addr) : EncodeFrame.Statement (.readLowNone addr) := rfl
theorem EncodeFrame.writeLowNone (addr : Addr) (d : Byte) : EncodeFrame.Statement (.writeLowNone addr d) := rfl
theorem EncodeFrame.readAmplitude : EncodeFrame.Statement .readAmplitude := rfl
theorem EncodeFrame.writeRoAmplitude (d : Byte) : EncodeFrame.Statement (.writeRoAmplitude d) := rfl
theorem EncodeFrame.readDsread : EncodeFrame.Statement .readDsread := rfl
theorem EncodeFrame.writeRoDsread (d : Byte) : EncodeFrame.Statement (.writeRoDsread d) := rfl
theorem EncodeFrame.readWoDswrite : EncodeFrame.Statement .readWoDswrite := rfl
theorem EncodeFrame.writeDswrite (d : Byte) : EncodeFrame.Statement (.writeDswrite d) := rfl
theorem EncodeFrame.readWoDsptr : EncodeFrame.Statement .readWoDsptr := rfl
theorem EncodeFrame.writeDsptr (d : Byte) : EncodeFrame.Statement (.writeDsptr d) := rfl
theorem EncodeFrame.readWoSetmode : EncodeFrame.Statement .readWoSetmode := rfl
theorem EncodeFrame.writeSetmode (d : Byte) : EncodeFrame.Statement (.writeSetmode d) := rfl
theorem EncodeFrame.readWoCallfn : EncodeFrame.Statement .readWoCallfn := rfl
theorem EncodeFrame.writeCallfn (d : Byte) : EncodeFrame.Statement (.writeCallfn d) := rfl
theorem EncodeFrame.readNopFf4 : EncodeFrame.Statement .readNopFf4 := rfl
theorem EncodeFrame.writeNopFf4 (d : Byte) : EncodeFrame.Statement (.writeNopFf4 d) := rfl
theorem EncodeFrame.readBank0 : EncodeFrame.Statement .readBank0 := rfl
theorem EncodeFrame.writeBank0 (d : Byte) : EncodeFrame.Statement (.writeBank0 d) := rfl
theorem EncodeFrame.readBank1 : EncodeFrame.Statement .readBank1 := rfl
theorem EncodeFrame.writeBank1 (d : Byte) : EncodeFrame.Statement (.writeBank1 d) := rfl
theorem EncodeFrame.readBank2 : EncodeFrame.Statement .readBank2 := rfl
theorem EncodeFrame.writeBank2 (d : Byte) : EncodeFrame.Statement (.writeBank2 d) := rfl
theorem EncodeFrame.readBank3 : EncodeFrame.Statement .readBank3 := rfl
theorem EncodeFrame.writeBank3 (d : Byte) : EncodeFrame.Statement (.writeBank3 d) := rfl
theorem EncodeFrame.readBank4 : EncodeFrame.Statement .readBank4 := rfl
theorem EncodeFrame.writeBank4 (d : Byte) : EncodeFrame.Statement (.writeBank4 d) := rfl
theorem EncodeFrame.readBank5 : EncodeFrame.Statement .readBank5 := rfl
theorem EncodeFrame.writeBank5 (d : Byte) : EncodeFrame.Statement (.writeBank5 d) := rfl
theorem EncodeFrame.readBank6 : EncodeFrame.Statement .readBank6 := rfl
theorem EncodeFrame.writeBank6 (d : Byte) : EncodeFrame.Statement (.writeBank6 d) := rfl
theorem EncodeFrame.readRom (a : Offset) : EncodeFrame.Statement (.readRom a) := rfl
theorem EncodeFrame.writeRom (a : Offset) (d : Byte) : EncodeFrame.Statement (.writeRom a d) := rfl
theorem EncodeFrame.cbSetFreq (channel value : Word32) : EncodeFrame.Statement (.cbSetFreq channel value) := rfl
theorem EncodeFrame.cbResetCounter (channel value : Word32) : EncodeFrame.Statement (.cbResetCounter channel value) := rfl
theorem EncodeFrame.cbGetCounter (channel value : Word32) : EncodeFrame.Statement (.cbGetCounter channel value) := rfl
theorem EncodeFrame.cbSetWshift (channel value : Word32) : EncodeFrame.Statement (.cbSetWshift channel value) := rfl
theorem EncodeFrame.portBank (n : Nat) : EncodeFrame.Statement (.portBank n) := rfl
theorem EncodeFrame.portPatch (addr : Addr) (v : Byte) : EncodeFrame.Statement (.portPatch addr v) := rfl
theorem EncodeFrame.portLock : EncodeFrame.Statement .portLock := rfl
theorem EncodeFrame.portUnlock : EncodeFrame.Statement .portUnlock := rfl
theorem EncodeFrame.portQueryBankChanged : EncodeFrame.Statement .portQueryBankChanged := rfl
theorem EncodeFrame.portSave : EncodeFrame.Statement .portSave := rfl
theorem EncodeFrame.portLoad (snap : List Byte) : EncodeFrame.Statement (.portLoad snap) := rfl
theorem EncodeFrame.portReset : EncodeFrame.Statement .portReset := rfl
theorem EncodeFrame.portTimingChanged : EncodeFrame.Statement .portTimingChanged := rfl

end Sys2Proof.Laws
end

