-- ==== Sys2Proof/Laws/Rounding.lean ====
section
/-! SUPPORT. `round64` is rounding to nearest with ties to even, the only such rounding, and what the device rounds
stays finite (43_audio.md rule R161, 10_state.md rule R32, notes/assumptions/10.md). -/

namespace Sys2Proof.Machine

/-- The rounded quotient is at most a half away, and even where it is a half away. -/
theorem halfEven_near {n d : Nat} (hd : 0 < d) :
    |(n : ℚ) / d - halfEven n d| ≤ 1 / 2 ∧ (|(n : ℚ) / d - halfEven n d| = 1 / 2 → halfEven n d % 2 = 0) := by
  have hd' : (0 : ℚ) < d := by exact_mod_cast hd
  have hdm : (n : ℚ) = d * (n / d : Nat) + (n % d : Nat) := by exact_mod_cast (Nat.div_add_mod n d).symm
  have hq : (n : ℚ) / d = (n / d : Nat) + (n % d : Nat) / (d : ℚ) := by
    rw [div_eq_iff hd'.ne', add_mul, div_mul_cancel₀ _ hd'.ne']
    linarith
  have h0 : (0 : ℚ) ≤ (n % d : Nat) / (d : ℚ) := by positivity
  rw [hq]
  unfold halfEven
  split
  · next h =>
    have h1 : ((n % d : Nat) : ℚ) / d < 1 / 2 := by
      rw [div_lt_iff₀ hd']
      have : (2 : ℚ) * (n % d : Nat) < d := by exact_mod_cast h
      linarith
    rw [add_sub_cancel_left, abs_of_nonneg h0]
    exact ⟨h1.le, fun h2 => absurd h2 h1.ne⟩
  · split
    · next h =>
      have h1 : 1 / 2 < ((n % d : Nat) : ℚ) / d := by
        rw [lt_div_iff₀ hd']
        have : (d : ℚ) < 2 * (n % d : Nat) := by exact_mod_cast h
        linarith
      have h2 : ((n % d : Nat) : ℚ) / d < 1 := by
        rw [div_lt_one hd']
        exact_mod_cast Nat.mod_lt n hd
      have h3 : |((n / d : Nat) : ℚ) + (n % d : Nat) / (d : ℚ) - ((n / d + 1 : Nat) : ℚ)| = 1 - (n % d : Nat) / (d : ℚ) := by
        rw [abs_of_nonpos (by push_cast; linarith)]
        push_cast
        ring
      rw [h3]
      exact ⟨by linarith, fun h => by linarith⟩
    · next h g =>
      have h1 : ((n % d : Nat) : ℚ) / d = 1 / 2 := by
        rw [div_eq_iff hd'.ne']
        have : (2 : ℚ) * (n % d : Nat) = d := by exact_mod_cast (by omega : 2 * (n % d) = d)
        linarith
      rw [h1]
      refine ⟨?_, fun _ => by omega⟩
      rcases Nat.mod_two_eq_zero_or_one (n / d) with h2 | h2 <;> rw [h2] <;> push_cast
      · rw [show ((n / d : Nat) : ℚ) + 1 / 2 - ((n / d : Nat) + 0) = 1 / 2 by ring, abs_of_pos (by norm_num)]
      · rw [show ((n / d : Nat) : ℚ) + 1 / 2 - ((n / d : Nat) + 1) = -(1 / 2) by ring, abs_neg, abs_of_pos (by norm_num)]

/-- A rounded value is a number of places, at most half a place away, and an even one where it is half a place away. -/
theorem roundTo_near {n d : Nat} (hd : 0 < d) (e : Int) :
    ∃ k : Nat, roundTo n d e = k * (2 : ℚ) ^ e ∧ |(n : ℚ) / d - k * (2 : ℚ) ^ e| ≤ (2 : ℚ) ^ e / 2 ∧
      (|(n : ℚ) / d - k * (2 : ℚ) ^ e| = (2 : ℚ) ^ e / 2 → k % 2 = 0) := by
  have hd' : (0 : ℚ) < d := by exact_mod_cast hd
  have two : (0 : ℚ) < 2 ^ e := by positivity
  suffices h : ∃ a b : Nat, 0 < b ∧ roundTo n d e = halfEven a b * (2 : ℚ) ^ e ∧ (n : ℚ) / d = a / b * (2 : ℚ) ^ e by
    obtain ⟨a, b, hb, hr, hv⟩ := h
    obtain ⟨h1, h2⟩ := halfEven_near (n := a) hb
    refine ⟨_, hr, ?_, fun h => h2 ?_⟩
    · rw [hv, ← sub_mul, abs_mul, abs_of_pos two]
      linarith [mul_le_mul_of_nonneg_right h1 two.le]
    · rw [hv, ← sub_mul, abs_mul, abs_of_pos two] at h
      exact mul_right_cancel₀ two.ne' (h.trans (by ring))
  unfold roundTo
  split
  · obtain ⟨m, rfl⟩ : ∃ m : Nat, e = -(m : Int) := ⟨(-e).toNat, by omega⟩
    refine ⟨n * 2 ^ m, d, hd, ?_, ?_⟩
    · rw [neg_neg, Int.toNat_natCast, zpow_neg, zpow_natCast, Rat.mkRat_eq_div, div_eq_mul_inv]
      push_cast
      rfl
    · rw [zpow_neg, zpow_natCast]
      push_cast
      field_simp
  · obtain ⟨m, rfl⟩ : ∃ m : Nat, e = (m : Int) := ⟨e.toNat, by omega⟩
    refine ⟨n, d * 2 ^ m, by positivity, ?_, ?_⟩
    · rw [Int.toNat_natCast, zpow_natCast]
      push_cast
      rfl
    · rw [zpow_natCast]
      push_cast
      field_simp

/-- Rounding does not look at the sign. -/
theorem round64_neg (q : ℚ) : round64 (-q) = -round64 q := by
  unfold round64
  simp only [Rat.num_neg_eq_neg_num, Rat.den_neg_eq_den, Int.natAbs_neg]
  rcases lt_trichotomy q.num 0 with h | h | h
  · rw [if_neg (by omega), if_pos h, neg_neg]
  · obtain ⟨k, hk, -, hex⟩ := roundTo_eq (n := q.num.natAbs) q.den_pos (ulpExp q.num.natAbs q.den)
    have : k = 0 := hex 0 (by rw [h]; simp)
    rw [if_neg (by omega), if_neg (by omega), hk, this]
    simp
  · rw [if_pos (by omega), if_neg (by omega)]

/-- A rational number without its sign. -/
theorem abs_eq_natAbs_div (q : ℚ) : |q| = (q.num.natAbs : ℚ) / q.den := by
  conv_lhs => rw [← Rat.num_div_den q, abs_div, Nat.abs_cast]
  rw [Nat.cast_natAbs, Int.cast_abs]

/-- `round64` rounds to nearest with ties to even. -/
theorem roundsTo_round64 (q : ℚ) : RoundsTo q (round64 q) := by
  wlog hq : 0 ≤ q with H
  · obtain ⟨m, e, h1, h2, h3, h4, h5, h6⟩ := H (-q) (by linarith)
    rw [abs_neg] at h2 h3
    rw [round64_neg] at h4 h5 h6
    rw [show -q - -round64 q = -(q - round64 q) by ring, abs_neg] at h5 h6
    exact ⟨-m, e, h1, h2, h3, by push_cast; linarith, h5, fun h => by have := h6 h; omega⟩
  · have hnum : ¬ q.num < 0 := not_lt.mpr (Rat.num_nonneg.mpr hq)
    have hval := abs_eq_natAbs_div q
    have hr : round64 q = roundTo q.num.natAbs q.den (ulpExp q.num.natAbs q.den) := by
      unfold round64
      simp only [if_neg hnum]
    rcases Nat.eq_zero_or_pos q.num.natAbs with h0 | hpos
    · have hz : q = 0 := by
        rw [h0] at hval
        simpa using hval
      obtain ⟨k, hk, -, hex⟩ := roundTo_eq (n := q.num.natAbs) q.den_pos (ulpExp q.num.natAbs q.den)
      have hk0 : k = 0 := hex 0 (by rw [h0]; simp)
      have hx : round64 q = 0 := by rw [hr, hk, hk0]; simp
      refine ⟨0, -1074, le_refl _, ?_, .inl rfl, by rw [hx]; simp, ?_, fun _ => rfl⟩ <;> rw [hz]
      · rw [abs_zero]; positivity
      · rw [← hz, hx, hz, sub_zero, abs_zero]; positivity
    · obtain ⟨h1, h2, h3⟩ := ulpExp_spec hpos q.den_pos
      obtain ⟨k, hk, h4, h5⟩ := roundTo_near (n := q.num.natAbs) q.den_pos (ulpExp q.num.natAbs q.den)
      rw [← hval] at h2 h3 h4 h5
      rw [abs_of_nonneg hq, ← hk, ← hr] at h4 h5
      exact ⟨k, _, h1, h2, h3, by rw [hr, hk, Int.cast_natCast], h4, fun h => by have := h5 h; omega⟩

/-- Two integers of places that are each at most half a place from one value, and even where they are half a place from
it, are one. -/
theorem nearest_even_unique {q u : ℚ} {m n : Int} (hu : 0 < u) (hm : |q - m * u| ≤ u / 2) (hn : |q - n * u| ≤ u / 2)
    (hm' : |q - m * u| = u / 2 → m % 2 = 0) (hn' : |q - n * u| = u / 2 → n % 2 = 0) : m = n := by
  wlog h : m ≤ n with H
  · exact (H hu hn hm hn' hm' (by omega)).symm
  · rcases eq_or_lt_of_le h with h | h
    · exact h
    exfalso
    have h1 := (abs_le.mp hm).2
    have h2 := (abs_le.mp hn).1
    have h3 : (m : ℚ) + 1 ≤ n := by exact_mod_cast h
    have h4 : ((m : ℚ) + 1) * u ≤ n * u := mul_le_mul_of_nonneg_right h3 hu.le
    have h5 : q - m * u = u / 2 := by linarith
    have h6 : q - n * u = -(u / 2) := by linarith
    have h7 := hm' (by rw [h5, abs_of_pos (by positivity)])
    have h8 := hn' (by rw [h6, abs_neg, abs_of_pos (by positivity)])
    have h9 : (n : ℚ) * u = (m + 1) * u := by linarith
    have h10 : n = m + 1 := by exact_mod_cast mul_right_cancel₀ hu.ne' h9
    omega

/-- Rounding has one result. -/
theorem RoundsTo.eq_round64 {q x : ℚ} (h : RoundsTo q x) : round64 q = x := by
  obtain ⟨m, e, h1, h2, h3, h4, h5, h6⟩ := roundsTo_round64 q
  obtain ⟨m', e', g1, g2, g3, g4, g5, g6⟩ := h
  have key : ∀ a b : Int, |q| < (2 : ℚ) ^ (a + 53) → -1074 ≤ a → (b = -1074 ∨ (2 : ℚ) ^ (b + 52) ≤ |q|) → b ≤ a := by
    intro a b ha hge hb
    rcases hb with hb | hb
    · omega
    · have := (zpow_lt_zpow_iff_right₀ (by norm_num : (1 : ℚ) < 2)).mp (hb.trans_lt ha)
      omega
  have he : e = e' := le_antisymm (key e' e g2 g1 h3) (key e e' h2 h1 g3)
  subst he
  rw [h4] at h5 h6
  rw [g4] at g5 g6
  rw [h4, g4, nearest_even_unique (by positivity) h5 g5 h6 g6]

/-! Finiteness. -/

/-- What is rounded from below 2^1023 is finite. -/
theorem isBinary64_round64 {q : ℚ} (h : |q| < (2 : ℚ) ^ (1023 : Int)) : IsBinary64 (round64 q) := by
  obtain ⟨m, e, h1, h2, h3, h4, h5, -⟩ := roundsTo_round64 q
  have two : (0 : ℚ) < 2 ^ e := by positivity
  have he : e ≤ 970 := by
    rcases h3 with h3 | h3
    · omega
    · have := (zpow_lt_zpow_iff_right₀ (by norm_num : (1 : ℚ) < 2)).mp (h3.trans_lt h)
      omega
  have hm : |m| ≤ 2 ^ 53 := by
    rw [h4] at h5
    have h6 : |(m : ℚ) * 2 ^ e| ≤ |q| + 2 ^ e / 2 := by
      have := abs_sub_abs_le_abs_sub ((m : ℚ) * 2 ^ e) q
      rw [abs_sub_comm] at h5
      linarith
    rw [abs_mul, abs_of_pos two] at h6
    rw [zpow_add₀ (by norm_num)] at h2
    have h7 : (|m| : ℚ) * 2 ^ e < (2 ^ (53 : Int) + 1) * 2 ^ e := by linarith
    have h8 := lt_of_mul_lt_mul_right h7 two.le
    have h9 : |m| < 2 ^ 53 + 1 := by exact_mod_cast h8
    omega
  rcases lt_or_eq_of_le hm with h6 | h6
  · exact ⟨m, e, h6, h1, by omega, h4⟩
  · have h7 : m = 2 * (m / 2) := by
      rcases abs_eq (by norm_num) |>.mp h6 with h | h <;> omega
    have h8 := abs_le.mp hm
    refine ⟨m / 2, e + 1, abs_lt.mpr ⟨by omega, by omega⟩, by omega, by omega, ?_⟩
    rw [h4, zpow_add₀ (by norm_num), zpow_one]
    conv_lhs => rw [h7]
    push_cast
    ring

/-- Fewer than 2^53 places of either sign are not rounded. -/
theorem round64_exact_int {m e : Int} (hm : |m| < 2 ^ 53) (he : -1074 ≤ e) :
    round64 (m * (2 : ℚ) ^ e) = m * (2 : ℚ) ^ e := by
  have hk : m.natAbs < 2 ^ 53 := by have := abs_lt.mp hm; omega
  rcases le_or_gt 0 m with h | h
  · have := round64_exact hk he
    rwa [← Int.cast_natCast, Int.natAbs_of_nonneg h] at this
  · have := round64_exact hk he
    rw [← Int.cast_natCast, show ((m.natAbs : Nat) : Int) = -m by omega] at this
    push_cast at this
    rw [neg_mul, round64_neg, neg_inj] at this
    exact this

/-- What is left of a rounded number when its rounded floor is subtracted is in [-1, 1]. -/
theorem abs_sub_round64_floor_le {x : ℚ} (h : ∃ m e : Int, |m| < 2 ^ 53 ∧ -1074 ≤ e ∧ x = m * (2 : ℚ) ^ e) :
    |x - round64 (x.floor : ℚ)| ≤ 1 := by
  obtain ⟨m, e, hm, he, hx⟩ := h
  have hfl : ((x.floor : ℚ) ≤ x) := Rat.le_floor_iff.mp le_rfl
  have hfu : x < x.floor + 1 := by
    by_contra hc
    have : ((x.floor + 1 : Int) : ℚ) ≤ x := by push_cast; linarith
    have := Rat.le_floor_iff.mpr this
    omega
  have exact_floor : round64 (x.floor : ℚ) = x.floor → |x - round64 (x.floor : ℚ)| ≤ 1 := by
    intro h
    rw [h, abs_le]
    constructor <;> linarith
  rcases le_or_gt 0 e with h0 | h0
  · obtain ⟨j, rfl⟩ : ∃ j : Nat, e = (j : Int) := ⟨e.toNat, by omega⟩
    have hz : x = ((m * 2 ^ j : Int) : ℚ) := by rw [hx, zpow_natCast]; push_cast; rfl
    have hf : x.floor = m * 2 ^ j := floor_eq_of hz.ge (by rw [hz]; linarith)
    apply exact_floor
    have := round64_exact_int hm he
    rw [hf, ← hz, hx, this]
  · have hle : |x| ≤ |(m : ℚ)| := by
      rw [hx, abs_mul, abs_of_pos (by positivity : (0 : ℚ) < 2 ^ e)]
      exact mul_le_of_le_one_right (abs_nonneg _) (zpow_le_one_of_nonpos₀ (by norm_num) h0.le)
    have hm' : |(m : ℚ)| ≤ 2 ^ 53 - 1 := by
      have : |m| ≤ 2 ^ 53 - 1 := by omega
      exact_mod_cast this
    have hlo := neg_le_of_abs_le (hle.trans hm')
    have hhi := le_of_abs_le (hle.trans hm')
    have b1 : x.floor < 2 ^ 53 := by
      have : (x.floor : ℚ) < 2 ^ 53 := by linarith
      exact_mod_cast this
    have b2 : -(2 ^ 53) < x.floor := by
      have h1 : ((-(2 ^ 53 - 1) : Int) : ℚ) ≤ x := by push_cast; linarith
      have := Rat.le_floor_iff.mpr h1
      omega
    apply exact_floor
    have := round64_exact_int (m := x.floor) (e := 0) (abs_lt.mpr ⟨b2, b1⟩) (by norm_num)
    simpa using this

/-- A rounded number has fewer than 2^53 places. -/
theorem round64_places (q : ℚ) : ∃ m e : Int, |m| < 2 ^ 53 ∧ -1074 ≤ e ∧ round64 q = m * (2 : ℚ) ^ e := by
  wlog hq : 0 ≤ q with H
  · obtain ⟨m, e, h1, h2, h3⟩ := H (-q) (by linarith)
    exact ⟨-m, e, by rwa [abs_neg], h2, by rw [round64_neg] at h3; push_cast; linarith⟩
  · obtain ⟨k, e, hk, he, h⟩ := round64_form_lt hq
    exact ⟨k, e, by rw [abs_of_nonneg (by omega)]; exact_mod_cast hk, he, by rw [h, Int.cast_natCast]⟩

/-- The carry that an amplitude read leaves is finite, whatever it was (rule R161). -/
theorem isBinary64_fraction (q : ℚ) : IsBinary64 (sub64 (round64 q) (round64 ((round64 q).floor : ℚ))) :=
  isBinary64_round64 ((abs_sub_round64_floor_le (round64_places q)).trans_lt (one_lt_zpow₀ (by norm_num) (by norm_num)))

/-- A positive number rounds to at least its half. -/
theorem half_le_toF64 {n : Nat} (h : 0 < n) : (n : ℚ) / 2 ≤ toF64 n := by
  have hn : (1 : ℚ) ≤ n := by exact_mod_cast h
  obtain ⟨m, e, h1, -, h3, -, h5, -⟩ := roundsTo_round64 (n : ℚ)
  have hs : (2 : ℚ) ^ e ≤ n := by
    rcases h3 with h3 | h3
    · rw [h3]
      exact (zpow_le_one_of_nonpos₀ (by norm_num) (by norm_num)).trans hn
    · rw [abs_of_pos (by linarith)] at h3
      exact (zpow_le_zpow_right₀ (by norm_num) (by omega)).trans h3
  have := (abs_le.mp h5).2
  unfold toF64
  linarith

/-- The carry that a load restores is finite (rule R194). -/
theorem isBinary64_loaded {n : Nat} (h : 0 < n) (c : Word32) : IsBinary64 (div64 (toF64 c.toNat) (toF64 n)) := by
  have hn : (1 : ℚ) ≤ n := by exact_mod_cast h
  have hs := half_le_toF64 h
  have hc : toF64 c.toNat = c.toNat := round64_nat (lt_trans c.isLt (by norm_num))
  have hc' : (c.toNat : ℚ) < 2 ^ 32 := by exact_mod_cast c.isLt
  apply isBinary64_round64
  rw [hc, abs_of_nonneg (by apply div_nonneg <;> linarith [Nat.cast_nonneg (α := ℚ) c.toNat]), div_lt_iff₀ (by linarith)]
  calc (c.toNat : ℚ) < 2 ^ 32 := hc'
    _ ≤ (2 : ℚ) ^ (1023 : Int) * (1 / 2) := by
      rw [show (1023 : Int) = 990 + 33 by norm_num, zpow_add₀ (by norm_num)]
      have : (1 : ℚ) ≤ 2 ^ (990 : Int) := one_le_zpow₀ (by norm_num) (by norm_num)
      calc (2 : ℚ) ^ 32 = 1 * 2 ^ (33 : Int) * (1 / 2) := by norm_num
        _ ≤ 2 ^ (990 : Int) * 2 ^ (33 : Int) * (1 / 2) := by gcongr
    _ ≤ (2 : ℚ) ^ (1023 : Int) * toF64 n := by
      apply mul_le_mul_of_nonneg_left _ (by positivity)
      linarith

/-- `toF64Finite` gives the rounded value. -/
theorem toF64Finite_eq {n : Nat} {x : ℚ} (h : toF64Finite n = some x) : x = toF64 n := by
  unfold toF64Finite at h
  split at h
  · exact (Option.some.inj h).symm
  · cases h

/-- `toF64Finite` gives every rounded value below 2^1024. -/
theorem toF64Finite_of_roundsTo {n : Nat} {x : ℚ} (h : RoundsTo n x) (hx : x < 2 ^ 1024) : toF64Finite n = some x := by
  have he : toF64 n = x := h.eq_round64
  unfold toF64Finite
  rw [he, if_pos]
  rcases Nat.eq_zero_or_pos x.floor.toNat with h0 | hpos
  · rw [h0]
    decide
  · rw [Nat.log2_lt hpos.ne']
    have h1 : ((x.floor : Int) : ℚ) ≤ x := Rat.le_floor_iff.mp le_rfl
    have h2 : ((x.floor : Int) : ℚ) < 2 ^ 1024 := h1.trans_lt hx
    have h3 : x.floor < 2 ^ 1024 := by exact_mod_cast h2
    omega

end Sys2Proof.Machine
end

