-- ==== Sys2Proof/Laws/Serial.lean ====
section
/-! SUPPORT. The bytes of a snapshot are read back as its fields (44_control.md rules R194, R195). -/

namespace Sys2Proof.Machine

/-- DeviceRAM's bytes are read back. -/
theorem readTimes_ram (z : Serializer) {ram : List Byte} (h : ram.length = 8192) (rest : List Byte) :
    readTimes z.u8.read ramSize (ram.flatMap z.u8.write ++ rest) = some (ram, rest) := by
  rw [show ramSize = ram.length from h.symm]
  exact readTimes_write z.u8 ram rest

/-- As many values are read as were asked for. -/
theorem readTimes_length {α : Type} (r : List Byte → Option (α × List Byte)) (n : Nat) {bs rest : List Byte} {vs : List α}
    (h : readTimes r n bs = some (vs, rest)) : vs.length = n := by
  induction n generalizing bs vs rest with
  | zero =>
    rw [readTimes, Option.some.injEq, Prod.mk.injEq] at h
    rw [← h.1, List.length_nil]
  | succ n ih =>
    rw [readTimes] at h
    split at h
    · cases h
    · split at h
      · cases h
      · next hr =>
        rw [Option.some.injEq, Prod.mk.injEq] at h
        rw [← h.1, List.length_cons, ih hr]

/-- Reading on after a value that was written. -/
theorem codec_read_bind {α β : Type} (c : Codec α) (v : α) (rest : List Byte) (k : α × List Byte → Option β) :
    (c.read (c.write v ++ rest) >>= k) = k (v, rest) := by
  rw [c.read_write]
  rfl

/-- Reading on after the first of two values that were written. -/
theorem codec_read_bind_append {α β : Type} (c : Codec α) (v : α) (tail rest : List Byte)
    (k : α × List Byte → Option β) : (c.read (c.write v ++ tail ++ rest) >>= k) = k (v, tail ++ rest) := by
  rw [List.append_assoc, codec_read_bind]

/-- Reading on after DeviceRAM. -/
theorem readTimes_bind_append {β : Type} (z : Serializer) {ram : List Byte} (h : ram.length = 8192) (tail rest : List Byte)
    (k : List Byte × List Byte → Option β) :
    (readTimes z.u8.read ramSize (ram.flatMap z.u8.write ++ tail ++ rest) >>= k) = k (ram, tail ++ rest) := by
  rw [List.append_assoc, readTimes_ram z h]
  rfl

/-- What a snapshot was written as is read back, and what follows it is left. -/
theorem readSnapshot_encodeSnapshot (z : Serializer) (f : Snapshot) (h : f.ram.length = 8192) (rest : List Byte) :
    readSnapshot z (encodeSnapshot z f ++ rest) = some (f, rest) := by
  unfold readSnapshot encodeSnapshot
  iterate 2 refine (codec_read_bind_append _ _ _ _ _).trans ?_
  refine (readTimes_bind_append z h _ _ _).trans ?_
  iterate 16 refine (codec_read_bind_append _ _ _ _ _).trans ?_
  exact codec_read_bind _ _ _ _

/-- A snapshot's bytes decode to it. -/
theorem decodeSnapshot_encodeSnapshot (z : Serializer) (f : Snapshot) (h : f.ram.length = 8192) :
    decodeSnapshot z (encodeSnapshot z f) = some f := by
  have hr := readSnapshot_encodeSnapshot z f h []
  rw [List.append_nil] at hr
  rw [decodeSnapshot, hr]

/-- Bytes after the last field make a snapshot undecodable (notes/assumptions/16.md). -/
theorem decodeSnapshot_leftover (z : Serializer) (f : Snapshot) (h : f.ram.length = 8192) (b : Byte) (rest : List Byte) :
    decodeSnapshot z (encodeSnapshot z f ++ b :: rest) = none := by
  rw [decodeSnapshot, readSnapshot_encodeSnapshot z f h]

/-- A decodable snapshot has the whole of DeviceRAM. -/
theorem decodeSnapshot_ram_length {z : Serializer} {bs : List Byte} {f : Snapshot} (h : decodeSnapshot z bs = some f) :
    f.ram.length = 8192 := by
  unfold decodeSnapshot at h
  split at h
  · next g hr =>
    rw [Option.some.injEq] at h
    subst h
    unfold readSnapshot at hr
    iterate 2 obtain ⟨_, -, hr⟩ := Option.bind_eq_some_iff.1 hr
    obtain ⟨_, hram, hr⟩ := Option.bind_eq_some_iff.1 hr
    iterate 17 obtain ⟨_, -, hr⟩ := Option.bind_eq_some_iff.1 hr
    rw [Option.some.injEq, Prod.mk.injEq] at hr
    rw [← hr.1]
    exact readTimes_length _ _ hram
  · cases h

/-- The name of a decodable snapshot is the one that is read first. -/
theorem decodeSnapshot_name {z : Serializer} {bs : List Byte} {f : Snapshot} (h : decodeSnapshot z bs = some f) :
    ∃ rest, z.str.read bs = some (f.name, rest) := by
  unfold decodeSnapshot at h
  split at h
  · next g hr =>
    rw [Option.some.injEq] at h
    subst h
    unfold readSnapshot at hr
    obtain ⟨⟨name, rest⟩, hname, hr⟩ := Option.bind_eq_some_iff.1 hr
    iterate 19 obtain ⟨_, -, hr⟩ := Option.bind_eq_some_iff.1 hr
    rw [Option.some.injEq, Prod.mk.injEq] at hr
    rw [← hr.1]
    exact ⟨rest, hname⟩
  · cases h

theorem readsOtherName_iff (z : Serializer) (name : String) (bs : List Byte) :
    readsOtherName z name bs = true ↔ ∃ read rest, z.str.read bs = some (read, rest) ∧ read ≠ name := by
  unfold readsOtherName
  cases z.str.read bs with
  | none => simp
  | some p =>
    obtain ⟨read, rest⟩ := p
    simp

/-- A decodable snapshot reads as another name exactly where it has another name. -/
theorem readsOtherName_decoded {z : Serializer} {bs : List Byte} {f : Snapshot} (h : decodeSnapshot z bs = some f)
    (name : String) : readsOtherName z name bs = true ↔ f.name ≠ name := by
  obtain ⟨rest, hr⟩ := decodeSnapshot_name h
  rw [readsOtherName, hr, bne_iff_ne]

/-- The name of a snapshot's bytes, whatever comes after them. -/
theorem read_name_encodeSnapshot (z : Serializer) (f : Snapshot) (rest : List Byte) :
    ∃ rest', z.str.read (encodeSnapshot z f ++ rest) = some (f.name, rest') := by
  unfold encodeSnapshot
  rw [List.append_assoc, z.str.read_write]
  exact ⟨_, rfl⟩

end Sys2Proof.Machine
end

