-- ==== Sys2Proof/Laws/Port.lean ====
section
/-! SUPPORT. What the save, the load, the reset and the creation come to, case by case (44_control.md rules R193 to
R195, 70_reset_and_hazards.md rules R230 and R231). -/

namespace Sys2Proof.Machine

variable (s : State)

/-! The carry of a snapshot (rule R195, field 8). -/

/-- Field 8 where the carry is not negative and its fixed-point value fits (rule R195). -/
theorem savedCarry_eq {s : State} {scale : Rat} {n : Nat} (hs : toF64Finite s.cfg.carryScale = some scale)
    (hp : 0 ≤ mul64 s.carry scale) (hn : n < 2 ^ 32) (hf : (mul64 s.carry scale).floor = (n : Int)) :
    s.savedCarry = some (BitVec.ofInt 32 n) := by
  have ht : truncInt (mul64 s.carry scale) = (n : Int) := by
    rw [truncInt, if_neg (not_lt.2 hp), hf]
  unfold State.savedCarry
  rw [hs]
  simp only [ht]
  exact if_pos ⟨Int.natCast_nonneg n, by exact_mod_cast hn⟩

/-- The carry that field 8 restores (rule R194). -/
theorem loadedCarry_eq {carryScale : Nat} {scale : Rat} (h : toF64Finite carryScale = some scale) (carry : Word32) :
    loadedCarry carryScale carry = div64 (toF64 carry.toNat) scale := by
  unfold loadedCarry
  rw [h]

/-- A loaded carry is finite (rule R32). -/
theorem isBinary64_loadedCarry {carryScale : Nat} (h : 0 < carryScale) (carry : Word32) :
    IsBinary64 (loadedCarry carryScale carry) := by
  unfold loadedCarry
  split
  · next scale hs =>
    rw [toF64Finite_eq hs]
    exact isBinary64_loaded h carry
  · exact ⟨0, 0, by decide, by decide, by decide, by simp⟩

/-- A drawn carry is finite (notes/assumptions/12.md). -/
theorem isBinary64_freeBinary64 (n : Nat) : IsBinary64 (freeBinary64 n) := by
  obtain ⟨k, hk⟩ : ∃ k : Nat, k = (Config.freeSignificand n).toNat := ⟨_, rfl⟩
  obtain ⟨j, hj⟩ : ∃ j : Nat, j = (Config.freeExponent n).val := ⟨_, rfl⟩
  have hk' : k < 2 ^ 53 := hk ▸ (Config.freeSignificand n).isLt
  have hj' : j < 2046 := hj ▸ (Config.freeExponent n).isLt
  unfold freeBinary64
  rw [← hk, ← hj]
  have hp : (2 : ℚ) ^ ((j : Int) - 1074) = 2 ^ j / 2 ^ 1074 := by
    rw [zpow_sub₀ (by norm_num), zpow_natCast]
    rfl
  split
  · refine ⟨-k, j - 1074, by rw [abs_lt]; omega, by omega, by omega, ?_⟩
    rw [hp, Rat.mkRat_eq_div]
    push_cast
    ring
  · refine ⟨k, j - 1074, by rw [abs_lt]; omega, by omega, by omega, ?_⟩
    rw [hp, Rat.mkRat_eq_div]
    push_cast
    ring

/-! The save (rule R193). -/

theorem execPortSave_next {s : State} (h1 : s.audioCycles < 2 ^ 64) (h2 : s.armCycles < 2 ^ 64) :
    execPortSave s = .next ((s.drew (if s.savedCarry.isSome then 0 else 1)).ret
      (.snapshot (encodeSnapshot s.cfg.codecs (s.snapshot (s.savedCarry.getD (Config.freeWord s.draws)))))) :=
  if_neg (by omega)

theorem execPortSave_fault {s : State} (h : 2 ^ 64 ≤ s.audioCycles ∨ 2 ^ 64 ≤ s.armCycles) :
    execPortSave s = .fault .cycleRange :=
  if_pos h

theorem ramBytesFrom_length (n i : Nat) : (s.ramBytesFrom n i).length = n := by
  induction n generalizing i with
  | zero => rfl
  | succ n ih => rw [State.ramBytesFrom, List.length_cons, ih]

theorem ramBytesFrom_getElem? (n i k : Nat) (hk : k < n) : (s.ramBytesFrom n i)[k]? = some (s.ramByte (i + k)) := by
  induction n generalizing i k with
  | zero => omega
  | succ n ih =>
    rw [State.ramBytesFrom]
    cases k with
    | zero => rfl
    | succ k =>
      rw [List.getElem?_cons_succ, ih (i + 1) k (by omega)]
      congr 2
      omega

theorem ramBytes_length : s.ramBytes.length = 8192 :=
  ramBytesFrom_length s ramSize 0

theorem ramBytes_getElem? {i : Nat} (hi : i < 8192) : s.ramBytes[i]? = some (s.ramByte i) := by
  rw [State.ramBytes, ramBytesFrom_getElem? s ramSize 0 i hi, Nat.zero_add]

/-! The fields of a snapshot (rule R195). -/

@[simp] theorem snapshot_name (w : Word32) : (s.snapshot w).name = s.cfg.deviceName := rfl
@[simp] theorem snapshot_bank (w : Word32) : (s.snapshot w).bank = BitVec.ofNat 16 s.bank.val := rfl
@[simp] theorem snapshot_ram (w : Word32) : (s.snapshot w).ram = s.ramBytes := rfl
@[simp] theorem snapshot_sty (w : Word32) : (s.snapshot w).sty = (s.styAddr.getD 0).setWidth 16 := rfl
@[simp] theorem snapshot_jmp (w : Word32) : (s.snapshot w).jmp = (s.jmpAddr.getD 0).setWidth 16 := rfl
@[simp] theorem snapshot_audioCycles (w : Word32) : (s.snapshot w).audioCycles = BitVec.ofNat 64 s.audioCycles := rfl
@[simp] theorem snapshot_carry (w : Word32) : (s.snapshot w).carry = w := rfl
@[simp] theorem snapshot_armCycles (w : Word32) : (s.snapshot w).armCycles = BitVec.ofNat 64 s.armCycles := rfl
@[simp] theorem snapshot_counter0 (w : Word32) : (s.snapshot w).counter0 = s.ch0.counter := rfl
@[simp] theorem snapshot_counter1 (w : Word32) : (s.snapshot w).counter1 = s.ch1.counter := rfl
@[simp] theorem snapshot_counter2 (w : Word32) : (s.snapshot w).counter2 = s.ch2.counter := rfl
@[simp] theorem snapshot_freq0 (w : Word32) : (s.snapshot w).freq0 = s.ch0.freq := rfl
@[simp] theorem snapshot_freq1 (w : Word32) : (s.snapshot w).freq1 = s.ch1.freq := rfl
@[simp] theorem snapshot_freq2 (w : Word32) : (s.snapshot w).freq2 = s.ch2.freq := rfl
@[simp] theorem snapshot_wshift0 (w : Word32) : (s.snapshot w).wshift0 = s.ch0.wshift := rfl
@[simp] theorem snapshot_wshift1 (w : Word32) : (s.snapshot w).wshift1 = s.ch1.wshift := rfl
@[simp] theorem snapshot_wshift2 (w : Word32) : (s.snapshot w).wshift2 = s.ch2.wshift := rfl
@[simp] theorem snapshot_mode (w : Word32) : (s.snapshot w).mode = s.mode := rfl
@[simp] theorem snapshot_jmpCount (w : Word32) : (s.snapshot w).jmpCount = BitVec.ofNat 8 s.jmpCount.val := rfl

theorem snapshot_od_none {s : State} (w : Word32) (h : s.odTarget = none) : (s.snapshot w).od = 0xFFFF := by
  simp only [State.snapshot, h]

theorem snapshot_od_some {s : State} (w : Word32) {t : Byte} (h : s.odTarget = some t) :
    (s.snapshot w).od = t.setWidth 16 := by
  simp only [State.snapshot, h]

/-! The load (rule R194). -/

theorem execPortLoad_locked {s : State} (bs : List Byte) (h : s.locked = true) :
    execPortLoad bs s = .next (s.ret (.flag false)) := by
  unfold execPortLoad
  rw [if_pos h]

theorem execPortLoad_otherName {s : State} {bs : List Byte}
    (hn : readsOtherName s.cfg.codecs s.cfg.deviceName bs = true) : execPortLoad bs s = .next (s.ret (.flag false)) := by
  unfold execPortLoad
  rw [if_pos hn, ite_self]

theorem execPortLoad_undecodable {s : State} {bs : List Byte} (h : s.locked = false)
    (hn : ¬ readsOtherName s.cfg.codecs s.cfg.deviceName bs = true) (hd : decodeSnapshot s.cfg.codecs bs = none) :
    execPortLoad bs s = .next (s.unspecified.ret (.flag false)) := by
  unfold execPortLoad
  rw [if_neg (by simp [h]), if_neg hn, hd]

theorem execPortLoad_decoded {s : State} {bs : List Byte} {f : Snapshot} (h : s.locked = false)
    (hd : decodeSnapshot s.cfg.codecs bs = some f) (hn : f.name = s.cfg.deviceName) :
    execPortLoad bs s = loadFields f s := by
  unfold execPortLoad
  rw [if_neg (by simp [h]), if_neg (fun h => (readsOtherName_decoded hd _).1 h hn), hd]

/-- A load of the bytes of a snapshot of the device's name is a load of its fields. -/
theorem execPortLoad_encodeSnapshot {s : State} {f : Snapshot} (h : s.locked = false) (hr : f.ram.length = 8192)
    (hn : f.name = s.cfg.deviceName) : execPortLoad (encodeSnapshot s.cfg.codecs f) s = loadFields f s :=
  execPortLoad_decoded h (decodeSnapshot_encodeSnapshot _ f hr) hn

theorem inRange_iff (f : Snapshot) : f.inRange = true ↔
    f.bank.toNat ≤ 6 ∧ f.jmpCount.toNat ≤ 2 ∧ f.sty.toNat ≤ 0x1000 ∧ f.jmp.toNat ≤ 0x1000 := by
  simp only [Snapshot.inRange, Bool.and_eq_true, decide_eq_true_eq, and_assoc]

theorem loadFields_range {s : State} {f : Snapshot} (h : ¬ f.inRange = true) :
    loadFields f s = .next (s.unspecified.ret (.flag false)) :=
  if_neg h

theorem loadFields_restore {s : State} {f : Snapshot} (h : f.inRange = true) :
    loadFields f s = .next ((s.restore f (Fin.ofNat 7 f.bank.toNat)).ret (.flag true)) :=
  if_pos h

/-- Everything a load can do (rule R194). -/
theorem execPortLoad_cases (bs : List Byte) :
    execPortLoad bs s = .next (s.ret (.flag false)) ∨
    (s.locked = false ∧ execPortLoad bs s = .next (s.unspecified.ret (.flag false))) ∨
    (s.locked = false ∧ ∃ f : Snapshot, decodeSnapshot s.cfg.codecs bs = some f ∧ f.ram.length = 8192 ∧
      f.name = s.cfg.deviceName ∧ f.inRange = true ∧
      execPortLoad bs s = .next ((s.restore f (Fin.ofNat 7 f.bank.toNat)).ret (.flag true))) := by
  cases hl : s.locked
  · by_cases ho : readsOtherName s.cfg.codecs s.cfg.deviceName bs = true
    · exact .inl (execPortLoad_otherName ho)
    · cases hd : decodeSnapshot s.cfg.codecs bs with
      | none => exact .inr (.inl ⟨rfl, execPortLoad_undecodable hl ho hd⟩)
      | some f =>
        have hn : f.name = s.cfg.deviceName := not_not.1 fun h => ho ((readsOtherName_decoded hd _).2 h)
        rw [execPortLoad_decoded hl hd hn]
        by_cases hr : f.inRange = true
        · exact .inr (.inr ⟨rfl, f, rfl, decodeSnapshot_ram_length hd, hn, hr, loadFields_restore hr⟩)
        · exact .inr (.inl ⟨rfl, loadFields_range hr⟩)
  · exact .inl (execPortLoad_locked bs hl)

/-- A byte of DeviceRAM as a list of bytes has set it. -/
theorem ramByte_ofBytes {s : State} {bs : List Byte} (hm : s.ram = Memory.ofBytes driverCopySize 0 bs)
    (hf : s.ramFreeFrom = driverCopySize) {i : Nat} (hi : i < bs.length) : bs[i]? = some (s.ramByte i) := by
  rw [State.ramByte, State.ramUnlisted, hm, hf, Memory.find_ofBytes, if_pos (Nat.zero_le i), Nat.sub_zero,
    List.getElem?_eq_getElem hi, Option.bind_some]
  congr 1
  split
  · next h => simp [h]
  · simp

/-! The fields after a restore (rule R194). -/

@[simp] theorem restore_cfg (f : Snapshot) (n : Fin 7) : (s.restore f n).cfg = s.cfg := rfl
@[simp] theorem restore_img (f : Snapshot) (n : Fin 7) : (s.restore f n).img = s.img := rfl
@[simp] theorem restore_ram (f : Snapshot) (n : Fin 7) :
    (s.restore f n).ram = Memory.ofBytes driverCopySize 0 f.ram := rfl
@[simp] theorem restore_ramFreeFrom (f : Snapshot) (n : Fin 7) : (s.restore f n).ramFreeFrom = driverCopySize := rfl
@[simp] theorem restore_mode (f : Snapshot) (n : Fin 7) : (s.restore f n).mode = f.mode := rfl
@[simp] theorem restore_odTarget (f : Snapshot) (n : Fin 7) :
    (s.restore f n).odTarget = if f.od = 0xFFFF then none else some (f.od.setWidth 8) := rfl
@[simp] theorem restore_styAddr (f : Snapshot) (n : Fin 7) : (s.restore f n).styAddr = savedOffset f.sty := rfl
@[simp] theorem restore_audioCycles (f : Snapshot) (n : Fin 7) :
    (s.restore f n).audioCycles = f.audioCycles.toNat := rfl
@[simp] theorem restore_armCycles (f : Snapshot) (n : Fin 7) : (s.restore f n).armCycles = f.armCycles.toNat := rfl
@[simp] theorem restore_carry (f : Snapshot) (n : Fin 7) :
    (s.restore f n).carry = loadedCarry s.cfg.carryScale f.carry := rfl
@[simp] theorem restore_ch0 (f : Snapshot) (n : Fin 7) :
    (s.restore f n).ch0 = { counter := f.counter0, freq := f.freq0, wshift := f.wshift0 } := rfl
@[simp] theorem restore_ch1 (f : Snapshot) (n : Fin 7) :
    (s.restore f n).ch1 = { counter := f.counter1, freq := f.freq1, wshift := f.wshift1 } := rfl
@[simp] theorem restore_ch2 (f : Snapshot) (n : Fin 7) :
    (s.restore f n).ch2 = { counter := f.counter2, freq := f.freq2, wshift := f.wshift2 } := rfl
@[simp] theorem restore_draws (f : Snapshot) (n : Fin 7) : (s.restore f n).draws = s.draws := rfl
@[simp] theorem restore_locked (f : Snapshot) (n : Fin 7) : (s.restore f n).locked = s.locked := rfl
@[simp] theorem restore_inRun (f : Snapshot) (n : Fin 7) : (s.restore f n).inRun = s.inRun := rfl

/-- A restore of an unlocked device switches the bank and sets bank-changed (rules R190, R194). -/
theorem restore_bank {s : State} (f : Snapshot) (n : Fin 7) (h : s.locked = false) :
    (s.restore f n).bank = n ∧ (s.restore f n).bankChanged = true := by
  unfold State.restore
  rw [bankSwitch_unlocked]
  · exact ⟨rfl, rfl⟩
  · exact h

/-- A drawn offset is in range (notes/assumptions/12.md). -/
theorem offsetOk_freeOffset (n : Nat) : offsetOk (some (freeOffset n)) := by
  unfold freeOffset
  have := Nat.mod_lt (Config.freeNat n) (show 0 < 4096 by decide)
  apply offsetOk_some <;> rw [BitVec.toNat_ofNat, Nat.mod_eq_of_lt (by omega)] <;> omega

/-- No offset is restored from 0 (rule R194). -/
@[simp] theorem savedOffset_zero : savedOffset 0 = none := rfl

theorem savedOffset_eq_none (w : BitVec 16) : savedOffset w = none ↔ w = 0 := by
  unfold savedOffset
  split_ifs <;> simp_all

/-- An offset comes back from the field that a save gives it, and no offset from its 0 (rules R194, R195). -/
theorem savedOffset_getD {a : Option (BitVec 13)} (h : offsetOk a) : savedOffset ((a.getD 0).setWidth 16) = a := by
  cases a with
  | none => rfl
  | some x =>
    have hx := (h x rfl).1
    have h0 : (x.setWidth 16 : BitVec 16) ≠ 0 := by bv_omega
    exact (if_neg h0).trans (congrArg some (by ext k hk; simp))

/-- A field in range restores an offset in range (rules R28, R29). -/
theorem offsetOk_savedOffset {w : BitVec 16} (h : w.toNat ≤ 0x1000) : offsetOk (savedOffset w) := by
  unfold savedOffset
  split_ifs
  · exact offsetOk_none
  · apply offsetOk_some <;> bv_omega

/-- What a restore leaves in the intercept: an address and a count that agree (rules R28, R194). -/
theorem restore_intercept (f : Snapshot) (n : Fin 7) (hc : f.jmpCount.toNat ≤ 2) :
    (s.restore f n).jmpAddr = (if f.jmpCount = 0 then none else savedOffset f.jmp) ∧
    (s.restore f n).jmpCount.val = (if f.jmp = 0 then 0 else f.jmpCount.toNat) := by
  constructor
  · rfl
  · show (loadedCount f).val = _
    unfold loadedCount
    have h : f.jmpCount = 0 ∨ f.jmpCount = 1 ∨ f.jmpCount = 2 := by bv_omega
    by_cases hj : f.jmp = 0
    · rw [if_pos hj, if_pos hj]
      rfl
    · rw [if_neg hj, if_neg hj]
      rcases h with h | h | h <;> rw [h] <;> rfl

/-! The reset and the creation (rules R230, R231). -/

/-- The reset of an unlocked device, its bank switch done. -/
theorem resetDevice_eq {s : State} (h : s.locked = false) : s.resetDevice = { s with
    ram := s.img.below driverCopySize
    ramFreeFrom := driverCopySize
    ramEpoch := s.draws
    bank := startBank
    bankChanged := true
    mode := modeReset
    jmpAddr := none
    jmpCount := 0
    styAddr := none
    odTarget := none
    ch0 := resetChannel s.draws 0
    ch1 := resetChannel s.draws 1
    ch2 := resetChannel s.draws 2
    audioCycles := s.input.hostCycles
    armCycles := s.input.hostCycles
    carry := 0
    draws := s.draws + 6 } := by
  unfold State.resetDevice
  rw [bankSwitch_unlocked]
  exact h

/-- The driver copy (rules R42, R230). -/
theorem ramByte_resetDevice {i : Nat} (hi : i < 0x800) : s.resetDevice.ramByte i = s.imgByte i := by
  show ((s.img.below driverCopySize).find i).getD (if i < driverCopySize then 0 else _) = (s.img.find i).getD 0
  have hi' : i < driverCopySize := hi
  rw [Memory.find_below, if_pos hi', if_pos hi']

end Sys2Proof.Machine
end

