-- ==== Sys2Proof/Tests/Slice0.lean ====
section
/-! SUPPORT. The model's own tests: ill-formed terms refused, words written out from 30_encoding.md rule R78, one-step
tests on the vectors of 95_test_vectors.md (V and P numbers), and for each statement with hypotheses a state that
meets them. Expected values come from the spec's files, none from the model. -/

namespace Sys2Proof.Tests
open Sys2Proof.Machine

/-! Helpers. -/

/-- Is the outcome a next state that passes `p`? -/
def nextWith (o : OpOutcome) (p : State → Bool) : Bool :=
  match o with
  | .next t => p t
  | .fault _ => false
  | .refused _ => false

/-- Is the outcome this fault? -/
def faultsWith (o : OpOutcome) (f : Fault) : Bool :=
  match o with
  | .fault g => g == f
  | .next _ => false
  | .refused _ => false

/-- Is the outcome this refusal? -/
def refusedWith (o : OpOutcome) (f : Refusal) : Bool :=
  match o with
  | .refused g => g == f
  | .next _ => false
  | .fault _ => false

/-- The common setup of 95_test_vectors.md section 0, its draws at 0: bytes of DeviceRAM and channels. -/
def base : State :=
  { State.reset with ramFreeFrom := ramSize, ch0 := ⟨0, 0, 27⟩, ch1 := ⟨0, 0, 27⟩, ch2 := ⟨0, 0, 27⟩ }

/-- `base` with cells of the image and of DeviceRAM. -/
def withCells (img ram : Memory) : State :=
  { base with img := img, ram := ram }

/-- The inputs at host cycle `n`. -/
def atCycle (n : Nat) : Input :=
  { Input.idle with hostCycles := n }

/-- Bus-stuff on (mode 0xF0). -/
def busStuff (s : State) : State :=
  { s with mode := 0xF0 }

/-- A binary64 value printed with 17 decimals. -/
def decimal17 (n : Nat) : Rat :=
  round64 (mkRat n (10 ^ 17))

/-! Well-formedness: for each check a term that it refuses, beside one that it lets pass (rule R78). -/

theorem test_wf_periphA : (Instr.readPeriphA 0x0080).wf Config.default = true ∧
    (Instr.readPeriphA 0x0000).wf Config.default = false ∧ (Instr.readPeriphA 0x1080).wf Config.default = false ∧
    (Instr.writePeriphA 0x027F 1).wf Config.default = false := by decide

theorem test_wf_periphB : (Instr.readPeriphB 0x007F).wf Config.default = true ∧
    (Instr.readPeriphB 0x0080).wf Config.default = false ∧ (Instr.writePeriphB 0x0200 1).wf Config.default = false ∧
    (Instr.readPeriphB 0x1000).wf Config.default = false ∧
    (Instr.readPeriphB 0x0200).wf { Config.default with periphBBit9 := true } = true := by decide

theorem test_wf_lowNone : (Instr.readLowNone 0x0230).wf Config.default = true ∧
    (Instr.readLowNone 0x0030).wf Config.default = false ∧ (Instr.writeLowNone 0x02B0 1).wf Config.default = false ∧
    (Instr.writeLowNone 0x1230 1).wf Config.default = false := by decide

theorem test_wf_rom : (Instr.readRom 0xFED).wf Config.default = true ∧ (Instr.readRom 0xFEE).wf Config.default = false ∧
    (Instr.writeRom 0xFFB 1).wf Config.default = false ∧ (Instr.writeRom 0xFFC 1).wf Config.default = true := by decide

/-- The snapshot of V94, its counters and frequencies 0, with a given RAM field. -/
def sampleSnapshot (ram : List Byte) : Snapshot where
  name := "BUS"
  bank := 6
  ram := ram
  od := 0xFFFF
  sty := 0
  jmp := 0
  audioCycles := 500
  carry := 0
  armCycles := 500
  counter0 := 0
  counter1 := 0
  counter2 := 0
  freq0 := 0
  freq1 := 0
  freq2 := 0
  wshift0 := 27
  wshift1 := 27
  wshift2 := 27
  mode := 0xFF
  jmpCount := 0

/-- 8192 bytes of 0. -/
def zeroRam : List Byte := List.replicate 8192 0

theorem zeroRam_length : zeroRam.length = 8192 := List.length_replicate

/-- The bytes of a snapshot decode to it under every serializer, and one byte more does not (rules R194, R195). -/
theorem test_decodeSnapshot (z : Serializer) :
    decodeSnapshot z (encodeSnapshot z (sampleSnapshot zeroRam)) = some (sampleSnapshot zeroRam) ∧
    decodeSnapshot z (encodeSnapshot z (sampleSnapshot zeroRam) ++ [0]) = none :=
  ⟨decodeSnapshot_encodeSnapshot z _ zeroRam_length, decodeSnapshot_leftover z _ zeroRam_length 0 []⟩

/-! Decoding: each constructor from its word, written out from its row of rule R78 (format BUS: the access word in three
bytes, least significant first, then the data lane). -/

theorem test_decode_peripheral :
    decode Config.default (.bus [0x80, 0x00, 0x00, 0x00]) = .ok (.readPeriphA 0x0080) ∧
    decode Config.default (.bus [0x80, 0x00, 0x01, 0x44]) = .ok (.writePeriphA 0x0080 0x44) ∧
    decode Config.default (.bus [0x30, 0x00, 0x00, 0x00]) = .ok (.readPeriphB 0x0030) ∧
    decode Config.default (.bus [0x09, 0x00, 0x01, 0x44]) = .ok (.writePeriphB 0x0009 0x44) ∧
    decode Config.default (.bus [0x30, 0x02, 0x00, 0x00]) = .ok (.readLowNone 0x0230) ∧
    decode Config.default (.bus [0x05, 0x02, 0x01, 0x44]) = .ok (.writeLowNone 0x0205 0x44) := by decide

theorem test_decode_engines :
    decode Config.default (.bus [0xEE, 0x1F, 0x00, 0x00]) = .ok .readAmplitude ∧
    decode Config.default (.bus [0xEE, 0x1F, 0x01, 0x01]) = .ok (.writeRoAmplitude 0x01) ∧
    decode Config.default (.bus [0xEF, 0x1F, 0x00, 0x00]) = .ok .readDsread ∧
    decode Config.default (.bus [0xEF, 0x1F, 0x01, 0x02]) = .ok (.writeRoDsread 0x02) ∧
    decode Config.default (.bus [0xF0, 0x1F, 0x00, 0x00]) = .ok .readWoDswrite ∧
    decode Config.default (.bus [0xF0, 0x1F, 0x01, 0x5A]) = .ok (.writeDswrite 0x5A) ∧
    decode Config.default (.bus [0xF1, 0x1F, 0x00, 0x00]) = .ok .readWoDsptr ∧
    decode Config.default (.bus [0xF1, 0x1F, 0x01, 0xAB]) = .ok (.writeDsptr 0xAB) ∧
    decode Config.default (.bus [0xF2, 0x1F, 0x00, 0x00]) = .ok .readWoSetmode ∧
    decode Config.default (.bus [0xF2, 0x1F, 0x01, 0xF0]) = .ok (.writeSetmode 0xF0) ∧
    decode Config.default (.bus [0xF3, 0x1F, 0x00, 0x00]) = .ok .readWoCallfn ∧
    decode Config.default (.bus [0xF3, 0x1F, 0x01, 0xFF]) = .ok (.writeCallfn 0xFF) ∧
    decode Config.default (.bus [0xF4, 0x1F, 0x00, 0x00]) = .ok .readNopFf4 ∧
    decode Config.default (.bus [0xF4, 0x1F, 0x01, 0x03]) = .ok (.writeNopFf4 0x03) := by decide

theorem test_decode_banks :
    decode Config.default (.bus [0xF5, 0x1F, 0x00, 0x00]) = .ok .readBank0 ∧
    decode Config.default (.bus [0xF5, 0x1F, 0x01, 0x10]) = .ok (.writeBank0 0x10) ∧
    decode Config.default (.bus [0xF6, 0x1F, 0x00, 0x00]) = .ok .readBank1 ∧
    decode Config.default (.bus [0xF6, 0x1F, 0x01, 0x11]) = .ok (.writeBank1 0x11) ∧
    decode Config.default (.bus [0xF7, 0x1F, 0x00, 0x00]) = .ok .readBank2 ∧
    decode Config.default (.bus [0xF7, 0x1F, 0x01, 0x12]) = .ok (.writeBank2 0x12) ∧
    decode Config.default (.bus [0xF8, 0x1F, 0x00, 0x00]) = .ok .readBank3 ∧
    decode Config.default (.bus [0xF8, 0x1F, 0x01, 0x13]) = .ok (.writeBank3 0x13) ∧
    decode Config.default (.bus [0xF9, 0x1F, 0x00, 0x00]) = .ok .readBank4 ∧
    decode Config.default (.bus [0xF9, 0x1F, 0x01, 0x14]) = .ok (.writeBank4 0x14) ∧
    decode Config.default (.bus [0xFA, 0x1F, 0x00, 0x00]) = .ok .readBank5 ∧
    decode Config.default (.bus [0xFA, 0x1F, 0x01, 0x15]) = .ok (.writeBank5 0x15) ∧
    decode Config.default (.bus [0xFB, 0x1F, 0x00, 0x00]) = .ok .readBank6 ∧
    decode Config.default (.bus [0xFB, 0x1F, 0x01, 0x16]) = .ok (.writeBank6 0x16) := by decide

/-- Both ends of row 18 and the mirror that bits 15:13 make (rule R105). -/
theorem test_decode_rom :
    decode Config.default (.bus [0x00, 0x10, 0x00, 0x00]) = .ok (.readRom 0x000) ∧
    decode Config.default (.bus [0xED, 0x1F, 0x01, 0x55]) = .ok (.writeRom 0xFED 0x55) ∧
    decode Config.default (.bus [0xFC, 0x1F, 0x00, 0x00]) = .ok (.readRom 0xFFC) ∧
    decode Config.default (.bus [0xFF, 0xFF, 0x01, 0x55]) = .ok (.writeRom 0xFFF 0x55) ∧
    decode Config.default (.bus [0xEE, 0xFF, 0x00, 0x00]) = .ok .readAmplitude := by decide

/-- Format CB: `fn`, channel and value, least significant byte first (rule R72). -/
theorem test_decode_callbacks :
    decode Config.default (.cb [0, 1, 0, 0, 0, 0x00, 0x00, 0x80, 0x00]) = .ok (.cbSetFreq 1 0x00800000) ∧
    decode Config.default (.cb [1, 0, 0, 0, 0, 0xFF, 0xFF, 0, 0]) = .ok (.cbResetCounter 0 0xFFFF) ∧
    decode Config.default (.cb [2, 2, 0, 0, 0, 0, 0, 0, 0]) = .ok (.cbGetCounter 2 0) ∧
    decode Config.default (.cb [3, 0, 0, 0, 1, 0x20, 0x01, 0, 0]) = .ok (.cbSetWshift 0x01000000 0x120) := by decide

/-- Format PORT (rule R73). -/
theorem test_decode_port :
    decode Config.default (.port .bank [.nat 3]) = .ok (.portBank 3) ∧
    decode Config.default (.port .patch [.addr 0x1234, .byte 0xEA]) = .ok (.portPatch 0x1234 0xEA) ∧
    decode Config.default (.port .lock []) = .ok .portLock ∧
    decode Config.default (.port .unlock []) = .ok .portUnlock ∧
    decode Config.default (.port .queryBankChanged []) = .ok .portQueryBankChanged ∧
    decode Config.default (.port .save []) = .ok .portSave ∧
    decode Config.default (.port .load [.bytes [0x42, 0x55]]) = .ok (.portLoad [0x42, 0x55]) ∧
    decode Config.default (.port .reset []) = .ok .portReset ∧
    decode Config.default (.port .timingChanged []) = .ok .portTimingChanged := by decide

/-- Requests that are no operation are refused by name (rules R70, R73, R80). -/
theorem test_decode_refuses :
    decode Config.default (.bus [0x00, 0x10, 0x02, 0x00]) = .error .accessWordBits ∧
    decode Config.default (.bus [0x00, 0x10, 0x00]) = .error .frameLength ∧
    decode Config.default (.cb [4, 0, 0, 0, 0, 0, 0, 0, 0]) = .error .unknownCallback ∧
    decode Config.default (.port .bank []) = .error .portArguments := by decide

/-- Words of spec/opcode_table.json. -/
theorem test_tableWord :
    decodeTableWord 24 0x00080 = some (.readPeriphA 0x0080) ∧ decodeTableWord 24 0x11FF3 = some (.writeCallfn 0) ∧
    decodeTableWord 8 0x2 = some (.cbGetCounter 0 0) ∧ decodeTableWord 0 0 = none := by decide

theorem test_fetchWord_bus :
    nextWith (step (State.reset.withFetchWord 24 0x11FFB))
      (fun t => t.bank == 6 && t.result == .flag true && t.inbox == []) = true := by decide

theorem test_fetchWord_callback :
    nextWith (step (State.reset.withFetchWord 8 0x1)) (fun t => t.ch0.counter == 0 && t.result == .word none) = true := by
  decide

/-! One step of each operation, on the vectors. -/

/-- V1 and V2. -/
theorem test_readPeriphA :
    nextWith (exec (.readPeriphA 0x0280) { base with input := { Input.idle with periphA := 0x77 } })
      (fun t => t.result == .byte 0x77 && t.out == [.periphRead .a 0x0280]) = true := by decide

/-- V3. -/
theorem test_readPeriphB :
    nextWith (exec (.readPeriphB 0x0030) { base with input := { Input.idle with periphB := 0x66 } })
      (fun t => t.result == .byte 0x66 && t.out == [.periphRead .b 0x0030]) = true := by decide

/-- V4: the byte is free, the state stays. -/
theorem test_readLowNone :
    nextWith (exec (.readLowNone 0x0230) base) (fun t => t.out == [] && t.ram == base.ram && t.bank == 6) = true := by
  decide

/-- The setup of V43: `map(0x1B)` = 3, `ptr(3)` = 0x01000000, `inc(3)` = 0x0100, `Ram[0x810]` = 0xF0. -/
def overdriveSetup (t : Byte) : State :=
  { withCells [] [(0x6DF, 0x01), (0x725, 0x01), (0x7CC, 0x03), (0x810, 0xF0)] with odTarget := some t }

/-- The end state of V43. -/
def overdriven (t : State) : Bool :=
  t.ptr 3 == 0x01100000 && t.map 0x1B == 0x30000000 && t.odTarget == none && t.result == .flag false

/-- V43. -/
theorem test_writePeriphB_overdrive :
    nextWith (exec (.writePeriphB 0x001B 0xFF) (overdriveSetup 0x1B))
      (fun t => overdriven t && t.out == [.periphWrite .b 0x001B 0xF0]) = true := by decide

/-- V44: the byte is ANDed. -/
theorem test_writePeriphB_overdrive_and :
    nextWith (exec (.writePeriphB 0x001B 0x3C)
        { overdriveSetup 0x1B with cfg := { Config.default with overdriveCombine := .and } })
      (fun t => overdriven t && t.out == [.periphWrite .b 0x001B 0x30]) = true := by decide

/-- V46: bit 7 of the target selects the peripheral, not the map slot. -/
theorem test_writePeriphA_overdrive :
    nextWith (exec (.writePeriphA 0x009B 0xFF) (overdriveSetup 0x9B))
      (fun t => overdriven t && t.out == [.periphWrite .a 0x009B 0xF0]) = true := by decide

/-- V45: target 0x25 lies above the limit, so that the written byte goes on. -/
theorem test_writePeriphB_aboveLimit :
    nextWith (exec (.writePeriphB 0x0025 0x11) { base with odTarget := some 0x25 })
      (fun t => t.odTarget == none && t.ram == base.ram && t.out == [.periphWrite .b 0x0025 0x11]) = true := by
  decide

/-- V6: no peripheral, the byte is dropped, the capture consumed. -/
theorem test_writeLowNone :
    nextWith (exec (.writeLowNone 0x0205 0x44) { base with odTarget := some 0x05 })
      (fun t => t.odTarget == none && t.out == [] && t.result == .flag false) = true := by decide

/-- V10. -/
theorem test_readRom :
    nextWith (exec (.readRom 0x000) (withCells [(0x7000, 0xA9)] [])) (fun t => t.result == .byte 0xA9) = true := by
  decide

/-- V29, second access: the operand of the STY is latched. -/
theorem test_readRom_latch :
    nextWith (exec (.readRom 0x201) { busStuff (withCells [(0x7200, 0x84), (0x7201, 0x1B)] []) with styAddr := some 0x201 })
      (fun t => t.result == .byte 0x1B && t.styAddr == none && t.odTarget == some 0x1B) = true := by decide

/-- The image and RAM of V22. -/
def jumpSetup : State :=
  busStuff (withCells [(0x7100, 0x4C)] [(0x717, 0x20), (0xA00, 0x34), (0xA01, 0x12)])

/-- V22, first access: the intercept is armed. -/
theorem test_arm :
    nextWith (exec (.readRom 0x100) jumpSetup)
      (fun t => t.result == .byte 0x4C && t.jmpAddr == some 0x101 && t.jmpCount == 2) = true := by decide

/-- V22, second access: an operand byte comes from stream 17. -/
theorem test_serve :
    nextWith (exec (.readRom 0x101) { jumpSetup with jmpAddr := some 0x101, jmpCount := 2 })
      (fun t => t.result == .byte 0x34 && t.ptr 17 == 0x20100000 && t.jmpAddr == some 0x102 && t.jmpCount == 1) = true := by
  decide

/-- V24: no arm while bus-stuff is off. -/
theorem test_arm_off :
    nextWith (exec (.readRom 0x100) { jumpSetup with mode := 0xFF })
      (fun t => t.result == .byte 0x4C && t.jmpAddr == none && t.jmpCount == 0) = true := by decide

/-- V28, first access: the lookahead reads on into the next bank, and offset 0x1000 is expected. -/
theorem test_arm_atBankEnd :
    nextWith (exec (.readRom 0xFFF) { busStuff (withCells [(0x1FFF, 0x4C)] []) with bank := 0 })
      (fun t => t.result == .byte 0x4C && t.jmpAddr == some 0x1000 && t.jmpCount == 2) = true := by decide

/-- V12: the byte of the bank before the switch. -/
theorem test_readBank0 :
    nextWith (exec .readBank0 (withCells [(0x1FF5, 0xB0), (0x7FF5, 0xB6)] []))
      (fun t => t.result == .byte 0xB6 && t.bank == 0 && t.bankChanged) = true := by decide

/-- V16: a locked read switches nothing. -/
theorem test_readBank0_locked :
    nextWith (exec .readBank0 { withCells [(0x7FF5, 0xB6)] [] with locked := true })
      (fun t => t.result == .byte 0xB6 && t.bank == 6) = true := by decide

/-- Rule R117, each other hotspot. -/
theorem test_readBanks :
    nextWith (exec .readBank1 base) (fun t => t.bank == 1) = true ∧
    nextWith (exec .readBank2 base) (fun t => t.bank == 2) = true ∧
    nextWith (exec .readBank3 base) (fun t => t.bank == 3) = true ∧
    nextWith (exec .readBank4 base) (fun t => t.bank == 4) = true ∧
    nextWith (exec .readBank5 base) (fun t => t.bank == 5) = true ∧
    nextWith (exec .readBank6 { base with bank := 0 }) (fun t => t.bank == 6) = true := by decide

/-- V13 and V15, and rule R124 for each other hotspot. -/
theorem test_writeBanks :
    nextWith (exec (.writeBank6 0) { base with bank := 0 }) (fun t => t.bank == 6 && t.result == .flag true) = true ∧
    nextWith (exec (.writeBank0 0) { base with locked := true }) (fun t => t.bank == 6 && t.result == .flag false) = true ∧
    nextWith (exec (.writeBank0 0) base) (fun t => t.bank == 0 && t.result == .flag true) = true ∧
    nextWith (exec (.writeBank1 0) base) (fun t => t.bank == 1) = true ∧
    nextWith (exec (.writeBank2 0) base) (fun t => t.bank == 2) = true ∧
    nextWith (exec (.writeBank3 0) base) (fun t => t.bank == 3) = true ∧
    nextWith (exec (.writeBank4 0) base) (fun t => t.bank == 4) = true ∧
    nextWith (exec (.writeBank5 0) base) (fun t => t.bank == 5) = true := by decide

/-- V18, V19 and rule R119: reads of the write-only hotspots give the ROM byte. -/
theorem test_writeOnlyReads :
    nextWith (exec .readWoCallfn (withCells [(0x7FF3, 0x77)] [])) (fun t => t.result == .byte 0x77 && t.out == []) = true ∧
    nextWith (exec .readNopFf4 (withCells [(0x7FF4, 0x66)] [])) (fun t => t.result == .byte 0x66) = true ∧
    nextWith (exec .readWoDswrite (withCells [(0x7FF0, 0x11)] [])) (fun t => t.result == .byte 0x11) = true ∧
    nextWith (exec .readWoDsptr (withCells [(0x7FF1, 0x12)] [])) (fun t => t.result == .byte 0x12) = true ∧
    nextWith (exec .readWoSetmode (withCells [(0x7FF2, 0x13)] [])) (fun t => t.result == .byte 0x13) = true := by
  decide

/-- V19 to V21 and V47: writes without an effect, but for the capture. -/
theorem test_nopWrites :
    nextWith (exec (.writeNopFf4 0) (overdriveSetup 0x1B)) (fun t => t.odTarget == none && t.result == .flag false) = true ∧
    nextWith (exec (.writeRoDsread 0) (withCells [] [(0x712, 0x30)])) (fun t => t.ptr 16 == 0x00300000) = true ∧
    nextWith (exec (.writeRoAmplitude 0) base) (fun t => t.audioCycles == 0 && t.result == .flag false) = true ∧
    nextWith (exec (.writeRom 0x000 0x55) (withCells [(0x7000, 0xA9)] [])) (fun t => t.img == [(0x7000, 0xA9)]) = true := by
  decide

/-- V34. -/
theorem test_readDsread :
    nextWith (exec .readDsread (withCells [] [(0x712, 0x30), (0x713, 0x12), (0x759, 0x01), (0x923, 0xAB)]))
      (fun t => t.result == .byte 0xAB && t.ptr 16 == 0x12400000) = true := by decide

/-- V36: the pointer wraps. -/
theorem test_readDsread_wraps :
    nextWith (exec .readDsread (withCells [] [(0x712, 0xF0), (0x713, 0xFF), (0x759, 0x01), (0x17FF, 0xCD)]))
      (fun t => t.result == .byte 0xCD && t.ptr 16 == 0) = true := by decide

/-- V38. -/
theorem test_writeDswrite :
    nextWith (exec (.writeDswrite 0x5A) (withCells [] [(0x712, 0x30), (0x713, 0x12)]))
      (fun t => t.ramByte 0x923 == 0x5A && t.ptr 16 == 0x12400000 && t.result == .flag false) = true := by decide

/-- V39: the pointer wraps, the fraction is kept. -/
theorem test_writeDswrite_wraps :
    nextWith (exec (.writeDswrite 0x01) (withCells [] [(0x710, 0x45), (0x711, 0x23), (0x712, 0xF1), (0x713, 0xFF)]))
      (fun t => t.ramByte 0x17FF == 0x01 && t.ptr 16 == 0x00012345) = true := by decide

/-- V40. -/
theorem test_writeDsptr :
    nextWith (exec (.writeDsptr 0xAB) (withCells [] [(0x710, 0x78), (0x711, 0x56), (0x712, 0x34), (0x713, 0x12)]))
      (fun t => t.ptr 16 == 0x3AB00000) = true := by decide

/-- V51: the clock conversion. -/
theorem test_readAmplitude_clock :
    nextWith (exec .readAmplitude { base with input := atCycle 1194, ch0 := ⟨0, 1, 27⟩ })
      (fun t => t.carry == decimal17 1354909451535491 && t.audioCycles == 1194 && t.ch0.counter == 20) = true := by
  decide +kernel

/-- V56: the longest interval. Its printed carry is the one that rule R161 gives from V55's end state, carry
0.005705984649012841, not from carry 0 (notes/assumptions/17.md). -/
theorem test_readAmplitude_longest :
    nextWith (exec .readAmplitude { base with
        input := atCycle 2147483647, carry := round64 (mkRat 5705984649012841 (10 ^ 18)), ch1 := ⟨0, 1, 27⟩ })
      (fun t => t.carry == decimal17 26776911318302155 && t.ch1.counter == 35995619) = true := by
  decide +kernel

/-- V57 and V58. -/
theorem test_readAmplitude_faults :
    faultsWith (exec .readAmplitude { base with input := atCycle 2147483648 }) .cycleDelta = true ∧
    faultsWith (exec .readAmplitude { base with input := atCycle 400, audioCycles := 500 }) .cycleDelta = true := by
  decide

/-- V59: a counter wraps (60 cycles are one whole clock, V55). -/
theorem test_counter_wraps :
    nextWith (exec .readAmplitude { base with input := atCycle 60, ch0 := ⟨0xFFFFFFF0, 0x10, 27⟩ })
      (fun t => t.ch0.counter == 0) = true := by decide +kernel

/-- The waveform bases of V60 and its display bytes. -/
def voices : Memory :=
  [(0x7F5, 0x09), (0x7F7, 0x40), (0x7F9, 0x0A), (0x7FB, 0x40), (0x7FD, 0x0B), (0x7FF, 0x40), (0x902, 0x05), (0xA00, 0x07),
    (0xB00, 0xFF)]

/-- V60: three voices, mod 256. -/
theorem test_voiceAmplitude :
    nextWith (exec .readAmplitude { withCells [] voices with ch0 := ⟨0x14000000, 0, 27⟩ })
      (fun t => t.result == .byte 0x0B) = true := by decide +kernel

/-- The digital-sample setups of V64 to V67. -/
def digital (img ram : Memory) (counter : Word32) : State :=
  { withCells img ram with mode := 0x0F, ch0 := ⟨counter, 0, 27⟩ }

/-- V64, V65, V66 and V67. -/
theorem test_sampleAmplitude :
    nextWith (exec .readAmplitude (digital [] [(0x7F5, 0x09), (0x7F7, 0x40), (0x9A0, 0x3C)] 0x14000000))
      (fun t => t.result == .byte 0x03) = true ∧
    nextWith (exec .readAmplitude (digital [] [(0x7F5, 0x09), (0x7F7, 0x40), (0x9A0, 0x3C)] 0x14100000))
      (fun t => t.result == .byte 0x0C) = true ∧
    nextWith (exec .readAmplitude (digital [(0x100A, 0xA7)] [(0x7F5, 0x10)] 0x01500000))
      (fun t => t.result == .byte 0x07) = true ∧
    nextWith (exec .readAmplitude (digital [] [(0x7F7, 0x20)] 0x01500000))
      (fun t => t.result == .byte 0x00) = true := by decide +kernel

/-- V75. -/
theorem test_writeSetmode :
    nextWith (exec (.writeSetmode 0xF0) base)
      (fun t => t.mode == 0xF0 && t.busStuffOn && !t.digitalOn && t.result == .flag false) = true := by decide

/-- V77 and V80: a run of 300 cycles whose bridge writes RAM, calls back and faults. -/
theorem test_writeCallfn_runs :
    nextWith (exec (.writeCallfn 0xFE) { base with
        armCycles := 100
        input := { atCycle 400 with
          bridge := { actions := [.ramWrite 0x90A 0x3C, .call 0 0 0x00100000], fault := some "x" } } })
      (fun t => t.armCycles == 400 && t.ramByte 0x90A == 0x3C && t.ch0.freq == 0x00100000 && t.result == .flag false &&
        t.out == [.fatalCoprocessorFault "x", .callbackReturn none, .bridgeRun 300]) = true := by decide

/-- V78. -/
theorem test_writeCallfn_other :
    nextWith (exec (.writeCallfn 0x05) { base with armCycles := 100, input := atCycle 400 })
      (fun t => t.armCycles == 100 && t.out == []) = true := by decide

/-- V68 and V74. -/
theorem test_cbSetFreq :
    nextWith (exec (.cbSetFreq 1 0x00800000) { base with inRun := true })
      (fun t => t.ch1.freq == 0x00800000 && t.result == .word none) = true ∧
    refusedWith (exec (.cbSetFreq 0 1) base) .callbackOutsideRun = true := by decide

/-- V69. -/
theorem test_cbResetCounter :
    nextWith (exec (.cbResetCounter 0 0xFFFF) { base with inRun := true, ch0 := ⟨0x1234, 5, 27⟩ })
      (fun t => t.ch0 == ⟨0, 5, 27⟩ && t.result == .word none) = true := by decide

/-- V70. -/
theorem test_cbGetCounter :
    nextWith (exec (.cbGetCounter 2 0) { base with inRun := true, ch2 := ⟨0x12345678, 0, 27⟩ })
      (fun t => t.result == .word (some 0x12345678)) = true := by decide

/-- V71 and V72. -/
theorem test_cbSetWshift :
    nextWith (exec (.cbSetWshift 0 0x120) { base with inRun := true }) (fun t => t.ch0.wshift == 0x20) = true ∧
    faultsWith (exec (.cbSetFreq 3 1) { base with inRun := true }) .badChannelIndex = true := by decide

/-- V73. -/
theorem test_unknownCallback :
    refusedWith (step { base with
        inRun := true, inbox := [{ input := Input.idle, request := .cb [4, 0, 0, 0, 0, 0, 0, 0, 0] }] })
      .unknownCallback = true := by decide

/-- V83 and V84. -/
theorem test_portBank :
    nextWith (exec (.portBank 3) { base with bankChanged := false })
      (fun t => t.bank == 3 && t.bankChanged && t.result == .flag true) = true ∧
    refusedWith (exec (.portBank 7) base) .bankOutOfRange = true := by decide

/-- V86 and V87. -/
theorem test_portPatch :
    nextWith (exec (.portPatch 0x1040 0xEA) base) (fun t => t.img == [(0x7040, 0xEA)] && t.result == .flag true) = true ∧
    nextWith (exec (.portPatch 0x103F 0xEA) base) (fun t => t.img == [] && t.result == .flag false) = true := by
  decide

/-- V88. -/
theorem test_portPatch_locked :
    nextWith (exec (.portPatch 0x1234 0xEA) { base with locked := true })
      (fun t => t.img == [] && t.result == .flag false) = true := by decide

/-- V91, the second lock and the unlock. -/
theorem test_portLock :
    nextWith (exec .portLock { base with locked := true }) (fun t => t.locked) = true ∧
    nextWith (exec .portUnlock { base with locked := true }) (fun t => !t.locked) = true := by decide

/-- V92 and V93. -/
theorem test_portQueryBankChanged :
    nextWith (exec .portQueryBankChanged base) (fun t => t.result == .flag true && !t.bankChanged) = true ∧
    nextWith (exec .portTimingChanged base) (fun t => t.result == .unit && t.bankChanged) = true := by decide

/-- The state of V94. -/
def savable : State :=
  { base with audioCycles := 500, armCycles := 500 }

/-- V94: the fields of the snapshot after a reset at cycle 500. -/
theorem test_snapshot : { savable.snapshot 0 with ram := [] } = sampleSnapshot [] ∧ savable.savedCarry = some 0 := by
  decide +kernel

/-- V94: the bytes that the save returns. -/
theorem test_portSave : ∃ t, exec .portSave savable = .next t ∧
    t.result = .snapshot (encodeSnapshot savable.cfg.codecs (savable.snapshot 0)) := by
  refine ⟨_, execPortSave_next (by decide) (by decide), ?_⟩
  rw [test_snapshot.2]
  rfl

/-- V95: field 8. -/
theorem test_savedCarry : { base with carry := decimal17 1354909451535491 }.savedCarry = some 1354909 := by
  decide +kernel

/-- V95: the carry comes back rounded to the scale. -/
theorem test_portLoad :
    nextWith (exec (.portLoad (encodeSnapshot base.cfg.codecs { sampleSnapshot zeroRam with carry := 1354909 }))
        { base with bankChanged := false })
      (fun t => t.result == .flag true && t.bankChanged && t.carry == round64 (mkRat 1354909 (10 ^ 8)) &&
        t.audioCycles == 500 && t.bank == 6) = true := by
  refine (congrArg (nextWith · _) (execPortLoad_encodeSnapshot rfl zeroRam_length rfl)).trans ?_
  decide +kernel

/-- V98: a count without an address. -/
theorem test_portLoad_normalizes :
    nextWith (exec (.portLoad (encodeSnapshot base.cfg.codecs { sampleSnapshot zeroRam with jmpCount := 2 })) base)
      (fun t => t.jmpAddr == none && t.jmpCount == 0 && t.result == .flag true) = true := by
  refine (congrArg (nextWith · _) (execPortLoad_encodeSnapshot rfl zeroRam_length rfl)).trans ?_
  decide +kernel

/-- The range of a snapshot's fields at both ends (rules R28, R29, R194). -/
theorem test_inRange :
    { sampleSnapshot [] with bank := 6, jmpCount := 2, sty := 0x1000, jmp := 0x1000 }.inRange = true ∧
    { sampleSnapshot [] with bank := 7 }.inRange = false ∧ { sampleSnapshot [] with jmpCount := 3 }.inRange = false ∧
    { sampleSnapshot [] with sty := 0x1001 }.inRange = false ∧ { sampleSnapshot [] with jmp := 0x1001 }.inRange = false := by
  decide

/-- The largest captured offset is stored and saved as it is (rules R28, R29, R194, R195). -/
theorem test_restore_offset :
    let t := base.restore { sampleSnapshot [] with sty := 0x1000, jmp := 0x1000, jmpCount := 1 } 6
    t.styAddr = some 0x1000 ∧ t.jmpAddr = some 0x1000 ∧ t.jmpCount = 1 ∧
    (t.snapshot 0).sty = 0x1000 ∧ (t.snapshot 0).jmp = 0x1000 ∧ t.intercepts 0 = false := ⟨rfl, rfl, rfl, rfl, rfl, rfl⟩

/-- V96, and bytes that go on and so do not decode: another name leaves the state unchanged (rule R210 row 4). -/
theorem test_portLoad_otherName (rest : List Byte) :
    exec (.portLoad (encodeSnapshot base.cfg.codecs { sampleSnapshot zeroRam with name := "OTHER" } ++ rest)) base =
      .next (base.ret (.flag false)) := by
  obtain ⟨rest', h⟩ := read_name_encodeSnapshot base.cfg.codecs { sampleSnapshot zeroRam with name := "OTHER" } rest
  exact execPortLoad_otherName ((readsOtherName_iff _ _ _).2 ⟨_, _, h, by decide⟩)

/-- V101. -/
theorem test_portReset :
    nextWith (exec .portReset { withCells [(0x6D2, 0x30), (0x6D3, 0x12)] [] with input := atCycle 500, bank := 0, mode := 0 })
      (fun t => t.bank == 6 && t.mode == 0xFF && t.ptr 0 == 0x12300000 && t.ch1.wshift == 27 && t.audioCycles == 500 &&
        t.armCycles == 500) = true := by decide

/-- V100 and V103. -/
theorem test_portReset_refused :
    refusedWith (exec .portReset { base with locked := true }) .resetWhileLocked = true ∧
    refusedWith (create Config.default (List.replicate 4096 0) Input.idle) .badLayout = true := by decide +kernel

/-! Witnesses: for each statement with hypotheses, states and operands that meet all of them together, each clause at the
boundary of its range. -/

/-- From a passed check to the state that passed it. -/
theorem exists_next {o : OpOutcome} {p : State → Bool} (h : nextWith o p = true) : ∃ t, o = .next t ∧ p t = true := by
  cases o with
  | next t => exact ⟨t, rfl, h⟩
  | fault r => cases h
  | refused r => cases h

theorem witness_DecodeOfEncodeIsTheOperation :
    (Instr.writePeriphA 0xEFFF 1).wf Config.default = true ∧ (Instr.readPeriphB 0x0C7F).wf Config.default = true ∧
    (Instr.readLowNone 0x0200).wf Config.default = true ∧ (Instr.readRom 0xFED).wf Config.default = true ∧
    (Instr.writeRom 0xFFC 2).wf Config.default = true ∧ (Instr.cbSetFreq 5 6).wf Config.default = true ∧
    (Instr.portBank 9).wf Config.default = true := by decide

/-- The four clauses: A with and without bit 9, B, none, and a window address beside its mirror. -/
theorem witness_AddressDecoderRoutes :
    ((0x0080 : Addr).getLsbD 12 = false ∧ (0x0080 : Addr).getLsbD 7 = true) ∧
    ((0x0280 : Addr).getLsbD 12 = false ∧ (0x0280 : Addr).getLsbD 7 = true) ∧
    ((0x007F : Addr).getLsbD 12 = false ∧ (0x007F : Addr).getLsbD 7 = false ∧
      (0x007F : Addr).getLsbD 9 = Config.default.periphBBit9) ∧
    ((0x0200 : Addr).getLsbD 12 = false ∧ (0x0200 : Addr).getLsbD 7 = false ∧
      (0x0200 : Addr).getLsbD 9 ≠ Config.default.periphBBit9) ∧
    (0x1000 : Addr).getLsbD 12 = true ∧ (0xFFEE : Addr).getLsbD 12 = true := by decide

/-- One waiting operation. -/
def waiting (r : Request) : State :=
  { base with inbox := [{ input := atCycle 7, request := r }] }

theorem witness_StepRunsTheDecodedOperation :
    (waiting (.port .bank [.nat 3])).inbox = { input := atCycle 7, request := .port .bank [.nat 3] } :: [] ∧
    decode (waiting (.port .bank [.nat 3])).cfg (.port .bank [.nat 3]) = .ok (.portBank 3) := by decide

theorem witness_StepWithoutAnOperation :
    base.inbox = [] ∧ 3 < (4 : Byte).toNat ∧
    (waiting (.cb [4, 0, 0, 0, 0, 0, 0, 0, 0])).inbox =
      { input := atCycle 7, request := .cb [4, 0, 0, 0, 0, 0, 0, 0, 0] } :: [] := by decide

/-- No capture; a capture of another address; a capture one above the limit. -/
theorem witness_PeripheralWriteWithoutOverdrive :
    periphWriteOf (.writePeriphB 0x0025 0x11) = some (0x0025, 0x11, some .b) ∧
    periphWriteOf (.writePeriphA 0x00A5 0x11) = some (0x00A5, 0x11, some .a) ∧
    periphWriteOf (.writeLowNone 0x0205 0x11) = some (0x0205, 0x11, none) ∧
    (∀ t : Byte, base.odTarget = some t → (0x0025 : Addr) ≠ t.setWidth 16 ∨ 0x24 < (t &&& 0x7F).toNat) ∧
    (∀ t : Byte, (overdriveSetup 0x05).odTarget = some t → (0x0205 : Addr) ≠ t.setWidth 16 ∨ 0x24 < (t &&& 0x7F).toNat) ∧
    (∀ t : Byte, (overdriveSetup 0xA5).odTarget = some t → (0x00A5 : Addr) ≠ t.setWidth 16 ∨ 0x24 < (t &&& 0x7F).toNat) := by
  refine ⟨rfl, rfl, rfl, ?_, ?_, ?_⟩ <;> intro t ht <;> cases ht <;> decide

/-- Map slots 0x00, 0x1B and 0x24. -/
theorem witness_OverdrivenWriteDeliversTheStreamByte :
    Config.default.wf = true ∧
    (periphWriteOf (.writePeriphB 0x001B 0xFF) = some (0x001B, 0xFF, some .b) ∧
      (overdriveSetup 0x1B).odTarget = some 0x1B ∧ (0x001B : Addr) = (0x1B : Byte).setWidth 16 ∧
      ((0x1B : Byte) &&& 0x7F).toNat ≤ 0x24 ∧ ((overdriveSetup 0x1B).map 0x1B &&& 0xF).toNat = 3 ∧
      (overdriveSetup 0x1B).ramByte (0x800 + ((overdriveSetup 0x1B).ptr 3 >>> 20).toNat) = 0xF0) ∧
    (periphWriteOf (.writePeriphA 0x00A4 0xFF) = some (0x00A4, 0xFF, some .a) ∧
      (overdriveSetup 0xA4).odTarget = some 0xA4 ∧ (0x00A4 : Addr) = (0xA4 : Byte).setWidth 16 ∧
      ((0xA4 : Byte) &&& 0x7F).toNat = 0x24) ∧
    (periphWriteOf (.writePeriphB 0x0000 0xFF) = some (0x0000, 0xFF, some .b) ∧
      (overdriveSetup 0x00).odTarget = some 0x00 ∧ (0x0000 : Addr) = (0x00 : Byte).setWidth 16) := by decide

theorem witness_LockedReadReturnsTheRomByte :
    windowRead .readAmplitude = some 0xFEE ∧ windowRead (.readRom 0xFFF) = some 0xFFF ∧
    { base with locked := true }.locked = true := by decide

/-- Both counts, at the last offset and at a hotspot. -/
theorem witness_InterceptServesTheJumpStream :
    (windowRead .readDsread = some 0xFEF ∧ base.locked = false ∧
      { base with jmpCount := 2, jmpAddr := some 0x0FEF }.jmpCount ≠ 0 ∧
      { base with jmpCount := 2, jmpAddr := some 0x0FEF }.jmpAddr = some ((0xFEF : Offset).setWidth 13)) ∧
    (windowRead (.readRom 0xFFF) = some 0xFFF ∧
      { base with jmpCount := 1, jmpAddr := some 0x0FFF }.jmpCount ≠ 0 ∧
      { base with jmpCount := 1, jmpAddr := some 0x0FFF }.jmpAddr = some ((0xFFF : Offset).setWidth 13)) := by decide

/-- `4C 00 00` in the last three bytes of the image. -/
theorem witness_JmpZeroArmsTheIntercept :
    windowRead (.readRom 0xFFD) = some 0xFFD ∧
    let s := busStuff (withCells [(0x7FFD, 0x4C)] [])
    s.locked = false ∧ ¬ (s.jmpCount ≠ 0 ∧ s.jmpAddr = some ((0xFFD : Offset).setWidth 13)) ∧ s.busStuffOn = true ∧
    4096 + s.bank.val * 4096 + (0xFFD : Offset).toNat + 2 < 32768 ∧
    s.imgByte (4096 + s.bank.val * 4096 + (0xFFD : Offset).toNat) = 0x4C ∧
    s.imgByte (4096 + s.bank.val * 4096 + (0xFFD : Offset).toNat + 1) = 0x00 ∧
    s.imgByte (4096 + s.bank.val * 4096 + (0xFFD : Offset).toNat + 2) = 0x00 := by decide

/-- Offsets 0xFFE and 0xFFF. -/
theorem witness_LookaheadPastTheImageMayArm :
    let s := busStuff (withCells [(0x7FFE, 0x4C), (0x7FFF, 0x4C)] [])
    0xFFE ≤ (0xFFE : Offset).toNat ∧ 0xFFE ≤ (0xFFF : Offset).toNat ∧ s.bank = 6 ∧ s.locked = false ∧
    s.busStuffOn = true ∧ ¬ (s.jmpCount ≠ 0 ∧ s.jmpAddr = some ((0xFFE : Offset).setWidth 13)) ∧
    ¬ (s.jmpCount ≠ 0 ∧ s.jmpAddr = some ((0xFFF : Offset).setWidth 13)) ∧ s.rom 0xFFE = 0x4C ∧ s.rom 0xFFF = 0x4C := by
  decide

/-- A read goes on where the byte is no 0x4C, where bus-stuff is off, and where an intercept expects another offset. -/
theorem witness_PlainReadReturnsTheRomByte :
    (plainRead (.readRom 0x234) = some 0x234 ∧ (busStuff base).ReadsOn 0x234) ∧
    (plainRead .readWoCallfn = some 0xFF3 ∧ (withCells [(0x7FF3, 0x4C)] []).ReadsOn 0xFF3) ∧
    (plainRead .readNopFf4 = some 0xFF4 ∧ { base with jmpCount := 2, jmpAddr := some 0x101 }.ReadsOn 0xFF4) := by
  unfold State.ReadsOn
  decide

theorem witness_BankReadReturnsTheOldByteAndSwitches :
    bankRead .readBank0 = some (0xFF5, 0) ∧ base.ReadsOn 0xFF5 ∧ bankRead .readBank6 = some (0xFFB, 6) ∧
    (busStuff base).ReadsOn 0xFFB := by
  unfold State.ReadsOn
  decide

theorem witness_SwitchedBankIsWhatReadsReturn :
    bankWrite (.writeBank6 0) = some 6 ∧ bankWrite (.writeBank0 0) = some 0 ∧ base.locked = false ∧
    ¬ (base.jmpCount ≠ 0 ∧ base.jmpAddr = some ((0xFFF : Offset).setWidth 13)) ∧ { base with locked := true }.locked = true := by
  decide

/-- V34's state. -/
theorem witness_DsreadPopsTheCommStream :
    let s := withCells [] [(0x712, 0x30), (0x713, 0x12), (0x759, 0x01), (0x923, 0xAB)]
    s.ReadsOn 0xFEF ∧ (0xAB : Byte) = s.ramByte (0x800 + (s.ptr 16 >>> 20).toNat) := by
  unfold State.ReadsOn
  decide

/-- The shortest and the longest interval. -/
theorem witness_AmplitudeReadUpdatesTheAudioState :
    base.ReadsOn 0xFEE ∧ DeltaInRange base.input.hostCycles base.audioCycles ∧
    { base with input := atCycle 2147483647 }.ReadsOn 0xFEE ∧
    DeltaInRange { base with input := atCycle 2147483647 }.input.hostCycles base.audioCycles := by
  unfold State.ReadsOn DeltaInRange
  decide

/-- A value halfway between two binary64 values rounds to the even one, down and up. -/
theorem test_round64_ties : round64 (2 ^ 53 + 1) = 2 ^ 53 ∧ round64 (2 ^ 53 + 3) = 2 ^ 53 + 4 ∧
    round64 (-(2 ^ 53 + 3)) = -(2 ^ 53 + 4) := by decide +kernel

/-- A state whose `wave(0)` is `w`, in digital-sample mode. -/
def sampleAt (w : Word32) : State :=
  { base with ram := base.ram.store4 ramSize 0x7F4 w, mode := 0x0F }

/-- The sample byte at each end of the image, of the hole above it, of DeviceRAM's window and of what follows. -/
theorem witness_DigitalAmplitudeIsTheSampleNibble :
    (sampleAt 0x7FFF).ReadsOn 0xFEE ∧ DeltaInRange (sampleAt 0x7FFF).input.hostCycles (sampleAt 0x7FFF).audioCycles ∧
    (sampleAt 0x7FFF).digitalOn = true ∧
    (sampleAt 0x7FFF).wave 0 = 0x7FFF ∧ (sampleAt 0x8000).wave 0 = 0x8000 ∧ (sampleAt 0x3FFFFFFF).wave 0 = 0x3FFFFFFF ∧
    (sampleAt 0x40000000).wave 0 = 0x40000000 ∧ (sampleAt 0x40001FFF).wave 0 = 0x40001FFF ∧
    (sampleAt 0x40002000).wave 0 = 0x40002000 ∧
    nextWith (exec .readAmplitude (sampleAt 0x40002000)) (fun t => t.ch0.counter >>> 21 == 0) = true := by
  unfold State.ReadsOn DeltaInRange
  decide +kernel

/-- Shift 31; an index at the last byte of DeviceRAM, 0x800 + 0x100 + 0x16FF. -/
theorem witness_VoiceAmplitudeIsTheSumOfTheWaveforms :
    let s := { withCells [] voices with ch0 := ⟨0x000016FF, 0, 0⟩, ch1 := ⟨0xFFFFFFFF, 0, 31⟩ }
    s.ReadsOn 0xFEE ∧ DeltaInRange s.input.hostCycles s.audioCycles ∧ s.digitalOn = false ∧
    (s.wave 0 - 0x40000800).toNat = 0x100 ∧ (s.wave 1 - 0x40000800).toNat = 0x200 ∧
    (s.wave 2 - 0x40000800).toNat = 0x300 ∧
    nextWith (exec .readAmplitude s)
      (fun t => t.ch0 == s.ch0 && t.ch1 == s.ch1 && t.ch2 == s.ch2 &&
        0x800 + 0x100 + t.ch0.counter.toNat / 2 ^ t.ch0.wshift.toNat == 8191) = true := by
  unfold State.ReadsOn DeltaInRange
  decide +kernel

/-- One cycle too many, and one too few. -/
theorem witness_AmplitudeReadFaultsOutsideTheDeltaRange :
    { base with input := atCycle 2147483648 }.ReadsOn 0xFEE ∧
    ¬ DeltaInRange { base with input := atCycle 2147483648 }.input.hostCycles base.audioCycles ∧
    { base with audioCycles := 1 }.ReadsOn 0xFEE ∧
    ¬ DeltaInRange base.input.hostCycles { base with audioCycles := 1 }.audioCycles := by
  unfold State.ReadsOn DeltaInRange
  decide

/-- A carry of 0, and one of 2^60. -/
theorem witness_CarryStaysBelowOne :
    let s := { base with input := atCycle 1194 }
    let u := { s with carry := 2 ^ 60 }
    s.ReadsOn 0xFEE ∧ DeltaInRange s.input.hostCycles s.audioCycles ∧ 0 ≤ s.carry ∧
    u.ReadsOn 0xFEE ∧ DeltaInRange u.input.hostCycles u.audioCycles ∧ 0 ≤ u.carry ∧
    (∃ t, exec .readAmplitude s = .next t) ∧ ∃ t, exec .readAmplitude u = .next t := by
  have next : ∀ {s : State}, nextWith (exec .readAmplitude s) (fun _ => true) = true →
      ∃ t, exec .readAmplitude s = .next t := fun h => (exists_next h).imp fun _ ht => ht.1
  refine ⟨?_, ?_, ?_, ?_, ?_, ?_, next ?_, next ?_⟩
  · unfold State.ReadsOn; decide
  · unfold DeltaInRange; decide
  · decide +kernel
  · unfold State.ReadsOn; decide
  · unfold DeltaInRange; decide
  all_goals decide +kernel

theorem witness_NopWritesOnlyConsumeTheCapture :
    nopWrite (.writeRom 0x000 1) = true ∧ nopWrite (.writeRoAmplitude 2) = true ∧ nopWrite (.writeRoDsread 3) = true ∧
    nopWrite (.writeNopFf4 4) = true := by decide

/-- V39's pointer: the last display byte. -/
theorem witness_DswriteStoresAndAdvances :
    let s := withCells [] [(0x710, 0x45), (0x711, 0x23), (0x712, 0xF1), (0x713, 0xFF)]
    s.cfg.wf = true ∧ 0x17FF = 0x800 + (s.ptr 16 >>> 20).toNat := by decide

theorem witness_CallfnIgnoresOtherSelectors : (0xFD : Byte) ≠ 0xFE ∧ (0xFD : Byte) ≠ 0xFF ∧ (0x00 : Byte) ≠ 0xFE := by decide

/-- A bridge that does `actions`, at cycle `n`. -/
def bridgeAt (n : Nat) (actions : List BridgeAction) : State :=
  { base with input := { atCycle n with bridge := { actions := actions, fault := none } } }

/-- Both selectors, both ends of the delta, each kind of action on the last offset and channel. -/
theorem witness_CallfnRunsTheCoprocessor :
    let s := bridgeAt 2147483647 [.ramWrite 0x1FFF 1, .call 3 2 5]
    ((0xFE : Byte) = 0xFE ∨ (0xFE : Byte) = 0xFF) ∧ DeltaInRange s.input.hostCycles s.armCycles ∧
    (∀ x ∈ s.input.bridge.actions, x.allowed = true) ∧ DeltaInRange base.input.hostCycles base.armCycles := by
  unfold DeltaInRange
  decide

/-- A bridge that writes one byte twice, another once, and sets each field of channel 2. -/
def busyBridge : List BridgeAction :=
  [.ramWrite 0x1FFF 0x11, .call 0 2 5, .ramWrite 0 7, .call 1 2 0, .ramWrite 0x1FFF 0x3C, .call 0 2 6, .call 3 2 0x120, .call 2 0 0]

/-- Each clause, at the last offset and channel: the last write of a byte, a byte not written, a channel that no callback
names, and of channel 2 the last frequency, the counter and the shift; of channel 0 each field is kept. -/
theorem witness_CallfnRunAppliesWhatTheBridgeDoes :
    ((0xFF : Byte) = 0xFE ∨ (0xFF : Byte) = 0xFF) ∧
    DeltaInRange (bridgeAt 300 busyBridge).input.hostCycles (bridgeAt 300 busyBridge).armCycles ∧
    (bridgeAt 300 busyBridge).input.bridge.actions = busyBridge ∧ (∀ x ∈ busyBridge, x.allowed = true) ∧
    (busyBridge = busyBridge.take 4 ++ .ramWrite 0x1FFF 0x3C :: busyBridge.drop 5 ∧
      ∀ w, .ramWrite 0x1FFF w ∉ busyBridge.drop 5) ∧
    (¬ ∃ (i : BitVec 13) (v : Byte), .ramWrite i v ∈ busyBridge ∧ i.toNat = 0x1FFE) ∧
    (2 : Word32).toNat = (2 : Fin 3).val ∧ (1 : Word32).toNat = (1 : Fin 3).val ∧ (0 : Word32).toNat = (0 : Fin 3).val ∧
    (∀ fn v, .call fn 1 v ∉ busyBridge) ∧
    (busyBridge = busyBridge.take 5 ++ .call 0 2 6 :: busyBridge.drop 6 ∧ ∀ w, .call 0 2 w ∉ busyBridge.drop 6) ∧
    (∃ v, .call 1 2 v ∈ busyBridge) ∧
    (busyBridge = busyBridge.take 6 ++ .call 3 2 0x120 :: busyBridge.drop 7 ∧ ∀ w, .call 3 2 w ∉ busyBridge.drop 7) ∧
    (∀ v, .call 0 0 v ∉ busyBridge) ∧ (∀ v, .call 1 0 v ∉ busyBridge) ∧ (∀ v, .call 3 0 v ∉ busyBridge) := by
  unfold DeltaInRange
  refine ⟨by decide, by decide, rfl, by decide, ⟨rfl, ?_⟩, ?_, rfl, rfl, rfl, ?_, ⟨rfl, ?_⟩, ⟨0, by decide⟩, ⟨rfl, ?_⟩, ?_⟩
  · intro w
    simp [busyBridge]
  · rintro ⟨i, v, hm, hi⟩
    simp only [busyBridge, List.mem_cons, BridgeAction.ramWrite.injEq, List.not_mem_nil, reduceCtorEq, false_or, or_false] at hm
    rcases hm with ⟨rfl, -⟩ | ⟨rfl, -⟩ | ⟨rfl, -⟩ <;> revert hi <;> decide
  all_goals simp [busyBridge]

/-- 2^31 cycles, a cycle before the stamp, and a callback on channel 3, first and after two others. -/
theorem witness_CallfnFaults :
    let s := bridgeAt 0 [.call 3 3 5]
    let u := bridgeAt 0 [.ramWrite 0 1, .call 0 2 5, .call 3 3 5]
    ((0xFF : Byte) = 0xFE ∨ (0xFF : Byte) = 0xFF) ∧ ¬ DeltaInRange (bridgeAt 2147483648 []).input.hostCycles base.armCycles ∧
    ¬ DeltaInRange base.input.hostCycles { base with armCycles := 1 }.armCycles ∧
    (3 : Byte).toNat < 4 ∧ 3 ≤ (3 : Word32).toNat ∧ DeltaInRange s.input.hostCycles s.armCycles ∧
    s.input.bridge.actions = [] ++ .call 3 3 5 :: [] ∧ DeltaInRange u.input.hostCycles u.armCycles ∧
    (∀ x ∈ [BridgeAction.ramWrite 0 1, .call 0 2 5], x.allowed = true) ∧
    u.input.bridge.actions = [.ramWrite 0 1, .call 0 2 5] ++ .call 3 3 5 :: [] := by
  unfold DeltaInRange
  decide

theorem witness_BankWriteSwitchesUnlessLocked :
    bankWrite (.writeBank0 0) = some 0 ∧ bankWrite (.writeBank6 0) = some 6 ∧ base.locked = false ∧
    { base with locked := true }.locked = true := by decide

theorem witness_HostWritesKeepTheDetectors :
    isHostWrite (.writeDswrite 0x5A) = true ∧ ∃ t, exec (.writeDswrite 0x5A) base = .next t := ⟨rfl, _, rfl⟩

/-- The three alternatives, at channel 2. -/
theorem witness_CallbacksSetTheirChannel :
    let s := { base with inRun := true }
    s.inRun = true ∧ (2 : Word32).toNat = (2 : Fin 3).val ∧
    (Instr.cbSetFreq 2 9 = .cbSetFreq 2 9 ∧ (⟨0, 9, 27⟩ : Channel) = { s.channel 2 with freq := 9 }) ∧
    (Instr.cbResetCounter 2 9 = .cbResetCounter 2 9 ∧ (⟨0, 0, 27⟩ : Channel) = { s.channel 2 with counter := 0 }) ∧
    (Instr.cbSetWshift 2 9 = .cbSetWshift 2 9 ∧ (⟨0, 0, 9⟩ : Channel) =
      { s.channel 2 with wshift := (9 : Word32).extractLsb' 0 8 }) := by decide

theorem witness_GetCounterReturnsTheCounter :
    { base with inRun := true }.inRun = true ∧ (0 : Word32).toNat = (0 : Fin 3).val ∧ (2 : Word32).toNat = (2 : Fin 3).val := by
  decide

theorem witness_CallbacksStopOutsideTheirRange :
    callbackChannel (.cbSetFreq 0 0) = some 0 ∧ base.inRun = false ∧ callbackChannel (.cbGetCounter 3 0) = some 3 ∧
    { base with inRun := true }.inRun = true ∧ 3 ≤ (3 : Word32).toNat := by decide

theorem witness_PortBankSwitchesUnlessLocked :
    6 = (6 : Fin 7).val ∧ base.locked = false ∧ 6 ≤ 6 ∧ { base with locked := true }.locked = true ∧ 6 < 7 := by decide

/-- Offsets 0x040 and 0x03F. -/
theorem witness_PatchWritesOneImageByte :
    0x040 = ((0x1040 : Addr).extractLsb' 0 12).toNat ∧ 0x7040 = 4096 + base.bank.val * 4096 + 0x040 ∧ base.locked = false ∧
    0x03F = ((0x103F : Addr).extractLsb' 0 12).toNat ∧ (base.locked = true ∨ 0x03F < 0x040) := by decide

theorem scale_finite : round64 (Config.default.carryScale : Nat) < 2 ^ 1024 :=
  (by decide +kernel : round64 (Config.default.carryScale : Nat) < 2 ^ 27).trans
    (pow_lt_pow_right₀ (by decide +kernel) (by decide))

/-- The largest stamps, and a carry that field 8 holds (V95). -/
theorem witness_SaveReturnsTheSnapshot :
    let s := { base with audioCycles := 2 ^ 64 - 1, armCycles := 2 ^ 64 - 1, carry := decimal17 1354909451535491 }
    s.audioCycles < 2 ^ 64 ∧ s.armCycles < 2 ^ 64 ∧ s.cfg.codecs = s.cfg.codecs ∧
    RoundsTo s.cfg.carryScale (round64 s.cfg.carryScale) ∧ round64 s.cfg.carryScale < 2 ^ 1024 ∧
    RoundsTo (s.carry * round64 s.cfg.carryScale) (round64 (s.carry * round64 s.cfg.carryScale)) ∧
    0 ≤ round64 (s.carry * round64 s.cfg.carryScale) ∧ 1354909 < 2 ^ 32 ∧
    (round64 (s.carry * round64 s.cfg.carryScale)).floor = (1354909 : Nat) := by
  refine ⟨by decide, by decide, rfl, roundsTo_round64 _, ?_, roundsTo_round64 _, ?_⟩
  · exact scale_finite
  · decide +kernel

theorem witness_SaveFaultsOnALargeStamp :
    (2 ^ 64 ≤ { base with audioCycles := 2 ^ 64 }.audioCycles ∨ 2 ^ 64 ≤ base.armCycles) ∧
    (2 ^ 64 ≤ base.audioCycles ∨ 2 ^ 64 ≤ { base with armCycles := 2 ^ 64 }.armCycles) := by decide

/-- Locked; another name before a rest that decodes, and before one that does not. -/
theorem witness_LoadLeavesALockedDeviceOrAnotherNameAlone (rest : List Byte) :
    { base with locked := true }.locked = true ∧
    ∃ name rest', base.cfg.codecs.str.read
        (encodeSnapshot base.cfg.codecs { sampleSnapshot zeroRam with name := "OTHER" } ++ rest) = some (name, rest') ∧
      name ≠ base.cfg.deviceName := by
  obtain ⟨rest', h⟩ := read_name_encodeSnapshot base.cfg.codecs { sampleSnapshot zeroRam with name := "OTHER" } rest
  exact ⟨rfl, _, rest', h, by decide⟩

/-- Bank 6, count 2 and the largest captured offsets; an address of 0 beside it, and a count of 0. -/
theorem witness_LoadRestoresTheSnapshot :
    let f := { sampleSnapshot zeroRam with jmp := 0x1000, sty := 0x1000, jmpCount := 2, od := 0xA4 }
    base.locked = false ∧ f.ram.length = 8192 ∧
    (f.name = base.cfg.deviceName ∧ f.bank.toNat = 6 ∧ f.jmpCount.toNat = 2 ∧ f.sty.toNat = 0x1000 ∧ f.jmp.toNat = 0x1000) ∧
    (sampleSnapshot zeroRam).jmp = 0 ∧ (sampleSnapshot zeroRam).jmpCount = 0 ∧
    RoundsTo base.cfg.carryScale (round64 base.cfg.carryScale) ∧ round64 base.cfg.carryScale < 2 ^ 1024 :=
  ⟨rfl, zeroRam_length, by decide, rfl, rfl, roundsTo_round64 _, scale_finite⟩

/-- The bytes of `sampleSnapshot` with some fields replaced. -/
def badBytes (f : Snapshot → Snapshot) : List Byte :=
  encodeSnapshot base.cfg.codecs (f (sampleSnapshot zeroRam))

/-- A byte too many after a snapshot of the device's own name; bank 7; count 3. -/
theorem witness_LoadOfABadSnapshotReturnsFalse :
    base.locked = false ∧
    (decodeSnapshot base.cfg.codecs (badBytes id ++ [0]) = none ∧
      ∀ name rest, base.cfg.codecs.str.read (badBytes id ++ [0]) = some (name, rest) → name = base.cfg.deviceName) ∧
    (∃ f, decodeSnapshot base.cfg.codecs (badBytes ({ · with bank := 7 })) = some f ∧ f.name = base.cfg.deviceName ∧
      6 < f.bank.toNat) ∧
    (∃ f, decodeSnapshot base.cfg.codecs (badBytes ({ · with jmpCount := 3 })) = some f ∧ f.name = base.cfg.deviceName ∧
      2 < f.jmpCount.toNat) ∧
    (∃ f, decodeSnapshot base.cfg.codecs (badBytes ({ · with sty := 0x1001 })) = some f ∧ f.name = base.cfg.deviceName ∧
      0x1000 < f.sty.toNat) ∧
    (∃ f, decodeSnapshot base.cfg.codecs (badBytes ({ · with jmp := 0x1001 })) = some f ∧ f.name = base.cfg.deviceName ∧
      0x1000 < f.jmp.toNat) := by
  refine ⟨rfl, ⟨decodeSnapshot_leftover _ _ zeroRam_length 0 [], fun name rest h => ?_⟩,
    ⟨_, decodeSnapshot_encodeSnapshot _ _ zeroRam_length, by decide, by decide⟩,
    ⟨_, decodeSnapshot_encodeSnapshot _ _ zeroRam_length, by decide, by decide⟩,
    ⟨_, decodeSnapshot_encodeSnapshot _ _ zeroRam_length, by decide, by decide⟩,
    ⟨_, decodeSnapshot_encodeSnapshot _ _ zeroRam_length, by decide, by decide⟩⟩
  obtain ⟨rest', h'⟩ := read_name_encodeSnapshot base.cfg.codecs (sampleSnapshot zeroRam) [0]
  have he := h.symm.trans h'
  rw [Option.some.injEq, Prod.mk.injEq] at he
  exact he.1

/-- An unlocked state in the invariant with an armed intercept, a shadow address and a captured target. -/
def midGame : State :=
  { withCells [(0x7000, 0xA9)] [(0x712, 0x30), (0x923, 0xAB)] with
    jmpAddr := some 0x101, jmpCount := 2, styAddr := some 0x201, odTarget := some 0x1B, audioCycles := 500 }

theorem midGame_inv : midGame.Inv := by
  refine ⟨by decide, by decide, by decide, by decide, ?_, ?_,
    ⟨0, 0, by decide, by decide, by decide, by decide +kernel⟩, rfl⟩ <;>
    rintro x ⟨⟩ <;> decide

theorem witness_LoadOfSaveRestoresTheState :
    midGame.Inv ∧ midGame.locked = false ∧ midGame.audioCycles < 2 ^ 64 ∧ midGame.armCycles < 2 ^ 64 :=
  ⟨midGame_inv, by decide⟩

theorem witness_PortResetSetsTheResetValues : midGame.locked = false := rfl

theorem witness_PortResetIsRefusedWhileLocked : { midGame with locked := true }.locked = true := rfl

/-- A good layout, and one that fails in each clause: an alignment, an overlap, a table past 0x800, a scale of 0, an image
too short. -/
theorem witness_CreationRefusesABadLayout :
    let good := fun (c : Config) (n : Nat) =>
      c.ptrOff % 4 = 0 ∧ c.incOff % 4 = 0 ∧ c.mapOff % 4 = 0 ∧ c.waveOff % 4 = 0 ∧
      c.ptrOff + 72 ≤ c.incOff ∧ c.incOff + 72 ≤ c.mapOff ∧ c.mapOff + 148 ≤ c.waveOff ∧ c.waveOff + 12 ≤ 0x800 ∧
      0 < c.carryScale ∧ n = 32768
    good Config.default 32768 ∧ ¬ good { Config.default with ptrOff := 0x6CE } 32768 ∧
    ¬ good { Config.default with incOff := 0x714 } 32768 ∧ ¬ good { Config.default with waveOff := 0x7F8 } 32768 ∧
    ¬ good { Config.default with carryScale := 0 } 32768 ∧ ¬ good Config.default 4096 ∧
    ∀ n, (List.replicate n (0 : Byte)).length = n := by
  refine ⟨by decide, by decide, by decide, by decide, by decide, by decide, fun n => List.length_replicate⟩

/-- A scale of 0 is refused (notes/assumptions/19.md). -/
theorem test_create_carryScale :
    refusedWith (create { Config.default with carryScale := 0 } (List.replicate 32768 0) Input.idle) .badLayout = true := by
  decide +kernel

/-- A bus operation, and the load of a snapshot whose offsets lie at the end of their range. -/
theorem witness_StepKeepsTheInvariant :
    (let s := { midGame with inbox := [{ input := atCycle 501, request := .bus [0xF0, 0x1F, 0x01, 0x5A] }] }
     s.Inv ∧ ∃ t, step s = .next t) ∧
    (let f := { sampleSnapshot zeroRam with jmp := 0x1000, sty := 0x1000, jmpCount := 2 }
     let s := { midGame with inbox :=
       [{ input := atCycle 501, request := .port .load [.bytes (encodeSnapshot midGame.cfg.codecs f)] }] }
     s.Inv ∧ ∃ t, step s = .next t) :=
  ⟨⟨midGame_inv, _, rfl⟩, midGame_inv, _,
    (execPortLoad_encodeSnapshot (s := { midGame with inbox := [], input := atCycle 501 })
      rfl zeroRam_length rfl).trans (if_pos rfl)⟩

theorem witness_OnlyPatchWritesTheImage :
    (∃ t, exec (.writeDswrite 1) midGame = .next t) ∧ ∀ addr v, Instr.writeDswrite 1 ≠ .portPatch addr v :=
  ⟨⟨_, rfl⟩, fun _ _ h => nomatch h⟩

theorem witness_LockedDeviceKeepsItsBank :
    (∃ t, exec .portUnlock { midGame with locked := true } = .next t ∧ t.locked = false) ∧
    ∃ t, exec .portLock midGame = .next t ∧ midGame.locked = false ∧ t.locked = true :=
  ⟨⟨_, rfl, rfl⟩, _, rfl, rfl, rfl⟩

/-- Each register of DeviceRAM from its slot, least significant byte first (rules R35 to R38). -/
theorem test_tableWords :
    let s := withCells [] [(0x6D0, 1), (0x6D1, 2), (0x6D2, 3), (0x6D3, 4), (0x71C, 5), (0x71D, 6), (0x71E, 7),
      (0x7F0, 8), (0x7F3, 9), (0x7FC, 10), (0x7FD, 11)]
    s.ptr 0 = 0x04030201 ∧ s.inc 1 = 0x0605 ∧ s.map 36 = 0x09000008 ∧ s.wave 2 = 0x00000B0A := by decide

theorem witness_TableWordsReadTheirBytes :
    ∀ a, (fun a => (base.ramByte a).toNat + 2 ^ 8 * (base.ramByte (a + 1)).toNat + 2 ^ 16 * (base.ramByte (a + 2)).toNat +
      2 ^ 24 * (base.ramByte (a + 3)).toNat) a = (base.ramByte a).toNat + 2 ^ 8 * (base.ramByte (a + 1)).toNat +
      2 ^ 16 * (base.ramByte (a + 2)).toNat + 2 ^ 24 * (base.ramByte (a + 3)).toNat := fun _ => rfl

theorem witness_OnlySetmodeLoadAndResetWriteTheMode :
    ∃ t, exec (.writeSetmode 0xF0) midGame = .next t ∧ t.mode ≠ midGame.mode :=
  ⟨_, rfl, by decide⟩

theorem witness_OperationsWithoutAStoreKeepMemory :
    storesNothing (.writeBank0 0) = true ∧ ∃ t, exec (.writeBank0 0) midGame = .next t :=
  ⟨rfl, _, rfl⟩

end Sys2Proof.Tests
end

section
/-! PROOFS. The window writes without an engine behind them, and ROM reads after a bank switch (41_cartridge_window.md rules
R111, R112 and R120 to R124, 44_control.md rule R190, source property T1). -/

namespace Sys2Proof.CartridgeWindow
open Sys2Proof.Machine

/-! What the operations of each group come to. -/

/-- The four no-op writes share one meaning (rules R121 to R123). -/
theorem exec_nopWrite {i : Instr} (s : State) (h : nopWrite i = true) :
    exec i s = .next { s with odTarget := s.odAfterWindowWrite, result := .flag false } := by
  cases i
  case writeRom | writeRoAmplitude | writeRoDsread | writeNopFf4 => rfl
  all_goals exact nomatch h

/-- Every bank hotspot's write is the write of its bank, whatever the byte (rule R124). -/
theorem exec_bankWrite {i : Instr} {n : Fin 7} (s : State) (h : bankWrite i = some n) :
    exec i s = cartWriteBank n s := by
  cases i <;> simp only [bankWrite, Option.some.injEq, reduceCtorEq] at h <;> subst h <;> rfl

/-- A bank write of an unlocked device (rules R124, R190). -/
theorem exec_bankWrite_unlocked {i : Instr} {n : Fin 7} {s : State} (h : bankWrite i = some n) (hl : s.locked = false) :
    exec i s = .next { s with
      bank := n, bankChanged := true, odTarget := s.odAfterWindowWrite, result := .flag true } :=
  (exec_bankWrite s h).trans (cartWriteBank_unlocked n hl)

/-- A bank write of a locked device (rules R124, R190). -/
theorem exec_bankWrite_locked {i : Instr} {n : Fin 7} {s : State} (h : bankWrite i = some n) (hl : s.locked = true) :
    exec i s = .next { s with odTarget := s.odAfterWindowWrite, result := .flag false } :=
  (exec_bankWrite s h).trans (cartWriteBank_locked n hl)

/-- A locked ROM read returns its byte and writes no state (rule R112). -/
theorem exec_readRom_locked {s : State} (a : Offset) (hl : s.locked = true) :
    exec (.readRom a) s = .next { s with result := .byte (s.rom a) } :=
  windowRead_ended rfl (readFront_locked s a hl)

/-- A ROM read that stages 0 to 2 let pass returns its byte (rules R111, R115, R116, R118). -/
theorem exec_readRom_readsOn {s : State} {a : Offset} (h : s.ReadsOn a) :
    exec (.readRom a) s = .next { s.afterLatch a with
      styAddr := s.shadowAfter a (s.rom a), result := .byte (s.rom a) } :=
  cartRead_readsOn (fun t => t.rom a) (fun t => t) h rfl rfl rfl

/-- Stages 0 to 2 let a read pass where the device is not locked, no intercept is expected and none is armed. -/
theorem readsOn_of_not_arms {s : State} {a : Offset} (hl : s.locked = false)
    (hi : ¬ (s.jmpCount ≠ 0 ∧ s.jmpAddr = some (a.setWidth 13))) (ha : s.arms a = false) : s.ReadsOn a := by
  refine ⟨hl, hi, fun ⟨hbus, h0, h1, h2⟩ => ?_⟩
  have harms : s.arms a = true := by simp [State.arms, State.looksAhead, hbus, h0, h1, h2]
  exact Bool.false_ne_true (ha.symm.trans harms)

/-- An unlocked ROM read at which no intercept is expected returns the ROM byte and writes the quirk state only, whether it
arms an intercept (rule R114) or goes on to stage 5. -/
theorem exec_readRom_unlocked {s : State} {a : Offset} (hl : s.locked = false)
    (hi : ¬ (s.jmpCount ≠ 0 ∧ s.jmpAddr = some (a.setWidth 13))) :
    ∃ u : State, exec (.readRom a) s = .next u ∧
      u = { s with
        jmpAddr := u.jmpAddr
        jmpCount := u.jmpCount
        styAddr := u.styAddr
        odTarget := u.odTarget
        draws := u.draws
        result := .byte (s.rom a) } := by
  cases ha : s.arms a
  case true =>
    have hn : s.intercepts a = false := by
      rw [Bool.eq_false_iff, ne_eq, intercepts_iff]
      exact hi
    exact ⟨_, windowRead_ended rfl (readFront_arms s a hl hn ha), rfl⟩
  case false => exact ⟨_, exec_readRom_readsOn (readsOn_of_not_arms hl hi ha), rfl⟩

/-! The obligations. -/

/-- Settles O26: the four writes are one operation. -/
theorem nopWritesOnlyConsumeTheCapture : Obligations.NopWritesOnlyConsumeTheCapture :=
  fun _ s h => exec_nopWrite s h

/-- Settles O35: a bank write is `cartWriteBank`, whose two outcomes the lock decides. -/
theorem bankWriteSwitchesUnlessLocked : Obligations.BankWriteSwitchesUnlessLocked :=
  fun _ _ _ h => ⟨exec_bankWrite_unlocked h, exec_bankWrite_locked h⟩

/-- Settles O19: the write leaves the lock, the intercept and the image alone, so the read after it is a read of the bank
that the write left selected. -/
theorem switchedBankIsWhatReadsReturn : Obligations.SwitchedBankIsWhatReadsReturn := by
  intro i n a s h
  refine ⟨fun hl hi => ?_, fun hl => ?_⟩
  · obtain ⟨u, hu, hframe⟩ := exec_readRom_unlocked (a := a)
      (s := { s with bank := n, bankChanged := true, odTarget := s.odAfterWindowWrite, result := .flag true }) hl hi
    exact ⟨_, u, exec_bankWrite_unlocked h hl, hu, hframe⟩
  · exact ⟨_, _, exec_bankWrite_locked h hl, exec_readRom_locked a hl, rfl⟩

end Sys2Proof.CartridgeWindow
end

section
/-! PROOFS. The decoder and the encoder agree, and every access word decodes (30_encoding.md rules R70 to R79,
40_address_decoder.md rule R100). -/

namespace Sys2Proof.Encoding
open Sys2Proof.Machine

/-! What the decoder reads at an address of each route (rules R78, R100). -/

section Routes
variable {c : Config} {addr : Addr}

theorem decodeRead_periphA (h12 : addr.getLsbD 12 = false) (h7 : addr.getLsbD 7 = true) :
    decodeRead c addr = .readPeriphA addr := by
  rw [decodeRead, decodeTarget_periphA h12 h7]

theorem decodeWrite_periphA (d : Byte) (h12 : addr.getLsbD 12 = false) (h7 : addr.getLsbD 7 = true) :
    decodeWrite c addr d = .writePeriphA addr d := by
  rw [decodeWrite, decodeTarget_periphA h12 h7]

theorem decodeRead_periphB (h12 : addr.getLsbD 12 = false) (h7 : addr.getLsbD 7 = false)
    (h9 : addr.getLsbD 9 = c.periphBBit9) : decodeRead c addr = .readPeriphB addr := by
  rw [decodeRead, decodeTarget_periphB h12 h7 h9]

theorem decodeWrite_periphB (d : Byte) (h12 : addr.getLsbD 12 = false) (h7 : addr.getLsbD 7 = false)
    (h9 : addr.getLsbD 9 = c.periphBBit9) : decodeWrite c addr d = .writePeriphB addr d := by
  rw [decodeWrite, decodeTarget_periphB h12 h7 h9]

theorem decodeRead_lowNone (h12 : addr.getLsbD 12 = false) (h7 : addr.getLsbD 7 = false)
    (h9 : addr.getLsbD 9 ≠ c.periphBBit9) : decodeRead c addr = .readLowNone addr := by
  rw [decodeRead, decodeTarget_none h12 h7 h9]

theorem decodeWrite_lowNone (d : Byte) (h12 : addr.getLsbD 12 = false) (h7 : addr.getLsbD 7 = false)
    (h9 : addr.getLsbD 9 ≠ c.periphBBit9) : decodeWrite c addr d = .writeLowNone addr d := by
  rw [decodeWrite, decodeTarget_none h12 h7 h9]

theorem decodeRead_cart (h12 : addr.getLsbD 12 = true) : decodeRead c addr = decodeCartRead (addr.setWidth 12) := by
  rw [decodeRead, decodeTarget_cart h12]

theorem decodeWrite_cart (d : Byte) (h12 : addr.getLsbD 12 = true) :
    decodeWrite c addr d = decodeCartWrite (addr.setWidth 12) d := by
  rw [decodeWrite, decodeTarget_cart h12]

/-- An address has one of four routes (rule R100). -/
theorem route_cases (c : Config) (addr : Addr) :
    addr.getLsbD 12 = true ∨ (addr.getLsbD 12 = false ∧ addr.getLsbD 7 = true) ∨
    (addr.getLsbD 12 = false ∧ addr.getLsbD 7 = false ∧ addr.getLsbD 9 = c.periphBBit9) ∨
    (addr.getLsbD 12 = false ∧ addr.getLsbD 7 = false ∧ addr.getLsbD 9 ≠ c.periphBBit9) := by
  cases addr.getLsbD 12 <;> cases addr.getLsbD 7 <;> simp [em]

end Routes

/-- Every read decodes to a well-formed operation (rule R79). -/
theorem decodeRead_wf (c : Config) (addr : Addr) : (decodeRead c addr).wf c = true := by
  rcases route_cases c addr with h12 | ⟨h12, h7⟩ | ⟨h12, h7, h9⟩ | ⟨h12, h7, h9⟩
  · rw [decodeRead_cart h12]
    exact decodeCartRead_wf c _
  · simp only [decodeRead_periphA h12 h7, Instr.wf, h12, h7, Bool.not_false, Bool.and_self]
  · simp only [decodeRead_periphB h12 h7 h9, Instr.wf, h12, h7, h9, Bool.not_false, Bool.and_self, BEq.rfl]
  · simp only [decodeRead_lowNone h12 h7 h9, Instr.wf, h12, h7, Bool.not_false, Bool.and_self, Bool.true_and]
    exact bne_iff_ne.2 h9

/-- Every write decodes to a well-formed operation (rule R79). -/
theorem decodeWrite_wf (c : Config) (addr : Addr) (d : Byte) : (decodeWrite c addr d).wf c = true := by
  rcases route_cases c addr with h12 | ⟨h12, h7⟩ | ⟨h12, h7, h9⟩ | ⟨h12, h7, h9⟩
  · rw [decodeWrite_cart d h12]
    exact decodeCartWrite_wf c _ d
  · simp only [decodeWrite_periphA d h12 h7, Instr.wf, h12, h7, Bool.not_false, Bool.and_self]
  · simp only [decodeWrite_periphB d h12 h7 h9, Instr.wf, h12, h7, h9, Bool.not_false, Bool.and_self, BEq.rfl]
  · simp only [decodeWrite_lowNone d h12 h7 h9, Instr.wf, h12, h7, Bool.not_false, Bool.and_self, Bool.true_and]
    exact bne_iff_ne.2 h9

/-! The window: an operation's offset is where its encoding reads or writes, and the row of that offset is the
operation (rule R78, rows 4 to 18). -/

theorem encode_windowRead {i : Instr} {a : Offset} (h : windowRead i = some a) : encode i = busRead (windowAddr a) := by
  cases i <;> simp only [windowRead, Option.some.injEq, reduceCtorEq] at h <;> subst h <;> rfl

theorem decodeCartRead_windowRead {c : Config} {i : Instr} {a : Offset} (h : windowRead i = some a)
    (hw : i.wf c = true) : decodeCartRead a = i := by
  cases i <;> simp only [windowRead, Option.some.injEq, reduceCtorEq] at h <;> subst h
  case readRom a => exact decodeCartRead_rom hw
  all_goals rfl

theorem decode_encode_windowRead {c : Config} {i : Instr} {a : Offset} (h : windowRead i = some a)
    (hw : i.wf c = true) : decode c (encode i) = .ok i := by
  rw [encode_windowRead h, decode_busRead, decodeRead, decodeTarget_windowAddr]
  exact congrArg _ (decodeCartRead_windowRead h hw)

/-- The byte that a window write puts on the data lane. -/
def windowByte : Instr → Byte
  | .writeRoAmplitude d | .writeRoDsread d | .writeDswrite d | .writeDsptr d | .writeSetmode d | .writeCallfn d => d
  | .writeNopFf4 d | .writeBank0 d | .writeBank1 d | .writeBank2 d | .writeBank3 d | .writeBank4 d => d
  | .writeBank5 d | .writeBank6 d | .writeRom _ d => d
  | _ => 0

theorem encode_windowWrite {i : Instr} {a : Offset} (h : windowWrite i = some a) :
    encode i = busWrite (windowAddr a) (windowByte i) := by
  cases i <;> simp only [windowWrite, Option.some.injEq, reduceCtorEq] at h <;> subst h <;> rfl

theorem decodeCartWrite_windowWrite {c : Config} {i : Instr} {a : Offset} (h : windowWrite i = some a)
    (hw : i.wf c = true) : decodeCartWrite a (windowByte i) = i := by
  cases i <;> simp only [windowWrite, Option.some.injEq, reduceCtorEq] at h <;> subst h
  case writeRom a d => exact decodeCartWrite_rom d hw
  all_goals rfl

theorem decode_encode_windowWrite {c : Config} {i : Instr} {a : Offset} (h : windowWrite i = some a)
    (hw : i.wf c = true) : decode c (encode i) = .ok i := by
  rw [encode_windowWrite h, decode_busWrite, decodeWrite, decodeTarget_windowAddr]
  exact congrArg _ (decodeCartWrite_windowWrite h hw)

/-! The obligations. -/

/-- Settles O2: an access of the peripheral space by its route, one of the window by the row of its offset, and a
callback or a port operation by its format. -/
theorem decodeOfEncodeIsTheOperation : Obligations.DecodeOfEncodeIsTheOperation := by
  intro c i hw
  cases i
  case readPeriphA | writePeriphA =>
    simp only [Instr.wf, Bool.and_eq_true, Bool.not_eq_true'] at hw
    obtain ⟨h12, h7⟩ := hw
    simp only [encode, decode_busRead, decode_busWrite, decodeRead_periphA h12 h7, decodeWrite_periphA _ h12 h7]
  case readPeriphB | writePeriphB =>
    simp only [Instr.wf, Bool.and_eq_true, Bool.not_eq_true', beq_iff_eq] at hw
    obtain ⟨⟨h12, h7⟩, h9⟩ := hw
    simp only [encode, decode_busRead, decode_busWrite, decodeRead_periphB h12 h7 h9, decodeWrite_periphB _ h12 h7 h9]
  case readLowNone | writeLowNone =>
    simp only [Instr.wf, Bool.and_eq_true, Bool.not_eq_true', bne_iff_ne] at hw
    obtain ⟨⟨h12, h7⟩, h9⟩ := hw
    simp only [encode, decode_busRead, decode_busWrite, decodeRead_lowNone h12 h7 h9, decodeWrite_lowNone _ h12 h7 h9]
  case cbSetFreq | cbResetCounter | cbGetCounter | cbSetWshift => exact decode_cbRequest c _ _ _
  case portBank | portPatch | portLock | portUnlock | portQueryBankChanged | portSave | portLoad | portReset
      | portTimingChanged => rfl
  case readAmplitude | readDsread | readWoDswrite | readWoDsptr | readWoSetmode | readWoCallfn | readNopFf4 | readBank0
      | readBank1 | readBank2 | readBank3 | readBank4 | readBank5 | readBank6 | readRom =>
    exact decode_encode_windowRead rfl hw
  all_goals exact decode_encode_windowWrite rfl hw

/-- Settles O3: bit 16 of the word chooses between a read and a write of its address, and each is well-formed. -/
theorem everyAccessWordDecodes : Obligations.EveryAccessWordDecodes := by
  intro c w d
  have hbit : (w.extractLsb' 16 1).setWidth 8 = (0 : Byte) ∨ (w.extractLsb' 16 1).setWidth 8 = (1 : Byte) := by
    generalize w.extractLsb' 16 1 = b
    revert b
    decide
  rcases hbit with h | h <;> rw [h]
  · exact ⟨_, rfl, decodeRead_wf c _⟩
  · exact ⟨_, rfl, decodeWrite_wf c _ d⟩

/-- Settles O4: the route of an address decides the row of a read and of a write alike. -/
theorem addressDecoderRoutes : Obligations.AddressDecoderRoutes := by
  intro c addr d
  refine ⟨fun h12 h7 => ⟨decodeRead_periphA h12 h7, decodeWrite_periphA d h12 h7⟩,
    fun h12 h7 h9 => ⟨decodeRead_periphB h12 h7 h9, decodeWrite_periphB d h12 h7 h9⟩,
    fun h12 h7 h9 => ⟨decodeRead_lowNone h12 h7 h9, decodeWrite_lowNone d h12 h7 h9⟩, fun h12 => ?_⟩
  have hoff : addr.extractLsb' 0 12 = addr.setWidth 12 := (BitVec.setWidth_eq_extractLsb' (by decide)).symm
  rw [hoff]
  refine ⟨?_, decodeRead_wf c addr, ?_, decodeWrite_wf c addr d⟩
  · rw [decodeRead_cart h12, windowRead_decodeCartRead]
  · rw [decodeWrite_cart d h12, windowWrite_decodeCartWrite]

/-- Settles O1: each word is decoded by its format. -/
theorem sampleWordsDecode : Obligations.SampleWordsDecode :=
  ⟨rfl, rfl, rfl, rfl, rfl, rfl, rfl, rfl, rfl⟩

end Sys2Proof.Encoding
end

section
/-! PROOFS. What an operation that completes can do to the state, said once for every operation: the inversion of `exec`. -/

namespace Sys2Proof.Effects
open Sys2Proof.Machine

/-! The effects. -/

/-- `Effect s i t`: operation `i` may take state `s` to state `t`. One constructor for each way in which an operation
completes; what no later lemma needs, such as the conditions of a stage, the outputs and the results, is left open. -/
inductive Effect (s : State) : Instr → State → Prop
  /-- A read of the peripheral space writes no state of the device (rules R101 to R103). -/
  | periphRead {i : Instr} (addr : Addr) (hi : i = .readPeriphA addr ∨ i = .readPeriphB addr ∨ i = .readLowNone addr)
      (o : List Output) (n : Nat) (r : OpResult) : Effect s i { s with out := o, draws := n, result := r }
  /-- A write of the peripheral space runs the overdrive (rule R104). -/
  | periphWrite {i : Instr} {addr : Addr} {d : Byte} {p : Option Periph} (hi : periphWriteOf i = some (addr, d, p))
      (o : List Output) (r : OpResult) :
      Effect s i { s with ram := (s.overdriveState addr).ram, odTarget := none, out := o, result := r }
  /-- A window read of a locked device (rule R112). -/
  | lockedRead {i : Instr} {a : Offset} (hi : windowRead i = some a) : Effect s i (s.ret (.byte (s.rom a)))
  /-- An intercept is served (rule R113). -/
  | served {i : Instr} {a : Offset} (hi : windowRead i = some a) : Effect s i (s.serveJump a)
  /-- An intercept is armed (rule R114). -/
  | armed {i : Instr} {a : Offset} (hi : windowRead i = some a) :
      Effect s i (((s.afterLook a).armJump a).ret (.byte (s.rom a)))
  /-- Stage 5 has no effect (rules R111, R119). -/
  | plainRead {i : Instr} {a : Offset} (hi : windowRead i = some a) (v : Byte) :
      Effect s i (((s.afterLatch a).capture a v).ret (.byte v))
  /-- Stage 5 switches the bank (rule R117). -/
  | bankRead {i : Instr} {a : Offset} (hi : windowRead i = some a) (n : Fin 7) (v : Byte) :
      Effect s i ((((s.afterLatch a).bankSwitch n).capture a v).ret (.byte v))
  /-- Stage 5 advances the stream of COMMSTREAM (rule R142). -/
  | dsread (v : Byte) :
      Effect s .readDsread ((((s.afterLatch 0xFEF).streamAdvance commStream).capture 0xFEF v).ret (.byte v))
  /-- The audio update (rule R160). -/
  | amplitude (delta : Nat) : Effect s .readAmplitude ((s.afterLatch 0xFEE).audioUpdate delta).retAmplitude
  /-- A window write without an effect but on the capture (rules R121 to R123, R182). -/
  | nopWrite {i : Instr} {a : Offset} (hi : windowWrite i = some a) : Effect s i (s.consumeCapture.ret (.flag false))
  /-- WRITE_SETMODE (rule R180). -/
  | setmode (d : Byte) : Effect s (.writeSetmode d) ({ s.consumeCapture with mode := d }.ret (.flag false))
  /-- A write of a bank hotspot (rule R124). -/
  | bankWrite {i : Instr} {a : Offset} (hi : windowWrite i = some a) (n : Fin 7) (b : Bool) :
      Effect s i ((s.consumeCapture.bankSwitch n).ret (.flag b))
  /-- WRITE_DSWRITE (rule R143). -/
  | dswrite (d : Byte) : Effect s (.writeDswrite d) ((s.consumeCapture.dsWrite d).ret (.flag false))
  /-- WRITE_DSPTR (rule R144). -/
  | dsptr (d : Byte) : Effect s (.writeDsptr d) ((s.consumeCapture.dsPtr d).ret (.flag false))
  /-- A coprocessor run (rule R185). -/
  | run (d : Byte) (m : Memory) (x y z : Channel) (o : List Output) (r : OpResult)
      (hm : s.ramWf = true → { s with ram := m }.ramWf = true) : Effect s (.writeCallfn d) { s.consumeCapture with
        ram := m, ch0 := x, ch1 := y, ch2 := z, armCycles := s.input.hostCycles, inRun := false, out := o, result := r }
  /-- A callback in a run (rules R170 to R173). -/
  | callback {i : Instr} {ch : Word32} (hi : callbackChannel i = some ch) (hr : s.inRun = true) (x y z : Channel)
      (o : List Output) (r : OpResult) : Effect s i { s with ch0 := x, ch1 := y, ch2 := z, out := o, result := r }
  /-- PORT_BANK (rule R190). -/
  | portBank (n : Nat) (b : Fin 7) (r : OpResult) : Effect s (.portBank n) ((s.bankSwitch b).ret r)
  /-- PORT_PATCH without an effect (rule R192). -/
  | unpatched (addr : Addr) (v : Byte) (r : OpResult) : Effect s (.portPatch addr v) (s.ret r)
  /-- PORT_PATCH (rule R192). -/
  | patched (addr : Addr) (v : Byte) (r : OpResult) : Effect s (.portPatch addr v)
      ({ s.imgWrite (s.romIndex (addr.setWidth 12).toNat) v with bankChanged := true }.ret r)
  /-- PORT_LOCK (rule R196). -/
  | lock (r : OpResult) : Effect s .portLock ({ s with locked := true }.ret r)
  /-- PORT_UNLOCK (rule R196). -/
  | unlock (r : OpResult) : Effect s .portUnlock ({ s with locked := false }.ret r)
  /-- PORT_QUERY_BANK_CHANGED (rule R197). -/
  | query (r : OpResult) : Effect s .portQueryBankChanged ({ s with bankChanged := false }.ret r)
  /-- PORT_SAVE (rule R193). -/
  | save (n : Nat) (r : OpResult) : Effect s .portSave ((s.drew n).ret r)
  /-- PORT_LOAD without an effect (rule R194). -/
  | notLoaded (bs : List Byte) (r : OpResult) : Effect s (.portLoad bs) (s.ret r)
  /-- A failed PORT_LOAD (rule R194). -/
  | badLoad (bs : List Byte) (r : OpResult) (hl : s.locked = false) : Effect s (.portLoad bs) (s.unspecified.ret r)
  /-- PORT_LOAD (rule R194). -/
  | loaded (bs : List Byte) (f : Snapshot) (n : Fin 7) (r : OpResult) (hl : s.locked = false)
      (hf : f.ram.length = 8192) (hr : f.inRange = true) : Effect s (.portLoad bs) ((s.restore f n).ret r)
  /-- PORT_RESET (rule R230). -/
  | reset (r : OpResult) (hl : s.locked = false) : Effect s .portReset (s.resetDevice.ret r)
  /-- PORT_TIMING_CHANGED (rule R198). -/
  | timing (r : OpResult) : Effect s .portTimingChanged (s.ret r)

variable {s t : State} {i : Instr} {a : Offset}

/-! Every operation that completes has one of these effects. -/

/-- A read of the peripheral space (rules R101 to R103). -/
theorem periphRead_effect (addr : Addr)
    (hi : i = .readPeriphA addr ∨ i = .readPeriphB addr ∨ i = .readLowNone addr) (h : exec i s = .next t) :
    Effect s i t := by
  have hr := fun o n r => Effect.periphRead (s := s) addr hi o n r
  rcases hi with rfl | rfl | rfl <;> cases h <;> exact hr _ _ _

/-- What a write of the peripheral space leaves, and what it puts out (rule R104). -/
theorem exec_periphWrite {addr : Addr} {d : Byte} {p : Option Periph} (hi : periphWriteOf i = some (addr, d, p)) :
    exec i s = .next { s with
      ram := (s.overdriveState addr).ram
      odTarget := none
      out := forwarded addr (s.overdriveByte addr d) p ++ s.out
      result := .flag false } := by
  have hw : ∀ q : Periph, writePeriph q addr d s = .next { s with
      ram := (s.overdriveState addr).ram
      odTarget := none
      out := forwarded addr (s.overdriveByte addr d) (some q) ++ s.out
      result := .flag false } := by
    intro q
    rw [writePeriph, State.overdriveState_eq]
    rfl
  cases i <;> simp only [periphWriteOf, Option.some.injEq, Prod.mk.injEq, reduceCtorEq] at hi <;>
    obtain ⟨rfl, rfl, rfl⟩ := hi
  case writePeriphA => exact hw .a
  case writePeriphB => exact hw .b
  case writeLowNone addr d =>
    show execWriteLowNone addr d s = _
    rw [execWriteLowNone, State.overdriveState_eq]
    rfl

/-- A window read that stage 5 ends by `u` (rule R110). -/
theorem cartRead_effect (hi : windowRead i = some a) (v : State → Byte) (u : State → State)
    (h5 : ∀ b, Effect s i (((u (s.afterLatch a)).capture a b).ret (.byte b))) (h : cartRead a v u s = .next t) :
    Effect s i t := by
  rcases cartRead_cases s a v u with ⟨_, e⟩ | ⟨_, _, e⟩ | ⟨_, _, _, e⟩ | ⟨_, _, _, e⟩ <;> rw [e] at h <;> cases h
  · exact .lockedRead hi
  · exact .served hi
  · exact .armed hi
  · rw [afterLatch_eq]
    exact h5 _

/-- An amplitude read (rule R160). -/
theorem execReadAmplitude_effect (h : execReadAmplitude s = .next t) : Effect s .readAmplitude t := by
  unfold execReadAmplitude at h
  rcases readFront_cases s 0xFEE with ⟨_, e⟩ | ⟨_, _, e⟩ | ⟨_, _, _, e⟩ | ⟨_, _, _, e⟩ <;> simp only [e] at h
  · cases h
    exact .lockedRead rfl
  · cases h
    exact .served rfl
  · cases h
    exact .armed rfl
  · rw [afterLatch_eq] at h
    split at h <;> cases h
    exact .amplitude _

/-- A window read (rule R110). -/
theorem windowRead_effect (hi : windowRead i = some a) (h : exec i s = .next t) : Effect s i t := by
  have hi' := hi
  cases i <;> simp only [windowRead, Option.some.injEq, reduceCtorEq] at hi' <;> subst hi'
  case readAmplitude => exact execReadAmplitude_effect h
  case readDsread => exact cartRead_effect hi _ _ .dsread h
  case readBank0 | readBank1 | readBank2 | readBank3 | readBank4 | readBank5 | readBank6 =>
    exact cartRead_effect hi _ _ (.bankRead hi _) h
  all_goals exact cartRead_effect hi _ _ (.plainRead hi) h

/-- A coprocessor run (rules R185 to R187). -/
theorem runCoprocessor_effect (d : Byte) (h : runCoprocessor s.consumeCapture = .next t) :
    Effect s (.writeCallfn d) t := by
  unfold runCoprocessor at h
  split at h
  · cases h
  · split at h
    · next x hx =>
      cases h
      obtain ⟨hreach, hwf⟩ := bridgeRun_reach _ hx
      rw [leaveRun_eq, hreach]
      refine .run d x.ram x.ch0 x.ch1 x.ch2 _ _ fun hw => ?_
      have hx := hwf hw
      rw [hreach] at hx
      exact hx
    · cases h
    · cases h

/-- A window write (rules R120 to R124, R143, R144, R180 to R187). -/
theorem windowWrite_effect (hi : windowWrite i = some a) (h : exec i s = .next t) : Effect s i t := by
  cases i <;> simp only [windowWrite, reduceCtorEq] at hi
  case writeDswrite d => cases h; exact .dswrite d
  case writeDsptr d => cases h; exact .dsptr d
  case writeSetmode d => cases h; exact .setmode d
  case writeCallfn d =>
    by_cases hd : d = 0xFE ∨ d = 0xFF
    · exact runCoprocessor_effect d ((execWriteCallfn_run hd).symm.trans h)
    · obtain ⟨h1, h2⟩ := not_or.1 hd
      cases (execWriteCallfn_other h1 h2).symm.trans h
      exact .nopWrite rfl
  case writeRom | writeRoAmplitude | writeRoDsread | writeNopFf4 => cases h; exact .nopWrite rfl
  all_goals cases h; exact .bankWrite rfl _ _

/-- A callback is the call of the bridge that its `fn` numbers (rule R72). -/
theorem exec_callback {ch : Word32} (hi : callbackChannel i = some ch) :
    ∃ (fn : Byte) (v : Word32), fn.toNat < 4 ∧ ∀ s, exec i s = bridgeCall fn ch v s := by
  cases i <;> simp only [callbackChannel, Option.some.injEq, reduceCtorEq] at hi <;> subst hi
  case cbSetFreq ch v => exact ⟨0, v, by decide, fun _ => rfl⟩
  case cbResetCounter ch v => exact ⟨1, v, by decide, fun _ => rfl⟩
  case cbGetCounter ch v => exact ⟨2, v, by decide, fun _ => rfl⟩
  case cbSetWshift ch v => exact ⟨3, v, by decide, fun _ => rfl⟩

/-- Outside a run every callback of the bridge is refused (rule R216). -/
theorem bridgeCall_outsideRun {fn : Byte} (hf : fn.toNat < 4) (ch v : Word32) (hr : s.inRun = false) :
    bridgeCall fn ch v s = .refused .callbackOutsideRun := by
  have hfn : fn = 0 ∨ fn = 1 ∨ fn = 2 ∨ fn = 3 := by bv_omega
  unfold bridgeCall execCbSetFreq execCbResetCounter execCbGetCounter execCbSetWshift callback
  rcases hfn with rfl | rfl | rfl | rfl <;> simp [hr]

/-- A callback (rules R170 to R174). -/
theorem callback_effect {ch : Word32} (hi : callbackChannel i = some ch) (h : exec i s = .next t) : Effect s i t := by
  obtain ⟨fn, v, hf, he⟩ := exec_callback hi
  rw [he] at h
  cases hr : s.inRun
  · rw [bridgeCall_outsideRun hf ch v hr] at h
    cases h
  · obtain ⟨hreach, hram⟩ := bridgeCall_reach h
    rw [hreach, hram]
    exact .callback hi hr _ _ _ _ _

/-- A load (rule R194). -/
theorem execPortLoad_effect {bs : List Byte} (h : execPortLoad bs s = .next t) : Effect s (.portLoad bs) t := by
  rcases execPortLoad_cases s bs with e | ⟨hl, e⟩ | ⟨hl, f, _, hram, _, hr, e⟩ <;> rw [e] at h <;> cases h
  · exact .notLoaded bs _
  · exact .badLoad bs _ hl
  · exact .loaded bs f _ _ hl hram hr

/-- The inversion of `exec`: every operation that completes has one of the effects. -/
theorem exec_effect (h : exec i s = .next t) : Effect s i t := by
  cases i
  case readPeriphA addr => exact periphRead_effect addr (.inl rfl) h
  case readPeriphB addr => exact periphRead_effect addr (.inr (.inl rfl)) h
  case readLowNone addr => exact periphRead_effect addr (.inr (.inr rfl)) h
  case writePeriphA | writePeriphB | writeLowNone =>
    cases (exec_periphWrite rfl).symm.trans h
    exact .periphWrite rfl _ _
  case cbSetFreq | cbResetCounter | cbGetCounter | cbSetWshift => exact callback_effect rfl h
  case portBank n =>
    replace h : execPortBank n s = .next t := h
    unfold execPortBank at h
    split at h <;> cases h
    exact .portBank n _ _
  case portPatch addr v =>
    replace h : execPortPatch addr v s = .next t := h
    unfold execPortPatch at h
    split at h <;> cases h
    · exact .unpatched addr v _
    · exact .patched addr v _
  case portLock => cases h; exact .lock _
  case portUnlock => cases h; exact .unlock _
  case portQueryBankChanged => cases h; exact .query _
  case portSave =>
    replace h : execPortSave s = .next t := h
    unfold execPortSave at h
    split at h <;> cases h
    exact .save _ _
  case portLoad bs => exact execPortLoad_effect h
  case portReset =>
    replace h : execPortReset s = .next t := h
    unfold execPortReset at h
    split at h
    · cases h
    · next hl =>
      cases h
      exact .reset _ (Bool.eq_false_of_not_eq_true hl)
  case portTimingChanged => cases h; exact .timing _
  case readAmplitude | readDsread | readWoDswrite | readWoDsptr | readWoSetmode | readWoCallfn | readNopFf4 | readBank0
      | readBank1 | readBank2 | readBank3 | readBank4 | readBank5 | readBank6 | readRom => exact windowRead_effect rfl h
  all_goals exact windowWrite_effect rfl h

end Sys2Proof.Effects
end

section
/-! PROOFS. What every operation keeps: the invariant of a step, and the frames of the image, the configuration, the lock,
the bank, the mode, the detectors and the memories. -/

namespace Sys2Proof.Kept
open Sys2Proof.Machine Sys2Proof.Effects

variable {s t : State} {i : Instr} {a : Offset}

/-! The invariant under each operation on the state. What does not touch a field of the invariant keeps it by definition. -/

/-- A write inside DeviceRAM that keeps its canonical form keeps the invariant. -/
theorem inv_withRam {m : Memory} (h : s.Inv) (hm : { s with ram := m }.ramWf = true) : { s with ram := m }.Inv := by
  obtain ⟨hcfg, himg, -, hrest⟩ := h
  exact ⟨hcfg, himg, hm, hrest⟩

/-- An intercept whose address and count are in step keeps the invariant (rule R28). -/
theorem inv_withIntercept {x : Option (BitVec 13)} {n : Fin 3} (h : s.Inv) (hx : x = none ↔ n = 0) (hok : offsetOk x) :
    { s with jmpAddr := x, jmpCount := n }.Inv := by
  obtain ⟨hcfg, himg, hram, -, -, hrest⟩ := h
  exact ⟨hcfg, himg, hram, hx, hok, hrest⟩

/-- A shadow address in range keeps the invariant (rule R29). -/
theorem inv_withShadow {x : Option (BitVec 13)} (h : s.Inv) (hok : offsetOk x) : { s with styAddr := x }.Inv := by
  obtain ⟨hcfg, himg, hram, hjmp, hjok, -, hrest⟩ := h
  exact ⟨hcfg, himg, hram, hjmp, hjok, hok, hrest⟩

/-- A finite carry keeps the invariant (rule R32). -/
theorem inv_withCarry {x : Rat} (h : s.Inv) (hx : IsBinary64 x) : { s with carry := x }.Inv := by
  obtain ⟨hcfg, himg, hram, hjmp, hjok, hsok, -, hrun⟩ := h
  exact ⟨hcfg, himg, hram, hjmp, hjok, hsok, hx, hrun⟩

theorem inv_setPtr (h : s.Inv) {k : Nat} (hk : k < 18) (v : Word32) : (s.setPtr k v).Inv := by
  obtain ⟨hcfg, -, hram, -⟩ := id h
  exact inv_withRam h (State.ramWf_setPtr hcfg hk v hram)

theorem inv_dsWrite (h : s.Inv) (d : Byte) : (s.dsWrite d).Inv := by
  obtain ⟨hcfg, -, hram, -⟩ := id h
  rw [State.dsWrite_eq]
  exact inv_withRam h (State.ramWf_dsWrite hcfg d hram)

theorem inv_overdriveRam (h : s.Inv) (addr : Addr) : { s with ram := (s.overdriveState addr).ram }.Inv := by
  obtain ⟨hcfg, -, hram, -⟩ := id h
  have hw := State.ramWf_overdriveState hcfg addr hram
  rw [State.overdriveState_eq] at hw
  exact inv_withRam h hw

/-- A served intercept has an address exactly where one byte is left (rule R113). -/
theorem inv_serveJump (h : s.Inv) (a : Offset) : (s.serveJump a).Inv := by
  have hcount : (s.countServed a).Inv := by
    refine inv_withIntercept h ?_ ?_ <;> split
    · simp
    · simp
    · exact offsetOk_nextOffset a
    · exact offsetOk_none
  exact inv_setPtr hcount (k := jumpStream) (by decide) _

theorem inv_armJump (h : s.Inv) (a : Offset) : ((s.afterLook a).armJump a).Inv :=
  inv_withIntercept h (by simp) (offsetOk_nextOffset a)

theorem inv_afterLatch (h : s.Inv) (a : Offset) : (s.afterLatch a).Inv :=
  inv_withShadow (inv_withIntercept h (x := none) (n := 0) (by simp) offsetOk_none) offsetOk_none

theorem inv_capture (h : s.Inv) (a : Offset) (v : Byte) : (s.capture a v).Inv := by
  obtain ⟨-, -, -, -, -, hok, -⟩ := id h
  refine inv_withShadow h ?_
  split
  · exact offsetOk_nextOffset a
  · exact hok

theorem inv_audioUpdate (h : s.Inv) (delta : Nat) : (s.audioUpdate delta).Inv := by
  have hcarry := inv_withCarry h (isBinary64_fraction (div64 (mul64 20000 (toF64 delta)) hostClock64 + s.carry))
  exact hcarry

theorem inv_imgWrite (h : s.Inv) {j : Nat} (hj : j < imageSize) (v : Byte) : (s.imgWrite j v).Inv := by
  obtain ⟨hcfg, himg, hrest⟩ := h
  exact ⟨hcfg, State.imgWf_imgWrite s j v hj himg, hrest⟩

/-- The draw of a failed load stays in the ranges (notes/assumptions/12.md). -/
theorem unspecified_ranges (s : State) : (s.unspecified.jmpAddr = none ↔ s.unspecified.jmpCount = 0) ∧
    offsetOk s.unspecified.jmpAddr ∧ offsetOk s.unspecified.styAddr := by
  simp only [State.unspecified]
  refine ⟨?_, ?_, ?_⟩ <;> split
  · simp [*]
  · simp [*]
  · exact offsetOk_none
  · exact offsetOk_freeOffset _
  · exact offsetOk_freeOffset _
  · exact offsetOk_none

theorem inv_unspecified (h : s.Inv) : s.unspecified.Inv := by
  obtain ⟨hcfg, himg, -, -, -, -, -, hrun⟩ := h
  obtain ⟨hagree, hjok, hsok⟩ := unspecified_ranges s
  exact ⟨hcfg, himg, rfl, hagree, hjok, hsok, isBinary64_freeBinary64 _, hrun⟩

/-- The intercept that a snapshot restores has an address exactly where its count is not 0 (rules R28, R194). -/
theorem restore_intercept_agrees (f : Snapshot) (n : Fin 7) (hc : f.jmpCount.toNat ≤ 2) :
    (s.restore f n).jmpAddr = none ↔ (s.restore f n).jmpCount = 0 := by
  obtain ⟨ha, hn⟩ := restore_intercept s f n hc
  have h0 : f.jmpCount.toNat = 0 ↔ f.jmpCount = 0 := by rw [← BitVec.toNat_inj]; rfl
  rw [ha, ← Fin.val_eq_zero_iff, hn]
  by_cases hcount : f.jmpCount = 0
  · simp [hcount]
  · rw [if_neg hcount, savedOffset_eq_none]
    by_cases hjmp : f.jmp = 0
    · simp [hjmp]
    · rw [if_neg hjmp, h0]
      exact iff_of_false hjmp hcount

/-- The clauses of the table constraint (rules R10, R231; notes/assumptions/19.md). -/
theorem wf_iff (c : Config) : c.wf = true ↔
    (c.ptrOff % 4 = 0 ∧ c.incOff % 4 = 0 ∧ c.mapOff % 4 = 0 ∧ c.waveOff % 4 = 0) ∧
    (c.ptrOff + 72 ≤ c.incOff ∧ c.incOff + 72 ≤ c.mapOff ∧ c.mapOff + 148 ≤ c.waveOff ∧
      c.waveOff + 12 ≤ displayBase) ∧ 0 < c.carryScale := by
  simp only [Config.wf, Bool.and_eq_true, decide_eq_true_eq, and_assoc]

/-- A snapshot in range restores a state in the invariant (rule R194). -/
theorem inv_restore (h : s.Inv) {f : Snapshot} (n : Fin 7) (hf : f.ram.length = 8192) (hr : f.inRange = true) :
    (s.restore f n).Inv := by
  obtain ⟨hcfg, himg, -, -, -, -, -, hrun⟩ := h
  obtain ⟨-, hcount, hsty, hjmp⟩ := (inRange_iff f).1 hr
  have hscale : 0 < s.cfg.carryScale := by
    obtain ⟨-, -, hpos⟩ := (wf_iff s.cfg).1 hcfg
    exact hpos
  refine ⟨hcfg, himg, Memory.wf_ofBytes ramSize driverCopySize f.ram hf.le, restore_intercept_agrees f n hcount, ?_,
    offsetOk_savedOffset hsty, isBinary64_loadedCarry hscale f.carry, hrun⟩
  show offsetOk (if f.jmpCount = 0 then none else savedOffset f.jmp)
  split
  · exact offsetOk_none
  · exact offsetOk_savedOffset hjmp

/-- 0 is a finite binary64 value. -/
theorem isBinary64_zero : IsBinary64 0 := ⟨0, 0, by decide, by decide, by decide, by simp⟩

/-- A reset meets the invariant where the configuration and the image do (rule R230). -/
theorem inv_resetDevice (hcfg : s.cfg.wf = true) (himg : s.imgWf = true) (hrun : s.inRun = false) : s.resetDevice.Inv :=
  ⟨hcfg, himg, Memory.wf_below imageSize imageSize ramSize driverCopySize s.img (by decide) (by decide) himg,
    by simp [State.resetDevice], offsetOk_none, offsetOk_none, isBinary64_zero, hrun⟩

/-! The invariant under a whole step. -/

/-- Every operation that completes keeps the invariant. -/
theorem inv_effect (h : s.Inv) (he : Effect s i t) : t.Inv := by
  cases he with
  | periphRead | lockedRead | nopWrite | setmode | bankWrite | portBank | unpatched | lock | unlock | query | save
  | notLoaded | timing => exact h
  | periphWrite => exact inv_overdriveRam h _
  | served => exact inv_serveJump h _
  | armed => exact inv_armJump h _
  | plainRead hi v => exact inv_capture (inv_afterLatch h _) _ v
  | @bankRead _ a hi n v =>
    have hb : ((s.afterLatch a).bankSwitch n).Inv := inv_afterLatch h a
    exact inv_capture hb a v
  | dsread v => exact inv_capture (inv_setPtr (inv_afterLatch h 0xFEF) (k := commStream) (by decide) _) _ v
  | amplitude delta => exact inv_audioUpdate (inv_afterLatch h 0xFEE) delta
  | dswrite d =>
    have hc : s.consumeCapture.Inv := h
    exact inv_dsWrite hc d
  | dsptr d =>
    have hc : s.consumeCapture.Inv := h
    exact inv_setPtr hc (k := commStream) (by decide) _
  | run d m x y z o r hm =>
    obtain ⟨hcfg, himg, hram, hjmp, hjok, hsok, hcarry, -⟩ := h
    exact ⟨hcfg, himg, hm hram, hjmp, hjok, hsok, hcarry, rfl⟩
  | callback => exact h
  | patched addr v =>
    exact inv_imgWrite h (State.romIndex_lt s _ (addr.setWidth 12).isLt) v
  | badLoad => exact inv_unspecified h
  | loaded bs f n r hl hf hr => exact inv_restore h n hf hr
  | reset =>
    obtain ⟨hcfg, himg, -, -, -, -, -, hrun⟩ := h
    exact inv_resetDevice hcfg himg hrun

/-- A step runs an accepted operation, or leaves the state as it is (rules R15, R60, R214). -/
theorem step_next_cases (h : step s = .next t) :
    t = s ∨ ∃ (i : Instr) (x : Arrival) (rest : List Arrival), exec i (s.accept x rest) = .next t := by
  unfold step at h
  split at h
  · cases h
    exact .inl rfl
  · split at h
    · exact .inr ⟨_, _, _, h⟩
    · cases h

/-! The frames. -/

/-- No operation writes the configuration (rule R41). -/
theorem cfg_effect (he : Effect s i t) : t.cfg = s.cfg := by
  cases he <;> rfl

/-- Only PORT_PATCH writes the image (rule R22). -/
theorem img_effect (he : Effect s i t) (hi : ∀ addr v, i ≠ .portPatch addr v) : t.img = s.img := by
  cases he with
  | patched addr v => exact absurd rfl (hi addr v)
  | _ => rfl

/-- A locked device keeps its bank (rules R24, R190, R194). -/
theorem bank_effect (he : Effect s i t) (hl : s.locked = true) : t.bank = s.bank := by
  cases he with
  | bankRead | bankWrite | portBank => exact if_pos hl
  | badLoad _ _ hu | loaded _ _ _ _ hu | reset _ hu => exact absurd (hu.symm.trans hl) Bool.false_ne_true
  | _ => rfl

/-- Only PORT_LOCK and PORT_UNLOCK write the lock (rule R26). -/
theorem locked_effect (he : Effect s i t) :
    t.locked = s.locked ∨ (i = .portLock ∧ t.locked = true) ∨ (i = .portUnlock ∧ t.locked = false) := by
  cases he with
  | lock => exact .inr (.inl ⟨rfl, rfl⟩)
  | unlock => exact .inr (.inr ⟨rfl, rfl⟩)
  | _ => exact .inl rfl

/-- Only WRITE_SETMODE, PORT_LOAD and PORT_RESET write the mode byte (rules R25, R230). -/
theorem mode_effect (he : Effect s i t) :
    t.mode = s.mode ∨ (∃ d, i = .writeSetmode d) ∨ (∃ x, i = .portLoad x) ∨ i = .portReset := by
  cases he with
  | setmode d => exact .inr (.inl ⟨d, rfl⟩)
  | badLoad bs | loaded bs => exact .inr (.inr (.inl ⟨bs, rfl⟩))
  | reset => exact .inr (.inr (.inr rfl))
  | _ => exact .inl rfl

/-- A window read is no host write, and may store. -/
theorem windowRead_excludes (hi : windowRead i = some a) : isHostWrite i = false ∧ storesNothing i = false := by
  cases i <;> simp only [windowRead, reduceCtorEq] at hi <;> exact ⟨rfl, rfl⟩

/-- A write of the peripheral space may store. -/
theorem periphWrite_mayStore {x : Addr × Byte × Option Periph} (hi : periphWriteOf i = some x) :
    storesNothing i = false := by
  cases i <;> simp only [periphWriteOf, reduceCtorEq] at hi <;> rfl

/-- A host write leaves the detectors alone (rule R125). -/
theorem detectors_effect (he : Effect s i t) (hw : isHostWrite i = true) :
    t.jmpAddr = s.jmpAddr ∧ t.jmpCount = s.jmpCount ∧ t.styAddr = s.styAddr := by
  cases he with
  | lockedRead hi | served hi | armed hi | plainRead hi | bankRead hi => simp [(windowRead_excludes hi).1] at hw
  | dsread | amplitude | badLoad | loaded | reset => cases hw
  | _ => exact ⟨rfl, rfl, rfl⟩

/-- An operation that stores nothing leaves both memories alone. -/
theorem memories_effect (he : Effect s i t) (hi : storesNothing i = true) : s.RamSame t ∧ s.ImgSame t := by
  cases he with
  | lockedRead hr | served hr | armed hr | plainRead hr | bankRead hr => simp [(windowRead_excludes hr).2] at hi
  | periphWrite hw => simp [periphWrite_mayStore hw] at hi
  | dsread | amplitude | dswrite | dsptr | run | unpatched | patched | badLoad | loaded | reset => cases hi
  | _ => exact ⟨fun _ => rfl, fun _ => rfl⟩

/-! The obligations. -/

/-- Settles O56: accepting an operation writes the queue and the inputs alone, and every effect keeps the invariant. -/
theorem stepKeepsTheInvariant : Obligations.StepKeepsTheInvariant := by
  intro s t h hs
  rcases step_next_cases hs with rfl | ⟨i, x, rest, he⟩
  · exact h
  · have ha : (s.accept x rest).Inv := h
    exact inv_effect ha (exec_effect he)

/-- Settles O57: the effects of PORT_PATCH alone write the image. -/
theorem onlyPatchWritesTheImage : Obligations.OnlyPatchWritesTheImage := by
  intro i s t h
  refine ⟨cfg_effect (exec_effect h), fun hi j => ?_⟩
  rw [State.imgByte, img_effect (exec_effect h) hi, State.imgByte]

/-- Settles O58: every bank switch looks at the lock, and a load or a reset that writes the bank needs an unlocked device. -/
theorem lockedDeviceKeepsItsBank : Obligations.LockedDeviceKeepsItsBank := by
  intro i s t h
  have he := exec_effect h
  refine ⟨fun hl => ⟨bank_effect he hl, fun hu => ?_⟩, fun hl hu => ?_⟩
  · rcases locked_effect he with hk | ⟨-, hk⟩ | ⟨hi, -⟩
    · cases (hu.symm.trans hk).trans hl
    · cases hu.symm.trans hk
    · exact hi
  · rcases locked_effect he with hk | ⟨hi, -⟩ | ⟨-, hk⟩
    · cases (hu.symm.trans hk).trans hl
    · exact hi
    · cases hu.symm.trans hk

/-- Settles O59: three operations have effects that write the mode byte. -/
theorem onlySetmodeLoadAndResetWriteTheMode : Obligations.OnlySetmodeLoadAndResetWriteTheMode :=
  fun _ _ _ h hm => (mode_effect (exec_effect h)).resolve_left hm

/-- Settles O60: the effects of these operations touch none of the fields that a byte of memory is read from. -/
theorem operationsWithoutAStoreKeepMemory : Obligations.OperationsWithoutAStoreKeepMemory :=
  fun _ _ _ hi h => memories_effect (exec_effect h) hi

/-- Settles O36: the effects that write a detector are those of reads, loads and resets. -/
theorem hostWritesKeepTheDetectors : Obligations.HostWritesKeepTheDetectors :=
  fun _ _ _ hw h => detectors_effect (exec_effect h) hw

end Sys2Proof.Kept
end

section
/-! PROOFS. The reads of the cartridge window, locked, intercepted, arming and plain (41_cartridge_window.md rules R110 to
R119, R127), and the amplitude read (43_audio.md rules R160 to R167). -/

namespace Sys2Proof.WindowReads
open Sys2Proof.Machine Sys2Proof.CartridgeWindow

variable {s : State} {i : Instr} {a : Offset}

/-! What stages 0 to 2 of the pipeline need. -/

/-- No intercept is expected where its count is 0 or its address another (rule R113). -/
theorem intercepts_eq_false (h : ¬ (s.jmpCount ≠ 0 ∧ s.jmpAddr = some (a.setWidth 13))) : s.intercepts a = false := by
  rw [Bool.eq_false_iff, ne_eq, intercepts_iff]
  exact h

/-- Lookahead inside the image reads the image (rule R114). -/
theorem look_inside {k : Nat} (j : Nat) (h : s.romIndex k < imageSize) : s.look k j = s.imgByte (s.romIndex k) :=
  if_pos h

/-- Lookahead inside the image draws nothing (rule R114). -/
theorem afterLook_inside (h : s.romIndex (a.toNat + 2) < imageSize) : s.afterLook a = s := by
  rw [State.afterLook, decide_eq_false (not_le.2 h), Bool.and_false]
  rfl

/-- Lookahead past the image uses two draws (rule R127; notes/assumptions/14.md). -/
theorem afterLook_outside (ha : s.looksAhead a = true) (h : imageSize ≤ s.romIndex (a.toNat + 2)) :
    s.afterLook a = s.drew 2 := by
  rw [State.afterLook, ha, decide_eq_true h]
  rfl

/-- Bus-stuff on and the byte 0x4C make stage 2 look ahead (rule R114). -/
theorem looksAhead_of (hb : s.busStuffOn = true) (hr : s.rom a = 0x4C) : s.looksAhead a = true := by
  rw [State.looksAhead, hb, hr]
  rfl

/-- A byte other than 0x84 leaves no shadow address (rule R118). -/
theorem shadowAfter_of_ne {v : Byte} (h : v ≠ 0x84) : s.shadowAfter a v = none :=
  if_neg fun hv => h hv.2

/-- The byte under a pointer, with its address written out (rules R35, R53). -/
theorem streamByte_eq (s : State) (k : Nat) : s.streamByte k = s.ramByte (0x800 + (s.ptr k >>> 20).toNat) := by
  rw [State.streamByte, displayAt_eq]

/-! What the reads of each group come to. -/

theorem exec_plainRead (h : plainRead i = some a) : exec i s = cartReadRom a s := by
  cases i <;> simp only [plainRead, Option.some.injEq, reduceCtorEq] at h <;> subst h <;> rfl

theorem exec_bankRead {n : Fin 7} (h : bankRead i = some (a, n)) : exec i s = cartReadBank a n s := by
  cases i <;> simp only [bankRead, Option.some.injEq, Prod.mk.injEq, reduceCtorEq] at h <;>
    obtain ⟨rfl, rfl⟩ := h <;> rfl

/-- Outside the pointer's slot a pointer update leaves DeviceRAM alone. -/
theorem ramSameBut_setPtr (s : State) (k : Nat) (v : Word32) : s.RamSameBut (s.setPtr k v) (inSlot (s.ptrAt k)) := by
  intro j hj
  refine State.ramByte_setPtr_other s v ?_
  unfold inSlot at hj
  omega

/-! The obligations about the pipeline. -/

/-- Settles O13: stage 0 ends the read. -/
theorem lockedReadReturnsTheRomByte : Obligations.LockedReadReturnsTheRomByte :=
  fun _ a s hi hl => windowRead_ended hi (readFront_locked s a hl)

/-- Settles O14: stage 1 ends the read. -/
theorem interceptServesTheJumpStream : Obligations.InterceptServesTheJumpStream := by
  intro i a s hi hl hc ha
  refine ⟨s.serveJump a, windowRead_ended hi (readFront_intercept s a hl ((intercepts_iff s a).2 ⟨hc, ha⟩)), ?_,
    State.ptr_jumpStreamAdvance (s.countServed a), ramSameBut_setPtr (s.countServed a) jumpStream _⟩
  rw [← streamByte_eq]
  rfl

/-- Settles O15: stage 2 ends the read, its lookahead inside the image. -/
theorem jmpZeroArmsTheIntercept : Obligations.JmpZeroArmsTheIntercept := by
  intro i a s hi hl hn hb h2 hrom h0 h1
  have hrom' : s.rom a = 0x4C := hrom
  have hidx : s.romIndex (a.toNat + 2) < imageSize := h2
  have harms : s.arms a = true := by
    have hlook1 : s.look (a.toNat + 1) 0 = 0 :=
      (look_inside 0 (show 4096 + s.bank.val * 4096 + (a.toNat + 1) < 32768 by omega)).trans h0
    have hlook2 : s.look (a.toNat + 2) 1 = 0 := (look_inside 1 hidx).trans h1
    simp [State.arms, looksAhead_of hb hrom', hlook1, hlook2]
  rw [windowRead_ended hi (readFront_arms s a hl (intercepts_eq_false hn) harms), afterLook_inside hidx, hrom']
  rfl

/-- Settles O16: stage 2 arms the intercept, or the read goes on as a plain one. -/
theorem lookaheadPastTheImageMayArm : Obligations.LookaheadPastTheImageMayArm := by
  intro a s ha hbank hl hb hn hrom
  cases harms : s.arms a
  case true =>
    have hidx : imageSize ≤ s.romIndex (a.toNat + 2) := by
      show 32768 ≤ 4096 + s.bank.val * 4096 + (a.toNat + 2)
      rw [hbank]
      show 32768 ≤ 4096 + 6 * 4096 + (a.toNat + 2)
      omega
    have hend := readFront_arms s a hl (intercepts_eq_false hn) harms
    rw [afterLook_outside (looksAhead_of hb hrom) hidx, hrom] at hend
    exact ⟨_, windowRead_ended rfl hend, rfl, .inl rfl⟩
  case false =>
    have hnext := exec_readRom_readsOn (readsOn_of_not_arms hl hn harms)
    rw [hrom, shadowAfter_of_ne (by decide)] at hnext
    exact ⟨_, hnext, rfl, .inr rfl⟩

/-- Settles O17: stage 5 has no effect. -/
theorem plainReadReturnsTheRomByte : Obligations.PlainReadReturnsTheRomByte :=
  fun _ a _ hi h => (exec_plainRead hi).trans (cartRead_readsOn (fun t => t.rom a) (fun t => t) h rfl rfl rfl)

/-- Settles O18: stage 5 switches the bank of an unlocked device. -/
theorem bankReadReturnsTheOldByteAndSwitches : Obligations.BankReadReturnsTheOldByteAndSwitches := by
  intro i a n s hi h
  obtain ⟨hl, -, -⟩ := id h
  have hl' : (s.afterLatch a).locked = false := hl
  rw [exec_bankRead hi, cartReadBank, cartRead_readsOn _ _ h rfl rfl rfl, bankSwitch_unlocked n hl']
  rfl

/-- Settles O20: stage 5 returns the byte under pointer 16 and advances the pointer. -/
theorem dsreadPopsTheCommStream : Obligations.DsreadPopsTheCommStream := by
  rintro s v h rfl
  refine ⟨_, cartRead_readsOn (fun t => t.streamByte commStream) (fun t => t.streamAdvance commStream) h rfl rfl rfl, ?_,
    State.ptr_streamAdvance (s.afterLatch 0xFEF) commStream, ramSameBut_setPtr (s.afterLatch 0xFEF) commStream _⟩
  rw [← streamByte_eq]
  rfl

/-! The amplitude read. -/

/-- The state that an amplitude read in range leaves (rule R160). -/
def afterAmplitude (s : State) : State :=
  ((s.afterLatch 0xFEE).audioUpdate (s.input.hostCycles - s.audioCycles)).retAmplitude

theorem exec_readAmplitude (h : s.ReadsOn 0xFEE) (hd : DeltaInRange s.input.hostCycles s.audioCycles) :
    exec .readAmplitude s = .next (afterAmplitude s) :=
  execReadAmplitude_inRange h hd

/-- The amplitude is returned where the spec defines it (rule R160). -/
theorem afterAmplitude_result {v : Byte}
    (h : ((s.afterLatch 0xFEE).audioUpdate (s.input.hostCycles - s.audioCycles)).amplitude = some v) :
    (afterAmplitude s).result = .byte v := by
  rw [afterAmplitude, retAmplitude_eq, h]
  rfl

/-- Returning the amplitude leaves the channels alone. -/
theorem channel_retAmplitude (t : State) (c : Fin 3) : t.retAmplitude.channel c = t.channel c := rfl

theorem hostClock64_eq : hostClock64 = 0x1234E7AAAAAAB9 / 2 ^ 32 := by
  rw [hostClock64, Rat.mkRat_eq_div]
  norm_num

/-- A cycle delta in range is not rounded. -/
theorem toF64_delta {h stamp : Nat} (hd : DeltaInRange h stamp) : toF64 (h - stamp) = (h - stamp : Nat) :=
  round64_nat (hd.2.trans (by decide))

/-- The low nibble of a byte. -/
theorem setWidth_lowNibble (b : Byte) : (b.extractLsb' 0 4).setWidth 8 = b &&& 0x0F := by
  revert b; decide

/-- The high nibble of a byte. -/
theorem setWidth_highNibble (b : Byte) : (b.extractLsb' 4 4).setWidth 8 = b >>> 4 := by
  revert b; decide

/-- Settles O21: each of the four binary64 operations is `round64` of the exact one. -/
theorem amplitudeReadUpdatesTheAudioState : Obligations.AmplitudeReadUpdatesTheAudioState := by
  intro s h hd
  refine ⟨afterAmplitude s, _, mul64 20000 (toF64 (s.input.hostCycles - s.audioCycles)), _,
    audioClocks (s.input.hostCycles - s.audioCycles) s.carry, _, _, ?_, ?_, roundsTo_round64 _, rfl, roundsTo_round64 _,
    roundsTo_round64 _, exec_readAmplitude h hd, rfl, fun c => ?_⟩
  · rw [toF64_delta hd]
    exact roundsTo_round64 _
  · rw [← hostClock64_eq]
    exact roundsTo_round64 _
  · exact channel_audioUpdate (s.afterLatch 0xFEE) _ c

/-- Settles O22: the sample byte is read through the wave table of the state before. -/
theorem digitalAmplitudeIsTheSampleNibble : Obligations.DigitalAmplitudeIsTheSampleNibble := by
  intro s h hd hdig
  refine ⟨_, exec_readAmplitude h hd, ?_⟩
  rintro x b rfl rfl
  refine afterAmplitude_result ?_
  have hdig' : ((s.afterLatch 0xFEE).audioUpdate (s.input.hostCycles - s.audioCycles)).digitalOn = true := hdig
  rw [amplitude_digital hdig', State.sampleAmp, setWidth_lowNibble, setWidth_highNibble]
  rfl

/-- Settles O23: the three waveform bytes are defined, and their sum is the amplitude. -/
theorem voiceAmplitudeIsTheSumOfTheWaveforms : Obligations.VoiceAmplitudeIsTheSumOfTheWaveforms := by
  intro s h hd hdig
  refine ⟨_, exec_readAmplitude h hd, fun at_ hat hin => afterAmplitude_result ?_⟩
  obtain ⟨u, hu⟩ : ∃ u, u = (s.afterLatch 0xFEE).audioUpdate (s.input.hostCycles - s.audioCycles) := ⟨_, rfl⟩
  have hbyte : ∀ c : Fin 3, u.voiceByte c = some (s.ramByte (at_ c)) := by
    intro c
    obtain ⟨hw, hi⟩ := hin c
    rw [hat c] at hi ⊢
    rw [hu]
    exact voiceByte_eq hw hi
  have hdig' : u.digitalOn = false := by rw [hu]; exact hdig
  rw [← hu, amplitude_voices hdig', State.voiceAmp, hbyte 0, hbyte 1, hbyte 2]

/-- Settles O24: stage 5 tests the delta. -/
theorem amplitudeReadFaultsOutsideTheDeltaRange : Obligations.AmplitudeReadFaultsOutsideTheDeltaRange :=
  fun _ h hd => execReadAmplitude_outOfRange h hd

/-- Settles O25: the carry is the fraction of a rounded nonnegative number, and neither its floor nor the fraction is
rounded. -/
theorem carryStaysBelowOne : Obligations.CarryStaysBelowOne := by
  intro s t h hd hc ht
  cases (exec_readAmplitude h hd).symm.trans ht
  have hclock : 0 ≤ hostClock64 := by rw [hostClock64_eq]; positivity
  have hdelta : 0 ≤ toF64 (s.input.hostCycles - s.audioCycles) := round64_nonneg (Nat.cast_nonneg _)
  have hscaled : 0 ≤ mul64 20000 (toF64 (s.input.hostCycles - s.audioCycles)) :=
    round64_nonneg (mul_nonneg (by norm_num) hdelta)
  have hquot := round64_nonneg (div_nonneg hscaled hclock)
  obtain ⟨-, hfloor, hfract, h0, h1⟩ := round64_floor_fract (add_nonneg hquot hc)
  have hcarry : (afterAmplitude s).carry = sub64 (audioClocks (s.input.hostCycles - s.audioCycles) s.carry)
      (round64 ((audioClocks (s.input.hostCycles - s.audioCycles) s.carry).floor : Rat)) := rfl
  rw [hcarry, audioClocks, add64, div64, sub64, hfloor, hfract]
  exact ⟨h0, h1⟩

end Sys2Proof.WindowReads
end

section
/-! PROOFS. The overdrive of the peripheral space (40_address_decoder.md rule R104, 42_datastream.md rules R150 to R153), the
COMMSTREAM writes (rules R143, R144), the words of the tables in DeviceRAM (10_state.md rules R35 to R38), and the mode
hotspot (44_control.md rule R180). -/

namespace Sys2Proof.StreamWrites
open Sys2Proof.Machine Sys2Proof.Effects Sys2Proof.WindowReads

variable {s : State}

/-! Words and nibbles. -/

/-- A concatenation in numbers. -/
theorem toNat_append_eq {m n : Nat} (x : BitVec m) (y : BitVec n) : (x ++ y).toNat = 2 ^ n * x.toNat + y.toNat := by
  rw [BitVec.toNat_append, ← Nat.shiftLeft_add_eq_or_of_lt y.isLt, Nat.shiftLeft_eq, Nat.mul_comm]

/-- The low seven bits of a target (rule R150). -/
theorem targetSlot_eq (t : Byte) : targetSlot t = (t &&& 0x7F).toNat := by
  have h : ∀ t : Byte, (t.extractLsb' 0 7).toNat = (t &&& 0x7F).toNat := by decide
  exact h t

/-- The low nibble of a word. -/
theorem extractLsb'_lowNibble (w : Word32) : (w.extractLsb' 0 4).toNat = (w &&& 0xF).toNat := by
  rw [BitVec.toNat_and, BitVec.extractLsb'_toNat, Nat.shiftRight_zero]
  exact (Nat.and_two_pow_sub_one_eq_mod w.toNat 4).symm

/-- The address-map rotation is the rotation right by a nibble (rule R151). -/
theorem rotateMap_eq (w : Word32) : rotateMap w = w.rotateRight 4 := rfl

/-- After `k` rotations bit `j` is bit `j + 4k`, around the word (rule R151). -/
theorem getLsbD_iterate_rotateMap (w : Word32) (k j : Nat) (hj : j < 32) :
    ((rotateMap^[k]) w).getLsbD j = w.getLsbD ((j + 4 * k) % 32) := by
  induction k generalizing j with
  | zero => rw [Function.iterate_zero_apply, Nat.mul_zero, Nat.add_zero, Nat.mod_eq_of_lt hj]
  | succ k ih =>
    rw [Function.iterate_succ_apply', rotateMap_eq, BitVec.getLsbD_rotateRight, Bool.cond_decide]
    split
    · rw [ih _ (by omega)]
      congr 1
      omega
    · rw [ih _ (by omega), decide_eq_true hj, Bool.true_and]
      congr 1
      omega

/-- What a DSPTR write makes of a pointer, by its fields (rule R144). -/
theorem dsPtrMerge_eq (p : Word32) (d : Byte) : dsPtrMerge p d = p.extractLsb' 20 4 ++ d ++ 0#20 := by
  show ((p <<< 8) &&& (BitVec.allOnes 4 ++ 0#28)) ||| (d.setWidth 32 <<< 20) = _
  apply BitVec.eq_of_getLsbD_eq
  intro j hj
  simp only [BitVec.getLsbD_or, BitVec.getLsbD_and, BitVec.getLsbD_append, BitVec.getLsbD_shiftLeft, BitVec.getLsbD_setWidth,
    BitVec.getLsbD_allOnes, BitVec.getLsbD_extractLsb', BitVec.getLsbD_zero]
  rcases lt_or_ge j 20 with h | h
  · simp [h, show j < 28 by omega]
  rcases lt_or_ge j 28 with h' | h'
  · simp [h', not_lt.2 h, hj, show j - 20 < 8 by omega, show j - 20 < 32 by omega]
  · have hd : d.getLsbD (j - 20) = false := BitVec.getLsbD_of_ge d _ (by omega)
    simp [hd, not_lt.2 h, not_lt.2 h', hj, show ¬ j - 20 < 8 by omega, show ¬ j < 8 by omega,
      show j - 28 < 4 by omega, show j - 20 - 8 < 4 by omega, show 20 + (j - 20 - 8) = j - 8 by omega]

/-- The low nibble of the first byte and then the second byte, whatever the pointer's nibble `q` was (rule R83). -/
theorem setcomm_word (q : BitVec 4) (x : BitVec 12) :
    (q ++ (x.extractLsb' 8 4).setWidth 8 ++ 0#20 : BitVec 32).extractLsb' 20 4 ++ x.extractLsb' 0 8 ++ 0#20 = x ++ 0#20 := by
  have hnib : (q ++ (x.extractLsb' 8 4).setWidth 8 ++ 0#20 : BitVec 32).extractLsb' 20 4 = x.extractLsb' 8 4 := by
    rw [BitVec.extractLsb'_append_eq_of_le (by decide), BitVec.extractLsb'_append_eq_of_add_le (by decide),
      BitVec.extractLsb'_setWidth_of_le (by decide), BitVec.extractLsb'_eq_self]
  have hx : x.extractLsb' 8 4 ++ x.extractLsb' 0 8 = x := BitVec.extractLsb'_append_extractLsb' (w := 4) (len := 8)
  rw [hnib, hx]

/-! The overdrive (rule R150). -/

/-- No capture, another register's or one above the map's last slot is no match (rule R150). -/
theorem overdriveHit_eq_none {addr : Addr}
    (h : ∀ t : Byte, s.odTarget = some t → addr ≠ t.setWidth 16 ∨ 0x24 < (t &&& 0x7F).toNat) :
    s.overdriveHit addr = none := by
  cases hhit : s.overdriveHit addr with
  | none => rfl
  | some t =>
    obtain ⟨hod, haddr, hslot⟩ := State.overdriveHit_slot hhit
    rw [targetSlot_eq] at hslot
    exact ((h t hod).elim (fun hne => hne haddr) (fun hlt => absurd hslot (not_le.2 hlt))).elim

theorem overdriveByte_miss {addr : Addr} (d : Byte) (h : s.overdriveHit addr = none) : s.overdriveByte addr d = d := by
  rw [State.overdriveByte, h]

theorem overdriveHit_eq_some {addr : Addr} {t : Byte} (h : s.odTarget = some t) (ha : addr = t.setWidth 16)
    (hm : targetSlot t ≤ overdriveMapLimit) : s.overdriveHit addr = some t := by
  simp only [State.overdriveHit, h, ha, hm, and_self, if_true]

theorem overdriveByte_hit {addr : Addr} {t : Byte} (d : Byte) (h : s.overdriveHit addr = some t) :
    s.overdriveByte addr d = overdriveCombine s.cfg.overdriveCombine d (s.streamByte (s.overdriveStream t)) := by
  rw [State.overdriveByte, h]

theorem overdriveState_hit {addr : Addr} {t : Byte} (h : s.overdriveHit addr = some t) : s.overdriveState addr =
    { (s.streamAdvance (s.overdriveStream t)).setMap (targetSlot t) (rotateMap (s.map (targetSlot t))) with
      odTarget := none } := by
  rw [State.overdriveState, h]

/-- How the byte of an overdrive goes on, in the words of the statement (rule R152). -/
theorem overdriveCombine_eq (how : OverdriveCombine) (d b : Byte) :
    overdriveCombine how d b = if how = .replace then b else d &&& b := by
  cases how <;> rfl

/-! DeviceRAM after a stream and a map word have been written. -/

/-- Outside its slot a map update leaves DeviceRAM alone. -/
theorem ramSameBut_setMap (s : State) (m : Nat) (v : Word32) : s.RamSameBut (s.setMap m v) (inSlot (s.mapAt m)) := by
  intro j hj
  refine State.ramByte_ramWrite4_other s v ?_
  unfold inSlot at hj
  omega

/-- Two writes change what either changes. -/
theorem ramSameBut_trans {s t u : State} {p q : Nat → Prop} (h : s.RamSameBut t p) (h' : t.RamSameBut u q) :
    s.RamSameBut u (fun a => p a ∨ q a) := by
  intro j hj
  obtain ⟨hp, hq⟩ := not_or.1 hj
  rw [h' j hq, h j hp]

/-- Outside its offset a byte written leaves DeviceRAM alone. -/
theorem ramSameBut_ramWrite (s : State) (a : Nat) (v : Byte) : s.RamSameBut (s.ramWrite a v) (fun b => b = a) :=
  fun _ hj => State.ramByte_ramWrite_other s v (Ne.symm hj)

/-- A map update leaves the pointers alone (rule R153). -/
theorem ptr_setMap {k m : Nat} (hc : s.cfg.wf = true) (hk : k < 18) (v : Word32) : (s.setMap m v).ptr k = s.ptr k :=
  State.ramRead4_ramWrite4_other s v (.inl (State.ptrAt_below_mapAt hc hk))

/-! The obligations. -/

/-- Settles O9: the overdrive finds no match, so it only consumes the capture. -/
theorem peripheralWriteWithoutOverdrive : Obligations.PeripheralWriteWithoutOverdrive := by
  intro i addr d p s hi hn
  have hmiss := overdriveHit_eq_none hn
  rw [exec_periphWrite hi, State.overdriveState_miss s hmiss, overdriveByte_miss d hmiss]

/-- Settles O10: the stream advances first, and the map word, which lies above every pointer, is rotated after it. -/
theorem overdrivenWriteDeliversTheStreamByte : Obligations.OverdrivenWriteDeliversTheStreamByte := by
  intro i addr d p s t m k b hi hc hod haddr hm hlim hk hb
  rw [← targetSlot_eq] at hm
  subst hm
  have hstream : s.overdriveStream t = k := by rw [State.overdriveStream, extractLsb'_lowNibble, hk]
  have hk18 : k < 18 := by rw [← hstream]; exact (s.overdriveStream_lt t).trans (by decide)
  have hhit := overdriveHit_eq_some hod haddr hlim
  have hex := exec_periphWrite (s := s) hi
  rw [overdriveState_hit hhit, overdriveByte_hit d hhit, overdriveCombine_eq, streamByte_eq, hstream, ← hb] at hex
  have hc' : (s.streamAdvance k).cfg.wf = true := hc
  exact ⟨_, hex, rfl, (ptr_setMap hc' hk18 _).trans (State.ptr_streamAdvance s k),
    State.ramRead4_ramWrite4_same (s.streamAdvance k) _ _,
    ramSameBut_trans (ramSameBut_setPtr s k _) (ramSameBut_setMap (s.streamAdvance k) _ _)⟩

/-- Settles O11: bit `j` of the low nibble after `k` rotations is bit `j + 4k` of the word. -/
theorem mapRotationCyclesThroughTheNibbles : Obligations.MapRotationCyclesThroughTheNibbles := by
  refine fun w => ⟨fun k => ?_, ?_⟩
  · apply BitVec.eq_of_getLsbD_eq
    intro j hj
    have hk := k.isLt
    rw [BitVec.getLsbD_extractLsb', BitVec.getLsbD_extractLsb', Nat.zero_add,
      getLsbD_iterate_rotateMap w k.val j (by omega), Nat.mod_eq_of_lt (by omega), Nat.add_comm j]
  · apply BitVec.eq_of_getLsbD_eq
    intro j hj
    rw [getLsbD_iterate_rotateMap w 8 j hj, Nat.add_mod_right, Nat.mod_eq_of_lt hj]

/-- Settles O12: each accessor is a concatenation of bytes. -/
theorem tableWordsReadTheirBytes : Obligations.TableWordsReadTheirBytes := by
  intro s k word hword
  have h4 : ∀ a, (s.ramRead4 a).toNat = word a := by
    intro a
    rw [hword, State.ramRead4]
    simp only [toNat_append_eq]
    omega
  refine ⟨h4 _, h4 _, h4 _, ?_⟩
  rw [hword]
  show (s.ramByte (s.incAt k + 1) ++ s.ramByte (s.incAt k)).toNat = _
  rw [toNat_append_eq, State.incAt]
  have h0 := (s.ramByte (s.cfg.incOff + 4 * k)).isLt
  have h1 := (s.ramByte (s.cfg.incOff + 4 * k + 1)).isLt
  omega

/-- Settles O27: the stored byte lies in the display buffer, above every pointer. -/
theorem dswriteStoresAndAdvances : Obligations.DswriteStoresAndAdvances := by
  intro s d a hc ha
  have ha' : displayAt (s.ptr commStream) = a := (displayAt_eq _).trans ha.symm
  have hslot : s.ptrAt commStream + 4 ≤ a := by
    rw [← ha']
    exact (State.ptrAt_bound hc (by decide)).trans (displayAt_range _).1
  obtain ⟨w, hw⟩ : ∃ w, w = s.consumeCapture.ramWrite a d := ⟨_, rfl⟩
  have hds : s.consumeCapture.dsWrite d = w.setPtr commStream (s.ptr commStream + oneByte) := by
    rw [hw, ← ha']
    rfl
  have hat : w.ptrAt commStream = s.ptrAt commStream := by rw [hw]; rfl
  refine ⟨(s.consumeCapture.dsWrite d).ret (.flag false), rfl, rfl, ?_, ?_, ?_⟩ <;> rw [hds]
  · show (w.setPtr _ _).ramByte a = d
    rw [State.ramByte_setPtr_other w _ (.inr (by rw [hat]; exact hslot)), hw, State.ramByte_ramWrite_same]
  · exact State.ptr_setPtr_same w _ _
  · have h1 : s.RamSameBut w (fun b => b = a) := by rw [hw]; exact ramSameBut_ramWrite s.consumeCapture a d
    rw [← hat]
    exact ramSameBut_trans h1 (ramSameBut_setPtr w commStream _)

/-- Settles O28: the merge, by the fields of the pointer. -/
theorem dsptrShiftsAndMerges : Obligations.DsptrShiftsAndMerges := by
  intro s d
  refine ⟨(s.consumeCapture.dsPtr d).ret (.flag false), rfl, rfl, ?_, ramSameBut_setPtr s.consumeCapture commStream _⟩
  exact (State.ptr_dsPtr s.consumeCapture d).trans (dsPtrMerge_eq _ _)

/-- Settles O29: the second write keeps the nibble that the first one has put lowest. -/
theorem setcommSetsThePointer : Obligations.SetcommSetsThePointer := by
  intro s x
  obtain ⟨t, ht, -, htp, -⟩ := dsptrShiftsAndMerges s ((x.extractLsb' 8 4).setWidth 8)
  obtain ⟨u, hu, -, hup, -⟩ := dsptrShiftsAndMerges t (x.extractLsb' 0 8)
  refine ⟨t, u, ht, hu, ?_⟩
  rw [hup, htp]
  exact setcomm_word _ x

/-- Settles O30: the two nibbles are compared with 0 under the polarity. -/
theorem setmodeSetsTheModeByte : Obligations.SetmodeSetsTheModeByte := by
  intro s d
  refine ⟨rfl, fun h => ?_, fun h => ?_⟩ <;>
    simp only [State.busStuffOn, State.digitalOn, nibbleOn, h, if_true, Bool.false_eq_true, if_false, beq_iff_eq,
      bne_iff_ne, and_self]

end Sys2Proof.StreamWrites
end

section
/-! PROOFS. The coprocessor call and the callbacks (44_control.md rules R181 to R188, 43_audio.md rules R170 to R174). -/

namespace Sys2Proof.CoprocessorCall
open Sys2Proof.Machine Sys2Proof.Effects

/-! What a fold over a list of actions keeps and sets. -/

/-- What no action of the list changes is kept. -/
theorem foldl_keeps {β γ α : Type} (f : β → α → β) (g : β → γ) (xs : List α) (h : ∀ x ∈ xs, ∀ y, g (f y x) = g y)
    (y : β) : g (xs.foldl f y) = g y := by
  induction xs generalizing y with
  | nil => rfl
  | cons x xs ih =>
    rw [List.foldl_cons, ih (fun z hz => h z (List.mem_cons_of_mem x hz)), h x List.mem_cons_self]

/-- What an action sets, and no later action changes, is what it set. -/
theorem foldl_last {β γ α : Type} (f : β → α → β) (g : β → γ) (pre post : List α) (x : α) (v : γ)
    (hx : ∀ y, g (f y x) = v) (h : ∀ x ∈ post, ∀ y, g (f y x) = g y) (y : β) :
    g ((pre ++ x :: post).foldl f y) = v := by
  rw [List.foldl_append, List.foldl_cons, foldl_keeps f g post h, hx]

/-- What one action of the list makes true, and none makes false, is true at the end. -/
theorem foldl_sets {β α : Type} (f : β → α → β) (p : β → Prop) (xs : List α) (hk : ∀ x ∈ xs, ∀ y, p y → p (f y x))
    (hs : ∃ x ∈ xs, ∀ y, p (f y x)) (y : β) : p (xs.foldl f y) := by
  obtain ⟨x, hx, hset⟩ := hs
  obtain ⟨pre, post, rfl⟩ := List.append_of_mem hx
  rw [List.foldl_append, List.foldl_cons]
  exact List.foldlRecOn post f (hset _) fun z hz w hw => hk w (List.mem_append_right pre (List.mem_cons_of_mem x hw)) z hz

/-! What one action of the bridge does to a byte and to the fields of a channel (rules R170 to R173, R186). -/

variable {c : Fin 3} {ch : Word32} {y : Channel} {x : BridgeAction}

theorem onByte_same (i : BitVec 13) (v b : Byte) : BridgeAction.onByte i.toNat b (.ramWrite i v) = v :=
  if_pos rfl

theorem onByte_other {j : Nat} (b : Byte) (h : ∀ (i : BitVec 13) (w : Byte), i.toNat = j → x ≠ .ramWrite i w) :
    x.onByte j b = b := by
  cases x with
  | ramWrite i w => exact if_neg fun hj => h i w hj rfl
  | call => rfl

/-- An action on channel `c`, by its number: the one word `ch` of that value. -/
theorem onChannel_call (hc : ch.toNat = c.val) (fn : Byte) (v : Word32) (y : Channel) :
    BridgeAction.onChannel c y (.call fn ch v) =
      if fn = 0 then { y with freq := v } else if fn = 1 then { y with counter := 0 }
      else if fn = 3 then { y with wshift := v.setWidth 8 } else y :=
  if_neg (not_not.2 hc)

/-- A RAM write, and a callback on another channel, leave the channel alone. -/
theorem onChannel_other (h : ∀ fn v, x ≠ .call fn ch v) (hc : ch.toNat = c.val) (y : Channel) : x.onChannel c y = y := by
  cases x with
  | ramWrite => rfl
  | call fn ch' v =>
    refine if_pos fun hc' => ?_
    obtain rfl : ch' = ch := BitVec.eq_of_toNat_eq (hc'.trans hc.symm)
    exact h fn v rfl

/-- What is unchanged by every callback on channel `c` but those of number `fn` is unchanged by every action but those. -/
theorem onChannel_field {γ : Type} (g : Channel → γ) (fn : Byte) (hc : ch.toNat = c.val)
    (hg : ∀ fn' v y, fn' ≠ fn → g (BridgeAction.onChannel c y (.call fn' ch v)) = g y)
    (h : ∀ v, x ≠ .call fn ch v) (y : Channel) : g (x.onChannel c y) = g y := by
  by_cases hx : ∃ fn' v, x = .call fn' ch v
  · obtain ⟨fn', v, rfl⟩ := hx
    exact hg fn' v y fun hfn => h v (by rw [hfn])
  · rw [onChannel_other (fun fn' v hx' => hx ⟨fn', v, hx'⟩) hc]

/-- Only CB_SET_FREQ changes the frequency (rule R170). -/
theorem freq_onChannel (hc : ch.toNat = c.val) (h : ∀ v, x ≠ .call 0 ch v) (y : Channel) :
    (x.onChannel c y).freq = y.freq := by
  refine onChannel_field Channel.freq 0 hc (fun fn v y hfn => ?_) h y
  rw [onChannel_call hc, if_neg hfn]
  split_ifs <;> rfl

/-- Only CB_RESET_COUNTER changes the counter (rule R171). -/
theorem counter_onChannel (hc : ch.toNat = c.val) (h : ∀ v, x ≠ .call 1 ch v) (y : Channel) :
    (x.onChannel c y).counter = y.counter := by
  refine onChannel_field Channel.counter 1 hc (fun fn v y hfn => ?_) h y
  rw [onChannel_call hc, if_neg hfn]
  split_ifs <;> rfl

/-- Only CB_SET_WSHIFT changes the shift (rule R173). -/
theorem wshift_onChannel (hc : ch.toNat = c.val) (h : ∀ v, x ≠ .call 3 ch v) (y : Channel) :
    (x.onChannel c y).wshift = y.wshift := by
  refine onChannel_field Channel.wshift 3 hc (fun fn v y hfn => ?_) h y
  rw [onChannel_call hc, if_neg hfn]
  split_ifs <;> rfl

/-- No action makes a counter of 0 another (rule R171). -/
theorem counter_onChannel_zero (hc : ch.toNat = c.val) (hy : y.counter = 0) : (x.onChannel c y).counter = 0 := by
  by_cases h : ∃ v, x = .call 1 ch v
  · obtain ⟨v, rfl⟩ := h
    rw [onChannel_call hc]
    rfl
  · rw [counter_onChannel hc (fun v hv => h ⟨v, hv⟩), hy]

/-- Of the callbacks of number `fn` on channel `c` the last one counts for the field `g` that they alone set, to `k` of their
value; without one the field is kept. -/
theorem lastCall_counts {γ : Type} (g : Channel → γ) (fn : Byte) (k : Word32 → γ)
    (hkeep : ∀ x : BridgeAction, (∀ v, x ≠ .call fn ch v) → ∀ y, g (x.onChannel c y) = g y)
    (hset : ∀ v y, g (BridgeAction.onChannel c y (.call fn ch v)) = k v) (xs : List BridgeAction) (y : Channel) :
    (∀ (pre post : List BridgeAction) (v : Word32), xs = pre ++ .call fn ch v :: post →
      (∀ w, .call fn ch w ∉ post) → g (xs.foldl (BridgeAction.onChannel c) y) = k v) ∧
    ((∀ v, .call fn ch v ∉ xs) → g (xs.foldl (BridgeAction.onChannel c) y) = g y) := by
  refine ⟨fun pre post v hlist hpost => ?_, fun hno => ?_⟩
  · rw [hlist]
    refine foldl_last _ g pre post _ _ (hset v) (fun x hx => hkeep x ?_) _
    rintro w rfl
    exact hpost w hx
  · refine foldl_keeps _ g _ (fun x hx => hkeep x ?_) _
    rintro w rfl
    exact hno w hx

/-! A run that completes. -/

/-- A run whose bridge does what rule R186 allows completes, and leaves what its actions make of the state (rule R185). -/
theorem exec_writeCallfn_run {s : State} {d : Byte} (hsel : d = 0xFE ∨ d = 0xFF)
    (hd : DeltaInRange s.input.hostCycles s.armCycles) (hx : ∀ x ∈ s.input.bridge.actions, x.allowed = true) :
    ∃ (t u : State) (r : List (Option Word32)), exec (.writeCallfn d) s = .next t ∧ t = u.leaveRun.ret (.flag false) ∧
      bridgeRun s.input.bridge.actions (s.consumeCapture.enterRun (s.input.hostCycles - s.armCycles)) = .next u ∧
      u = { s.consumeCapture.enterRun (s.input.hostCycles - s.armCycles) with
        ram := u.ram, ch0 := u.ch0, ch1 := u.ch1, ch2 := u.ch2, result := u.result,
        out := r.map .callbackReturn ++ .bridgeRun (s.input.hostCycles - s.armCycles) :: s.out } := by
  obtain ⟨u, r, hrun, hu⟩ := bridgeRun_allowed s.input.bridge.actions
    (s := s.consumeCapture.enterRun (s.input.hostCycles - s.armCycles)) rfl hx
  exact ⟨_, u, r, (execWriteCallfn_run hsel).trans (runCoprocessor_next (s := s.consumeCapture) hd hrun), rfl, hrun, hu⟩

/-- The end of a run leaves DeviceRAM and the channels alone. -/
theorem leaveRun_ret_frame (u : State) (r : OpResult) :
    (∀ j, (u.leaveRun.ret r).ramByte j = u.ramByte j) ∧ ∀ c, (u.leaveRun.ret r).channel c = u.channel c := by
  rw [leaveRun_eq]
  exact ⟨fun _ => rfl, fun _ => rfl⟩

/-! The obligations. -/

/-- Settles O31: only the run selectors start a run. -/
theorem callfnIgnoresOtherSelectors : Obligations.CallfnIgnoresOtherSelectors :=
  fun _ _ h1 h2 => execWriteCallfn_other h1 h2

/-- Settles O32: the allowed actions complete, and the end of the run puts out the fault. -/
theorem callfnRunsTheCoprocessor : Obligations.CallfnRunsTheCoprocessor := by
  intro s d hsel hd hx
  obtain ⟨t, u, r, he, ht, -, hu⟩ := exec_writeCallfn_run hsel hd hx
  refine ⟨t, r, he, ?_⟩
  rw [ht, leaveRun_eq, hu, List.append_assoc]
  rfl

/-- Settles O33: the run is the fold of its actions, and of each byte and field the last action that sets it counts. -/
theorem callfnRunAppliesWhatTheBridgeDoes : Obligations.CallfnRunAppliesWhatTheBridgeDoes := by
  rintro s d _ hsel hd rfl hx
  obtain ⟨t, u, r, he, rfl, hrun, -⟩ := exec_writeCallfn_run hsel hd hx
  obtain ⟨hram, hchan⟩ := bridgeRun_effect s.input.bridge.actions rfl hx hrun
  obtain ⟨hram', hchan'⟩ := leaveRun_ret_frame u (.flag false)
  refine ⟨_, he, ?_, ?_, ?_⟩
  · intro pre post i v hlist hpost
    rw [hram', hram, hlist]
    refine foldl_last (BridgeAction.onByte i.toNat) id pre post _ v (onByte_same i v) (fun x hx b => onByte_other b ?_) _
    rintro i' w hi rfl
    exact hpost w (BitVec.eq_of_toNat_eq hi ▸ hx)
  · intro j hj
    rw [hram', hram]
    refine foldl_keeps _ id _ (fun x hx b => onByte_other b ?_) _
    rintro i w hi rfl
    exact hj ⟨i, w, hx, hi⟩
  · intro c ch hc
    rw [hchan', hchan]
    obtain ⟨hfreq, hfreq'⟩ := lastCall_counts Channel.freq 0 id (fun _ => freq_onChannel hc)
      (fun v y => by rw [onChannel_call hc]; rfl) s.input.bridge.actions (s.channel c)
    obtain ⟨-, hcounter⟩ := lastCall_counts Channel.counter 1 (fun _ => 0) (fun _ => counter_onChannel hc)
      (fun v y => by rw [onChannel_call hc]; rfl) s.input.bridge.actions (s.channel c)
    obtain ⟨hwshift, hwshift'⟩ := lastCall_counts Channel.wshift 3 (fun v => v.extractLsb' 0 8)
      (fun _ => wshift_onChannel hc)
      (fun v y => by rw [onChannel_call hc, ← BitVec.setWidth_eq_extractLsb' (by decide)]; rfl)
      s.input.bridge.actions (s.channel c)
    refine ⟨fun hno => ?_, hfreq, hfreq', fun ⟨v, hv⟩ => ?_, hcounter, hwshift, hwshift'⟩
    · refine foldl_keeps _ id _ (fun x hx => onChannel_other ?_ hc) _
      rintro fn v rfl
      exact hno fn v hx
    · refine foldl_sets _ (fun y : Channel => y.counter = 0) _ (fun _ _ _ hy => counter_onChannel_zero hc hy)
        ⟨_, hv, fun y => ?_⟩ _
      rw [onChannel_call hc]
      rfl

/-- Settles O34: the delta is tested first, and a bad channel stops the run wherever it stands in the list. -/
theorem callfnFaults : Obligations.CallfnFaults := by
  intro s d hsel
  refine ⟨fun hd => ?_, fun pre rest fn ch v hpre hf hc hd hlist => ?_⟩
  · exact (execWriteCallfn_run hsel).trans (runCoprocessor_outOfRange (s := s.consumeCapture) hd)
  · refine (execWriteCallfn_run hsel).trans (runCoprocessor_fault (s := s.consumeCapture) hd ?_)
    show bridgeRun s.input.bridge.actions _ = _
    rw [hlist]
    exact bridgeRun_badChannel pre rest rfl hpre hf hc

/-- Settles O37: each of the three sets one field of its channel. -/
theorem callbacksSetTheirChannel : Obligations.CallbacksSetTheirChannel := by
  intro s c ch v hr hc i x hi
  have he : exec i s = .next (((s.setChannel c x).emit (.callbackReturn none)).ret (.word none)) := by
    rcases hi with ⟨rfl, rfl⟩ | ⟨rfl, rfl⟩ | ⟨rfl, rfl⟩
    · exact callback_next hr hc (fun c => s.setChannel c { s.channel c with freq := v }) (fun _ => none)
    · exact callback_next hr hc (fun c => s.setChannel c { s.channel c with counter := 0 }) (fun _ => none)
    · rw [← BitVec.setWidth_eq_extractLsb' (by decide)]
      exact callback_next hr hc (fun c => s.setChannel c { s.channel c with wshift := v.setWidth 8 }) (fun _ => none)
  refine ⟨_, he, rfl, ?_, fun c' hc' => ?_⟩
  · exact (channel_setChannel s c c x).trans (if_pos rfl)
  · exact (channel_setChannel s c c' x).trans (if_neg hc')

/-- Settles O38: the callback's state is the one it found. -/
theorem getCounterReturnsTheCounter : Obligations.GetCounterReturnsTheCounter :=
  fun s _ _ _ hr hc => callback_next hr hc (fun _ => s) (fun c => some (s.channel c).counter)

/-- Settles O39: each of the four is the call of the bridge that its number names. -/
theorem callbacksStopOutsideTheirRange : Obligations.CallbacksStopOutsideTheirRange := by
  intro i ch s hi
  obtain ⟨fn, v, hf, he⟩ := exec_callback hi
  rw [he]
  exact ⟨bridgeCall_outsideRun hf ch v, fun hr hc => bridgeCall_badChannel hr hf hc⟩

end Sys2Proof.CoprocessorCall
end

section
/-! PROOFS. The host and debug port: bank, patch, lock, query, save and load (44_control.md rules R190 to R199), reset and
creation (70_reset_and_hazards.md rules R230 to R232). -/

namespace Sys2Proof.HostPort
open Sys2Proof.Machine Sys2Proof.Kept

variable {s : State}

/-! PORT_BANK and PORT_PATCH. -/

/-- PORT_BANK of an existing bank (rule R190). -/
theorem exec_portBank (b : Fin 7) : exec (.portBank b.val) s = .next ((s.bankSwitch b).ret (.flag s.bankTakes)) :=
  dif_pos b.isLt

/-- Settles O40: the lock decides the switch. -/
theorem portBankSwitchesUnlessLocked : Obligations.PortBankSwitchesUnlessLocked := by
  refine fun s n => ⟨?_, fun hn hl => ?_, fun hn => dif_neg (by omega)⟩
  · rintro b rfl hl
    rw [exec_portBank, bankSwitch_unlocked b hl, State.bankTakes, hl]
    rfl
  · have htakes : s.bankTakes = false := by rw [State.bankTakes, hl]; rfl
    rw [exec_portBank ⟨n, by omega⟩, bankSwitch_locked _ hl, htakes]
    rfl

/-- Settles O41: one byte of the image is written. -/
theorem patchWritesOneImageByte : Obligations.PatchWritesOneImageByte := by
  rintro s addr v _ _ rfl rfl
  have hoff : addr.extractLsb' 0 12 = addr.setWidth 12 := (BitVec.setWidth_eq_extractLsb' (by decide)).symm
  rw [hoff]
  refine ⟨fun hl ha => ?_, fun h => if_pos h⟩
  have hex : exec (.portPatch addr v) s =
      .next ({ s.imgWrite (s.romIndex (addr.setWidth 12).toNat) v with bankChanged := true }.ret (.flag true)) := by
    refine if_neg ?_
    rintro (h | h)
    · exact Bool.false_ne_true (hl.symm.trans h)
    · exact absurd h (not_lt.2 ha)
  exact ⟨_, hex, rfl, State.imgByte_imgWrite_same s v, fun j hj => State.imgByte_imgWrite_other s v hj.symm⟩

/-- Settles O42: each sets the lock whatever it was. -/
theorem lockAndUnlockSetTheLock : Obligations.LockAndUnlockSetTheLock :=
  fun _ => ⟨rfl, rfl, _, _, _, rfl, rfl, rfl, rfl⟩

/-- Settles O43, by the two meanings. -/
theorem queryReadsAndClearsBankChanged : Obligations.QueryReadsAndClearsBankChanged :=
  fun _ => ⟨rfl, rfl⟩

/-! PORT_SAVE. -/

/-- A value of field 8 comes back as the number that it is. -/
theorem toNat_ofInt_lt {n : Nat} (h : n < 2 ^ 32) : (BitVec.ofInt 32 (n : Int)).toNat = n := by
  rw [BitVec.ofInt_natCast, BitVec.toNat_ofNat, Nat.mod_eq_of_lt h]

/-- Settles O44: the fields are those of `State.snapshot`, field 8 the saved carry or a free word. -/
theorem saveReturnsTheSnapshot : Obligations.SaveReturnsTheSnapshot := by
  rintro s z h1 h2 rfl
  obtain ⟨w, hw⟩ : ∃ w, w = s.savedCarry.getD (Config.freeWord s.draws) := ⟨_, rfl⟩
  have hex := execPortSave_next h1 h2
  rw [← hw] at hex
  refine ⟨_, s.ramBytes, (s.snapshot w).od, (s.snapshot w).sty, (s.snapshot w).jmp, w, hex, ?_, ramBytes_length s,
    fun i hi => ramBytes_getElem? s hi, snapshot_od_none w, fun x => snapshot_od_some w, ?_, ?_, ?_, ?_, ?_⟩
  · simp only [List.append_assoc]
    rfl
  · intro h
    rw [snapshot_sty, h]
    rfl
  · intro x h
    rw [snapshot_sty, h]
    rfl
  · intro h
    rw [snapshot_jmp, h]
    rfl
  · intro x h
    rw [snapshot_jmp, h]
    rfl
  · intro scale product n hscale hfin hproduct hnonneg hn hfloor
    have hmul : mul64 s.carry scale = product := hproduct.eq_round64
    rw [← hmul] at hnonneg hfloor
    rw [hw, savedCarry_eq (toF64Finite_of_roundsTo hscale hfin) hnonneg hn hfloor, Option.getD_some, toNat_ofInt_lt hn]

/-- Settles O45: the stamps are tested first. -/
theorem saveFaultsOnALargeStamp : Obligations.SaveFaultsOnALargeStamp :=
  fun _ h => execPortSave_fault h

/-! PORT_LOAD. -/

/-- Settles O46: the lock and then the name end the load. -/
theorem loadLeavesALockedDeviceOrAnotherNameAlone : Obligations.LoadLeavesALockedDeviceOrAnotherNameAlone := by
  rintro s bytes (hl | hn)
  · exact execPortLoad_locked bytes hl
  · exact execPortLoad_otherName ((readsOtherName_iff _ _ _).2 hn)

/-- A load of the bytes of a snapshot in range restores its fields (rule R194). -/
theorem exec_portLoad_restore {f : Snapshot} (hl : s.locked = false) (hram : f.ram.length = 8192)
    (hname : f.name = s.cfg.deviceName) (hr : f.inRange = true) :
    exec (.portLoad (encodeSnapshot s.cfg.codecs f)) s =
      .next ((s.restore f (Fin.ofNat 7 f.bank.toNat)).ret (.flag true)) :=
  (execPortLoad_encodeSnapshot hl hram hname).trans (loadFields_restore hr)

/-- A restored byte of DeviceRAM is the snapshot's (rule R194). -/
theorem ramByte_restore {f : Snapshot} (n : Fin 7) {i : Nat} (hi : i < f.ram.length) :
    f.ram[i]? = some ((s.restore f n).ramByte i) :=
  ramByte_ofBytes rfl rfl hi

/-- Settles O47: the restore, field by field. -/
theorem loadRestoresTheSnapshot : Obligations.LoadRestoresTheSnapshot := by
  intro s f hl hram hname hbank hcount hsty hjmp
  have hr : f.inRange = true := (inRange_iff f).2 ⟨hbank, hcount, hsty, hjmp⟩
  obtain ⟨n, hn⟩ : ∃ n, n = Fin.ofNat 7 f.bank.toNat := ⟨_, rfl⟩
  have hex := exec_portLoad_restore hl hram hname hr
  rw [← hn] at hex
  obtain ⟨hb, hbc⟩ := restore_bank f n hl
  obtain ⟨haddr, hcnt⟩ := restore_intercept s f n hcount
  refine ⟨_, hex, ?_, ?_, fun i hi => ramByte_restore n (hram ▸ hi), ?_, rfl, ?_, hcnt, rfl, rfl, ?_, rfl, rfl, rfl, rfl⟩
  · rw [← hl, ← hbc]
    rfl
  · show (s.restore f n).bank.val = _
    rw [hb, hn, Fin.val_ofNat, Nat.mod_eq_of_lt (by omega)]
  · show (if f.od = 0xFFFF then none else some (f.od.setWidth 8)) = _
    rw [BitVec.setWidth_eq_extractLsb' (by decide)]
  · refine haddr.trans ?_
    rw [savedOffset, ← ite_or]
    simp only [or_comm]
  · intro scale hscale hfin
    have hc : toF64 f.carry.toNat = f.carry.toNat := round64_nat (lt_trans f.carry.isLt (by decide))
    show RoundsTo _ (loadedCarry s.cfg.carryScale f.carry)
    rw [loadedCarry_eq (toF64Finite_of_roundsTo hscale hfin), hc]
    exact roundsTo_round64 _

/-- Settles O48: every such load draws the state. -/
theorem loadOfABadSnapshotReturnsFalse : Obligations.LoadOfABadSnapshotReturnsFalse := by
  intro s bytes hl h
  have hex : exec (.portLoad bytes) s = .next (s.unspecified.ret (.flag false)) := by
    rcases h with ⟨hd, hname⟩ | ⟨f, hd, hname, hrange⟩
    · refine execPortLoad_undecodable hl (fun hother => ?_) hd
      obtain ⟨name, rest, hread, hne⟩ := (readsOtherName_iff _ _ _).1 hother
      exact hne (hname name rest hread)
    · refine (execPortLoad_decoded hl hd hname).trans (loadFields_range fun hr => ?_)
      obtain ⟨hbank, hcount, hsty, hjmp⟩ := (inRange_iff f).1 hr
      omega
  obtain ⟨hagree, hjok, hsok⟩ := unspecified_ranges s
  exact ⟨_, hex, rfl, rfl, hl, rfl, hagree, hjok, hsok⟩

/-! A load of what a save returned. -/

/-- The snapshot of a state with offsets in range is in range (rules R28, R29, R195). -/
theorem snapshot_inRange (w : Word32) (hj : offsetOk s.jmpAddr) (hs : offsetOk s.styAddr) :
    (s.snapshot w).inRange = true := by
  have hoff : ∀ a : Option (BitVec 13), offsetOk a → ((a.getD 0).setWidth 16 : BitVec 16).toNat ≤ 0x1000 := by
    intro a ha
    cases a with
    | none => decide
    | some x =>
      have := (ha x rfl).2
      simp only [Option.getD_some]
      bv_omega
  have hb := s.bank.isLt
  have hc := s.jmpCount.isLt
  refine (inRange_iff _).2 ⟨?_, ?_, hoff _ hs, hoff _ hj⟩
  · rw [snapshot_bank, BitVec.toNat_ofNat]
    omega
  · rw [snapshot_jmpCount, BitVec.toNat_ofNat]
    omega

/-- The bank comes back (rules R194, R195). -/
theorem restore_snapshot_bank (w : Word32) : Fin.ofNat 7 (s.snapshot w).bank.toNat = s.bank := by
  have hb := s.bank.isLt
  apply Fin.ext
  rw [Fin.val_ofNat, snapshot_bank, BitVec.toNat_ofNat]
  omega

/-- The target comes back: no target has the encoding of none (rules R194, R195). -/
theorem restore_snapshot_odTarget (t : State) (w : Word32) (n : Fin 7) :
    (t.restore (s.snapshot w) n).odTarget = s.odTarget := by
  rw [restore_odTarget]
  cases h : s.odTarget with
  | none => rw [snapshot_od_none w h, if_pos rfl]
  | some x =>
    have hne : (x.setWidth 16 : BitVec 16) ≠ 0xFFFF := by bv_omega
    rw [snapshot_od_some w h, if_neg hne, BitVec.setWidth_setWidth_of_le _ (by decide), BitVec.setWidth_eq]

/-- The intercept comes back where its address and count are in step (rules R28, R194, R195). -/
theorem restore_snapshot_intercept (t : State) (w : Word32) (n : Fin 7) (hagree : s.jmpAddr = none ↔ s.jmpCount = 0)
    (hok : offsetOk s.jmpAddr) :
    (t.restore (s.snapshot w) n).jmpAddr = s.jmpAddr ∧ (t.restore (s.snapshot w) n).jmpCount = s.jmpCount := by
  have hval : (s.snapshot w).jmpCount.toNat = s.jmpCount.val := by
    have := s.jmpCount.isLt
    rw [snapshot_jmpCount, BitVec.toNat_ofNat]
    omega
  have hzero : (s.snapshot w).jmpCount = 0 ↔ s.jmpAddr = none := by
    rw [hagree, ← BitVec.toNat_inj, hval, ← Fin.val_eq_zero_iff]
    rfl
  have hsaved : savedOffset (s.snapshot w).jmp = s.jmpAddr := savedOffset_getD hok
  have hjmp : (s.snapshot w).jmp = 0 ↔ s.jmpAddr = none := by rw [← savedOffset_eq_none, hsaved]
  have hlt := s.jmpCount.isLt
  obtain ⟨haddr, hcount⟩ := restore_intercept t (s.snapshot w) n (by omega)
  rw [haddr, hsaved]
  refine ⟨?_, Fin.ext (hcount.trans ?_)⟩
  · split
    · next h => exact (hzero.1 h).symm
    · rfl
  · split
    · next h => rw [hagree.1 (hjmp.1 h)]; rfl
    · exact hval

/-- DeviceRAM comes back (rules R194, R195). -/
theorem restore_snapshot_ramByte (t : State) (w : Word32) (n : Fin 7) {i : Nat} (hi : i < 8192) :
    (t.restore (s.snapshot w) n).ramByte i = s.ramByte i := by
  have h := ramByte_restore (s := t) (f := s.snapshot w) n (i := i) ((ramBytes_length s).symm ▸ hi)
  rw [snapshot_ram, ramBytes_getElem? s hi] at h
  exact (Option.some.inj h).symm

/-- Settles O49: the save writes no state, and the load restores the snapshot of it. -/
theorem loadOfSaveRestoresTheState : Obligations.LoadOfSaveRestoresTheState := by
  intro s hinv hl h1 h2
  obtain ⟨-, -, -, hagree, hjok, hsok, -, -⟩ := hinv
  obtain ⟨w, hw⟩ : ∃ w, w = s.savedCarry.getD (Config.freeWord s.draws) := ⟨_, rfl⟩
  have hsave := execPortSave_next h1 h2
  rw [← hw] at hsave
  obtain ⟨t, ht⟩ : ∃ t, t = (s.drew (if s.savedCarry.isSome then 0 else 1)).ret
    (.snapshot (encodeSnapshot s.cfg.codecs (s.snapshot w))) := ⟨_, rfl⟩
  rw [← ht] at hsave
  have hcfg : t.cfg = s.cfg := by rw [ht]; rfl
  have himg : t.img = s.img := by rw [ht]; rfl
  have hlt : t.locked = false := by rw [ht]; exact hl
  have hload := exec_portLoad_restore (f := s.snapshot w) hlt (ramBytes_length s) (by rw [hcfg]; rfl)
    (snapshot_inRange w hjok hsok)
  rw [restore_snapshot_bank, hcfg] at hload
  obtain ⟨hja, hjc⟩ := restore_snapshot_intercept t w s.bank hagree hjok
  obtain ⟨hb, -⟩ := restore_bank (s.snapshot w) s.bank hlt
  refine ⟨t, _, _, hsave, by rw [ht]; rfl, hload, rfl, hb, fun i hi => restore_snapshot_ramByte t w s.bank hi,
    fun i => ?_, restore_snapshot_odTarget t w s.bank, savedOffset_getD hsok, hja, hjc, ?_, ?_, rfl, rfl, rfl, rfl,
    hlt.trans hl.symm⟩
  · show (t.img.find i).getD 0 = _
    rw [himg]
    rfl
  · exact (BitVec.toNat_ofNat _ _).trans (Nat.mod_eq_of_lt h1)
  · exact (BitVec.toNat_ofNat _ _).trans (Nat.mod_eq_of_lt h2)

/-! Reset and creation. -/

/-- PORT_RESET of an unlocked device (rule R230). -/
theorem exec_portReset (hl : s.locked = false) : exec .portReset s = .next (s.resetDevice.ret .unit) :=
  if_neg (by rw [hl]; exact Bool.false_ne_true)

/-- Settles O50: the bank switch that ends a reset takes effect. -/
theorem portResetSetsTheResetValues : Obligations.PortResetSetsTheResetValues := by
  intro s hl
  refine ⟨_, exec_portReset hl, ?_, fun i hi => ramByte_resetDevice s hi, fun c => ?_⟩
  · rw [resetDevice_eq hl]
    rfl
  · fin_cases c <;> rfl

/-- Settles O51: the lock is tested first. -/
theorem portResetIsRefusedWhileLocked : Obligations.PortResetIsRefusedWhileLocked :=
  fun _ hl => if_pos hl

/-- Settles O52, by the fields of `State.reset`; the empty driver copy reads as the empty image. -/
theorem resetStateHoldsTheResetValues : Obligations.ResetStateHoldsTheResetValues := by
  refine ⟨rfl, rfl, rfl, rfl, rfl, rfl, rfl, rfl, fun c => ?_, rfl, rfl, fun i hi => if_pos hi⟩
  fin_cases c <;> rfl

/-- The image of a list of bytes (rule R231). -/
theorem imgByte_ofBytes {image : List Byte} (him : s.img = Memory.ofBytes imageSize 0 image) {j : Nat}
    (hj : j < image.length) : image[j]? = some (s.imgByte j) := by
  rw [State.imgByte, him, Memory.find_ofBytes, if_pos (Nat.zero_le j), Nat.sub_zero, List.getElem?_eq_getElem hj,
    Option.bind_some]
  congr 1
  split
  · next h => exact h.2
  · rfl

/-- Settles O53: a created device is a reset of one whose image is the given bytes. -/
theorem creationRefusesABadLayout : Obligations.CreationRefusesABadLayout := by
  intro c image i good hgood
  have hiff : good ↔ c.wf = true ∧ image.length = imageSize := by
    rw [hgood, wf_iff]
    simp only [and_assoc]
  refine ⟨fun hbad => if_neg fun h => hbad (hiff.2 h), fun h => ?_⟩
  obtain ⟨hwf, hlen⟩ := hiff.1 h
  have hj : ∀ j, j < 32768 → j < image.length := fun j hj => hlen ▸ hj
  exact ⟨_, if_pos ⟨hwf, hlen⟩, rfl, rfl, fun j h => imgByte_ofBytes rfl (hj j h), fun j h => ramByte_resetDevice _ h,
    inv_resetDevice hwf (Memory.wf_ofBytes imageSize imageSize image hlen.le) rfl⟩

/-- Zeros are not listed. -/
theorem ofBytes_zeros (n a : Nat) (h : a + n ≤ imageSize) : Memory.ofBytes imageSize a (List.replicate n 0) = [] := by
  induction n generalizing a with
  | zero => rfl
  | succ n ih => rw [List.replicate_succ, Memory.ofBytes, if_pos ⟨by omega, rfl⟩, ih (a + 1) (by omega)]

/-- Settles O54: the image of zeros lists no byte. -/
theorem creationFromZerosGivesTheResetState : Obligations.CreationFromZerosGivesTheResetState := by
  have hgood : Config.default.wf = true ∧ (List.replicate 32768 (0 : Byte)).length = imageSize :=
    ⟨by decide, List.length_replicate⟩
  rw [Obligations.CreationFromZerosGivesTheResetState, create, if_pos hgood, ofBytes_zeros 32768 0 (by decide)]
  rfl

/-- Settles O55: both memories are empty, and an unlisted byte below the display buffer is 0. -/
theorem resetStateMeetsTheInvariant : Obligations.ResetStateMeetsTheInvariant :=
  ⟨by decide, rfl, rfl, by decide, offsetOk_none, offsetOk_none, isBinary64_zero, rfl⟩

end Sys2Proof.HostPort
end

section
/-! PROOFS. Which operation a step runs (00_scope.md rule R15, 20_memory.md rule R60, 60_exceptions.md rules R213, R214), and the
reads of the peripheral space (40_address_decoder.md rules R101 to R103). -/

namespace Sys2Proof.Steps
open Sys2Proof.Machine

variable {s : State} {x : Arrival} {rest : List Arrival}

/-- A request that decodes is run in the accepted state (rules R15, R60). -/
theorem step_ok {i : Instr} (hin : s.inbox = x :: rest) (hd : decode s.cfg x.request = .ok i) :
    step s = exec i (s.accept x rest) := by
  unfold step
  split
  · next h => cases h.symm.trans hin
  · next h =>
    cases h.symm.trans hin
    split
    · next h' => cases h'.symm.trans hd; rfl
    · next h' => cases h'.symm.trans hd

/-- A request that does not decode is refused (rule R80). -/
theorem step_error {e : DecodeError} (hin : s.inbox = x :: rest) (hd : decode s.cfg x.request = .error e) :
    step s = .refused (refusalOf e) := by
  unfold step
  split
  · next h => cases h.symm.trans hin
  · next h =>
    cases h.symm.trans hin
    split
    · next h' => cases h'.symm.trans hd
    · next h' => cases h'.symm.trans hd; rfl

/-- Where nothing waits a step changes nothing (rules R214, R224). -/
theorem step_idle (h : s.inbox = []) : step s = .next s := by
  unfold step
  split
  · rfl
  · next h' => cases h'.symm.trans h

/-- A callback with `fn` above 3 does not exist (rule R80). -/
theorem decodeCallback_unknown {fn : Byte} (h : 3 < fn.toNat) (ch v : Word32) :
    decodeCallback fn ch v = .error .unknownCallback := by
  have hne : fn ≠ 0 ∧ fn ≠ 1 ∧ fn ≠ 2 ∧ fn ≠ 3 := by
    refine ⟨?_, ?_, ?_, ?_⟩ <;> rintro rfl <;> exact absurd h (by decide)
  obtain ⟨h0, h1, h2, h3⟩ := hne
  rw [decodeCallback, if_neg h0, if_neg h1, if_neg h2, if_neg h3]

/-- Settles O5: the head of the queue is accepted. -/
theorem stepRunsTheDecodedOperation : Obligations.StepRunsTheDecodedOperation :=
  fun _ _ _ _ hin hd => step_ok hin hd

/-- Settles O6: an empty queue, and a request that does not decode. -/
theorem stepWithoutAnOperation : Obligations.StepWithoutAnOperation :=
  ⟨fun _ => step_idle, fun _ _ _ _ _ _ _ _ _ _ _ _ hfn hin => step_error hin (decodeCallback_unknown hfn _ _)⟩

/-- Settles O7, by the two meanings. -/
theorem peripheralReadsReturnTheirByte : Obligations.PeripheralReadsReturnTheirByte :=
  fun _ _ => ⟨rfl, rfl⟩

/-- Settles O8: the byte is the next draw. -/
theorem unselectedReadReturnsSomeByte : Obligations.UnselectedReadReturnsSomeByte :=
  fun _ _ => ⟨_, rfl⟩

end Sys2Proof.Steps
end
